-- ==== Sys2Proof/Word.lean ====
section
/-! DEFINITION. The word types of the block's ports and storage (spec/30_encoding.md, spec/20_memory.md). -/

namespace Sys2Proof

/-- A command word: 32 bits, bit 0 least significant (R10, R91, R92, R94). -/
abbrev Word := BitVec 32

/-- A response word: 64 bits (R96). -/
abbrev RespWord := BitVec 64

/-- A byte of the storage: the smallest addressable unit (R60). -/
abbrev Byte := BitVec 8

end Sys2Proof
end

