-- ==== Sys2Proof/Machine/Operands.lean ====
section
/-! DEFINITION. The fields of a command word and the operand forms: `imm24` zero-extended (R91, R93), the
boolean of `FAUTO_RELEASE` (R93), no operand (R92). There is no other operand form (R93, R94). -/

namespace Sys2Proof.Machine

/-- `opcode = layer ++ func`, bits 31:24 (R91). -/
def opcodeField (w : Word) : Nat := (w.extractLsb' 24 8).toNat

/-- `layer`, bits 31:28 (R91). -/
def layerField (w : Word) : Nat := (w.extractLsb' 28 4).toNat

/-- `imm24`, bits 23:0, as an unsigned number: `zext(imm24)` (R91, R93). -/
def imm24Field (w : Word) : Nat := (w.extractLsb' 0 24).toNat

/-- The word with the given opcode in bits 31:24 and operand in bits 23:0 (R91, R92). -/
def assembleWord (opcode imm : Nat) : Word := BitVec.ofNat 8 opcode ++ BitVec.ofNat 24 imm

/-- The boolean operand of `FAUTO_RELEASE`: `imm24 = 0` false, `imm24 = 1` true, any other value reserved (R93). -/
def boolOperand (imm : Nat) : Option Bool :=
  if imm = 0 then some false else if imm = 1 then some true else none

/-- The word's `imm24` for a boolean operand (R93). -/
def boolImm (b : Bool) : Nat := if b then 1 else 0

end Sys2Proof.Machine
end

