-- ==== Sys2Proof/Syntax.lean ====
section
/-! DEFINITION. The twenty-five commands of the opcode map (R100), one constructor per row of
spec/opcode_table.json, in the table's order. An operand is the natural number `zext(imm24)` (R93). -/

namespace Sys2Proof

/-- A command of the block (R14 reads "instruction" as "command"). -/
inductive Instr where
  /-- `GRANT_W sz` (R122): ask for `sz` contiguous bytes to write. -/
  | grantW (sz : Nat)
  /-- `COMMIT used` (R126): publish `used` bytes of the write grant. -/
  | commit (used : Nat)
  /-- `READ` (R131): ask for the contiguous unread bytes. -/
  | read
  /-- `RELEASE used` (R134): free `used` bytes of the read grant. -/
  | release (used : Nat)
  /-- `FGRANT max_sz` (R152): ask for room for one frame. -/
  | fgrant (maxSz : Nat)
  /-- `FCOMMIT used` (R155): publish a frame of `used` payload bytes. -/
  | fcommit (used : Nat)
  /-- `FTO_COMMIT amt` (R158): the amount a drop commits. -/
  | ftoCommit (amt : Nat)
  /-- `FDROP_W` (R159): a framed write grant goes out of scope. -/
  | fdropW
  /-- `FREAD` (R160): ask for the oldest unread frame. -/
  | fread
  /-- `FRELEASE` (R164): release the whole frame. -/
  | frelease
  /-- `FAUTO_RELEASE b` (R165): whether a drop releases the frame. -/
  | fautoRelease (b : Bool)
  /-- `FDROP_R` (R166): a framed read grant goes out of scope. -/
  | fdropR
  /-- `INIT` (R182): make a Pipe ready. -/
  | init
  /-- `STAGE_W max_size` (R184): stage a write grant. -/
  | stageW (maxSize : Nat)
  /-- `STAGE_R` (R187): stage the oldest frame. -/
  | stageR
  /-- `CLAIM_W` (R189): claim the staged write grant. -/
  | claimW
  /-- `CLAIM_R` (R190): claim the staged read grant. -/
  | claimR
  /-- `FINALIZE_W committed_len` (R192): commit the claimed write grant. -/
  | finalizeW (committedLen : Nat)
  /-- `FINALIZE_R` (R194): release the claimed read grant. -/
  | finalizeR
  /-- `ABORT_W` (R196): discard a staged, unclaimed write grant. -/
  | abortW
  /-- `ABORT_R` (R197): discard a staged, unclaimed read grant. -/
  | abortR
  /-- `QUERY_W` (R199): pointer and length of the write direction. -/
  | queryW
  /-- `QUERY_R` (R199): pointer and length of the read direction. -/
  | queryR
  /-- `DP_INIT` (R221): initialise both Pipes. -/
  | dpInit
  /-- `IDLE_STEP` (R223): four staging attempts. -/
  | idleStep
deriving DecidableEq, Repr

end Sys2Proof
end

