-- ==== Sys2Proof/WellFormed.lean ====
section
/-! DEFINITION. Which commands have an encoding: a natural operand fits the 24 bits of `imm24` (R91, R93).
`FAUTO_RELEASE` takes a boolean and the format `Z` commands take nothing, so they are always well formed. -/

namespace Sys2Proof

/-- A natural operand is one that `imm24` can hold: `0 .. 2^24 - 1` (R93). -/
abbrev OperandFits (n : Nat) : Prop := n < 2 ^ 24

/-- A command that some command word encodes (R91 to R93). -/
abbrev Instr.WellFormed : Instr → Prop
  | .grantW sz => OperandFits sz
  | .commit used => OperandFits used
  | .read => True
  | .release used => OperandFits used
  | .fgrant maxSz => OperandFits maxSz
  | .fcommit used => OperandFits used
  | .ftoCommit amt => OperandFits amt
  | .fdropW => True
  | .fread => True
  | .frelease => True
  | .fautoRelease _ => True
  | .fdropR => True
  | .init => True
  | .stageW maxSize => OperandFits maxSize
  | .stageR => True
  | .claimW => True
  | .claimR => True
  | .finalizeW committedLen => OperandFits committedLen
  | .finalizeR => True
  | .abortW => True
  | .abortR => True
  | .queryW => True
  | .queryR => True
  | .dpInit => True
  | .idleStep => True

/-- The check as a Boolean, so that it can be run on a command. -/
def Instr.wellFormed (i : Instr) : Bool :=
  match i with
  | .grantW n | .commit n | .release n | .fgrant n | .fcommit n | .ftoCommit n | .stageW n
  | .finalizeW n => decide (OperandFits n)
  | _ => true

end Sys2Proof
end

