-- ==== Sys2Proof/Decode.lean ====
section
/-! DEFINITION. The decoder of command words, total and rejecting by name (R91 to R94, R99, R100), the
encoder, and the host's view of the decoder. A command word has bit numbering and no byte order (R79). -/

namespace Sys2Proof

open Sys2Proof.Machine

/-- Why a word is illegal (R99). -/
inductive Illegal where
  /-- `layer` 0 or 5 to 15. -/
  | reservedLayer
  /-- A `func` that is not listed for its layer. -/
  | reservedFunc
  /-- A format `Z` opcode with a bit of 23:0 set. -/
  | operandNotZero
  /-- `FAUTO_RELEASE` with `imm24 >= 2`. -/
  | operandNotBoolean
deriving DecidableEq, Repr

/-- A format `Z` command: bits 23:0 must be zero (R92). -/
def formatZ (imm : Nat) (i : Instr) : Except Illegal Instr :=
  if imm = 0 then .ok i else .error .operandNotZero

/-- `FAUTO_RELEASE` (R93, R99). -/
def formatBool (imm : Nat) : Except Illegal Instr :=
  match boolOperand imm with
  | some b => .ok (.fautoRelease b)
  | none => .error .operandNotBoolean

/-- An opcode of no row: the layer is reserved, or the func within it (R99). -/
def unassigned (layer : Nat) : Illegal :=
  if 1 ≤ layer ∧ layer ≤ 4 then .reservedFunc else .reservedLayer

/-- The opcode map, R100, row by row. -/
def decodeFields (opcode imm : Nat) : Except Illegal Instr :=
  match opcode with
  | 0x10 => .ok (.grantW imm)
  | 0x11 => .ok (.commit imm)
  | 0x14 => formatZ imm .read
  | 0x15 => .ok (.release imm)
  | 0x20 => .ok (.fgrant imm)
  | 0x21 => .ok (.fcommit imm)
  | 0x22 => .ok (.ftoCommit imm)
  | 0x23 => formatZ imm .fdropW
  | 0x24 => formatZ imm .fread
  | 0x25 => formatZ imm .frelease
  | 0x26 => formatBool imm
  | 0x27 => formatZ imm .fdropR
  | 0x30 => formatZ imm .init
  | 0x31 => .ok (.stageW imm)
  | 0x32 => formatZ imm .stageR
  | 0x33 => formatZ imm .claimW
  | 0x34 => formatZ imm .claimR
  | 0x35 => .ok (.finalizeW imm)
  | 0x36 => formatZ imm .finalizeR
  | 0x37 => formatZ imm .abortW
  | 0x38 => formatZ imm .abortR
  | 0x39 => formatZ imm .queryW
  | 0x3A => formatZ imm .queryR
  | 0x40 => formatZ imm .dpInit
  | 0x41 => formatZ imm .idleStep
  | _ => .error (unassigned (opcode / 16))

/-- The command that a word names, or why it names none (R91, R99, R100). -/
def decode (w : Word) : Except Illegal Instr := decodeFields (opcodeField w) (imm24Field w)

/-- The opcode, bits 31:24, of a command (R100). -/
def Instr.opcode : Instr → Nat
  | .grantW _ => 0x10
  | .commit _ => 0x11
  | .read => 0x14
  | .release _ => 0x15
  | .fgrant _ => 0x20
  | .fcommit _ => 0x21
  | .ftoCommit _ => 0x22
  | .fdropW => 0x23
  | .fread => 0x24
  | .frelease => 0x25
  | .fautoRelease _ => 0x26
  | .fdropR => 0x27
  | .init => 0x30
  | .stageW _ => 0x31
  | .stageR => 0x32
  | .claimW => 0x33
  | .claimR => 0x34
  | .finalizeW _ => 0x35
  | .finalizeR => 0x36
  | .abortW => 0x37
  | .abortR => 0x38
  | .queryW => 0x39
  | .queryR => 0x3A
  | .dpInit => 0x40
  | .idleStep => 0x41

/-- The operand field, bits 23:0, of a command (R91 to R93). -/
def Instr.imm : Instr → Nat
  | .grantW n | .commit n | .release n | .fgrant n | .fcommit n | .ftoCommit n | .stageW n
  | .finalizeW n => n
  | .fautoRelease b => boolImm b
  | .read | .fdropW | .fread | .frelease | .fdropR | .init | .stageR | .claimW | .claimR
  | .finalizeR | .abortW | .abortR | .queryW | .queryR | .dpInit | .idleStep => 0

/-- The command word of a well-formed command (R91 to R93, R100). -/
def encode (i : Instr) : Word := assembleWord i.opcode i.imm

/-- What the decoder reads from a table row's word of `nbits` bits; the bits above `nbits` are 0. -/
def decodeTableWord (nbits w : Nat) : Option Instr :=
  match decode (BitVec.ofNat 32 (w % 2 ^ nbits)) with
  | .ok i => some i
  | .error _ => none

end Sys2Proof
end

