-- ==== Sys2Proof/Config.lean ====
section
/-! DEFINITION. The parameters of an instance (R8, R9, R41), and the free values of the model: the
platform addresses of the storages (R61) and the bytes that a read of never-written storage returns (R62). -/

namespace Sys2Proof

/-- `LEVEL`: which layer's command set the instance's ports expose (R8, R90). -/
inductive Level where
  | ring
  | framed
  | pipe
  | datapipes
deriving DecidableEq, Repr

/-- `HDR_MODE`: the frame-header scheme (R8, R29). -/
inductive HdrMode where
  | fixed2
  | varint
deriving DecidableEq, Repr

/-- `SCHED`: the interleaving discipline between contexts (R8, R242). -/
inductive Sched where
  | any
  | singleCorePriority
deriving DecidableEq, Repr

/-- An execution context: the low-priority loop or an interrupt handler (R13, R240). -/
inductive Ctx where
  | lp
  | hp
deriving DecidableEq, Repr

/-- `P0 = spi_to_rs485`, `P1 = rs485_to_spi` (R35). -/
inductive PipeId where
  | p0
  | p1
deriving DecidableEq, Repr

/-- A direction of a Pipe: `W`, bytes enter the ring; `R`, bytes leave it (R16). -/
inductive Dir where
  | w
  | r
deriving DecidableEq, Repr

/-- The parameter tuple of an instance (R8). Both Pipes share `n` and `hdrMode` (R9).
DESIGN CHOICE (log 1), safe: it is a constant field of the state, so that every claim holds for every
parameter; no step changes it. -/
structure Config where
  level : Level
  /-- `N`, the capacity of one ring's storage in bytes. -/
  n : Nat
  hdrMode : HdrMode
  /-- `STAGE_MAX`, the size that `IDLE_STEP` passes to `STAGE_W`. -/
  stageMax : Nat
  sched : Sched
deriving DecidableEq, Repr

/-- The reference values of R8: the amodem build is `DATAPIPES`, `FIXED2`, `STAGE_MAX = 256`; `N = 1000` is
the source's example and `SCHED = ANY` the recommended setting.
DESIGN CHOICE (log 1), unsafe if a claim rests on it: `LEVEL`, `N` and `SCHED` are open parameters. -/
def Config.reference : Config :=
  ⟨.datapipes, 1000, .fixed2, 256, .any⟩

/-- The bounds of R8: `1 <= N <= 2^24 - 1`, and `STAGE_MAX` is an operand of `STAGE_W` (R93). -/
abbrev Config.WellFormed (c : Config) : Prop :=
  1 ≤ c.n ∧ c.n ≤ 2 ^ 24 - 1 ∧ c.stageMax < 2 ^ 24

/-- `BUF_BASE`: the platform address of byte 0 of a ring's storage, a parameter that the source does not give
(R8, R61). A free value (log 2), safe: nothing constrains it and no step reads it. -/
opaque Config.bufBase : PipeId → Nat

/-- The byte that the `k`-th draw from a ring's never-written storage returns (R62: "any 8-bit value ...
possibly different at each read"). A free value (log 3), safe: nothing constrains it. -/
opaque Config.freeByte : PipeId → Nat → Byte

end Sys2Proof
end

