-- ==== Sys2Proof/Machine/State.lean ====
section
/-! DEFINITION. The state of an instance as plain data, and the state after reset (10_state.md; R260 to R262).
A `RING` or `FRAMED` instance uses the ring of `p0`, a `PIPE` instance `p0`, a `DATAPIPES` instance both (log 4). -/

namespace Sys2Proof.Machine

/-! ## Faults and refusals -/

/-- A verdict of the model: the surrounding software broke a contract whose breach has no result (R246). -/
inductive Fault where
  /-- A byte access outside the region and state that R64 or R66 admits (R65), or at an offset that the storage
  does not have (R63). Raised by a byte access, and by the block's own header access in states that no run
  reaches. Safe. -/
  | accessOutsideGrant
  /-- `FREAD` meets a header that does not describe a frame inside the raw grant (R163). Raised by `FREAD` and
  `STAGE_R`. Safe. -/
  | corruptFrame
  /-- A second context drives the producer port (R77, R246). Raised by a step. Safe. -/
  | secondProducer
  /-- A second context drives the consumer port (R77, R246). Raised by a step. Safe. -/
  | secondConsumer
deriving DecidableEq, Repr

/-- Why the model admits no step. -/
inductive Refusal where
  /-- A command without a meaning: raised by no arm of `exec`. Safe. -/
  | notModelled (mnemonic : String)
  /-- The schedule names a step that is not enabled: a context that `SCHED` does not let step (R242), the end of
  a handler when none is active, an event taken when none is pending, or the next attempt of an `IDLE_STEP` that
  is not running. Raised by a step, never by a command. Safe. -/
  | stepNotEnabled
  /-- The schedule sends a command to a port that the instance does not have (R90). Raised by a step. Safe. -/
  | noSuchPort
deriving DecidableEq, Repr

/-! ## One ring -/

/-- A grant descriptor: pointer and length (R26). -/
structure Grant where
  start : Nat
  len : Nat
deriving DecidableEq, Repr

/-- The framed-layer fields of an outstanding write grant (R28). -/
structure FrameW where
  hdrLen : Nat
  toCommit : Nat
deriving DecidableEq, Repr

/-- The framed-layer fields of an outstanding read grant (R28). -/
structure FrameR where
  hdrLen : Nat
  autoRelease : Bool
deriving DecidableEq, Repr

/-- The byte storage: the bytes written since reset, by offset, offsets strictly rising (R60, R62). An unlisted
offset holds no byte yet: reading it is a draw (log 3). -/
structure Memory where
  cells : List Host.Cell
deriving DecidableEq, Repr

/-- The canonical form: offsets strictly rising. An unlisted offset has no value of its own, so no entry can
repeat one. -/
abbrev Memory.wf (m : Memory) : Prop := m.cells.Pairwise (fun x y => x.1 < y.1)

/-- One ring: the cursors and flags of R21, the descriptors of R26, the framed-layer fields of R28, the storage of
R60. `none` is "invalid". -/
structure Ring where
  write : Nat
  read : Nat
  last : Nat
  reserve : Nat
  wip : Bool
  rip : Bool
  wg : Option Grant
  rg : Option Grant
  fw : Option FrameW
  fr : Option FrameR
  buf : Memory
  /-- How many draws have been taken from never-written bytes (R62; log 3). -/
  drawn : Nat
deriving DecidableEq, Repr

/-- A ring of capacity `n` after reset (R260): `last = N` (R261), the storage never written. -/
def Ring.reset (n : Nat) : Ring :=
  { write := 0, read := 0, last := n, reserve := 0, wip := false, rip := false,
    wg := none, rg := none, fw := none, fr := none, buf := ⟨[]⟩, drawn := 0 }

/-! ## One Pipe -/

/-- A direction's state tag (R31). Value 3 is never produced (U12), so it has no constructor. -/
inductive Tag where
  | idle
  | grantReady
  | grantBusy
deriving DecidableEq, Repr

/-- One Pipe: a framed ring and the registers of R31. A slot's content is the ring's own descriptors (R33), so
the slot itself is filled (`true`) or empty (`false`). -/
structure Pipe where
  ring : Ring
  wrState : Tag
  rdState : Tag
  wrSlot : Bool
  rdSlot : Bool
  wrPtr : Nat
  wrLen : Nat
  rdPtr : Nat
  rdLen : Nat
  inited : Bool
  /-- The context that claimed the write grant, while `GRANT_BUSY` (R66; log 5). -/
  wrClaim : Option Ctx
  /-- The context that claimed the read grant, while `GRANT_BUSY` (R66; log 5). -/
  rdClaim : Option Ctx
deriving DecidableEq, Repr

/-- A Pipe after reset (R260). -/
def Pipe.reset (n : Nat) : Pipe :=
  { ring := Ring.reset n, wrState := .idle, rdState := .idle, wrSlot := false, rdSlot := false,
    wrPtr := 0, wrLen := 0, rdPtr := 0, rdLen := 0, inited := false,
    wrClaim := none, rdClaim := none }

/-! ## Ports, agents, responses, events -/

/-- A command port, with the context that issues the command (R13, R90). A Pipe's `LP` and `HP` ports are
`pipe p .lp` and `pipe p .hp`; the `DP` port belongs to the low-priority loop (R221, R223). -/
inductive Port where
  | producer (c : Ctx)
  | consumer (c : Ctx)
  | pipe (p : PipeId) (c : Ctx)
  | dp
deriving DecidableEq, Repr

/-- The kinds of port that R90 lists commands for. -/
inductive PortKind where
  | producer
  | consumer
  | pipe
  | dp
deriving DecidableEq, Repr

/-- Who accesses a byte of the storage: the context behind a port, or the DMA engine of a Pipe direction
(R64, R66, R69). -/
inductive Agent where
  | port (p : Port)
  | dma (p : PipeId) (d : Dir)
deriving DecidableEq, Repr

/-- A status (R97). -/
inductive Status where
  | ok
  | insufficientSize
  | grantInProgress
  | empty
  | notReady
  | badState
  | illegalCmd
  | notInit
  | noopStaged
deriving DecidableEq, Repr

/-- The fields of a response (R96). -/
structure Resp where
  status : Status
  ptr : Nat
  len : Nat
deriving DecidableEq, Repr

/-- The output event `STAGED(pipe, direction, ptr, len)` (R224). -/
structure Staged where
  pipe : PipeId
  dir : Dir
  ptr : Nat
  len : Nat
deriving DecidableEq, Repr

/-- The four attempts of `IDLE_STEP`, in order (R223). -/
inductive Attempt where
  | p0w
  | p0r
  | p1w
  | p1r
deriving DecidableEq, Repr

/-- A running `IDLE_STEP`: the attempt to make next, and how many attempts have returned `OK` (R223). -/
structure IdleRun where
  todo : Attempt
  count : Nat
deriving DecidableEq, Repr

/-- A byte that a `BufRead` returned, and to whom (R69). -/
structure ReadByte where
  agent : Agent
  off : Nat
  byte : Byte
deriving DecidableEq, Repr

/-- What an agent does when it takes a step (R13, R238, R242). -/
inductive Action where
  /-- A command word arrives at a port (R90). -/
  | cmd (p : Port) (w : Word)
  /-- `BufWrite(agent, off, v)` (R69). -/
  | bufWrite (a : Agent) (off : Nat) (v : Byte)
  /-- `BufRead(agent, off)` (R69). -/
  | bufRead (a : Agent) (off : Nat)
  /-- The low-priority loop takes the next of the four steps of the running `IDLE_STEP` (R70, R223). -/
  | resume
  /-- An interrupt handler starts (R241, R242). -/
  | handlerStart
  /-- The innermost interrupt handler ends (R241, R242). -/
  | handlerEnd
  /-- The glue takes the oldest pending `STAGED` event (R224). -/
  | takeEvent
deriving DecidableEq, Repr

/-! ## The instance -/

/-- The state of an instance. -/
structure State where
  /-- The parameters, constant (R8, R41; log 1). -/
  cfg : Config
  /-- `P0` (R35); its ring is the ring of a `RING` or `FRAMED` instance (log 4). -/
  p0 : Pipe
  /-- `P1` (R35). -/
  p1 : Pipe
  /-- Pending output events, oldest first (R224, R260). -/
  events : List Staged
  /-- The running `IDLE_STEP` (R223; log 6). -/
  idle : Option IdleRun
  /-- The response returned by the latest step, with its port (R90, R96; log 7). -/
  resp : Option (Port × RespWord)
  /-- The byte returned by the latest step (R69; log 7). -/
  rdata : Option ReadByte
  /-- The port of the command being executed (R90; log 8). -/
  cur : Port
  /-- The schedule: what the agents do next, in order (R41, R242; log 9). -/
  inputs : List Action
  /-- How many interrupt handlers are active (R241, R242; log 10). -/
  handlers : Nat
  /-- The context that drives the producer port (R77; log 11). -/
  prodBy : Option Ctx
  /-- The context that drives the consumer port (R77; log 11). -/
  consBy : Option Ctx
deriving DecidableEq, Repr

/-- The state after reset of an instance with the given parameters (R260). -/
def State.resetOf (cfg : Config) : State :=
  { cfg := cfg, p0 := Pipe.reset cfg.n, p1 := Pipe.reset cfg.n, events := [], idle := none,
    resp := none, rdata := none, cur := .dp, inputs := [], handlers := 0,
    prodBy := none, consBy := none }

/-- The state after reset of the reference instance (R8, R260). Nothing is scheduled: the block executes nothing
of its own (R14, R260). -/
def State.reset : State := State.resetOf Config.reference

end Sys2Proof.Machine
end

