-- ==== Sys2Proof/Machine/Flags.lean ====
section
/-! DEFINITION. The flag-like state and the numeric codes. The block has no arithmetic flags and no condition
codes (R38): what an operation sets or clears is `wip` and `rip` with their descriptors (R21, R26), and what it
reports is the status of its response word (R96, R97). -/

namespace Sys2Proof.Machine

/-- The status codes (R97). -/
def statusCode : Status → Nat
  | .ok => 0x00
  | .insufficientSize => 0x01
  | .grantInProgress => 0x02
  | .empty => 0x03
  | .notReady => 0x04
  | .badState => 0x05
  | .illegalCmd => 0x06
  | .notInit => 0x07
  | .noopStaged => 0x08

/-- The state-tag values (R31). -/
def tagValue : Tag → Nat
  | .idle => 0
  | .grantReady => 1
  | .grantBusy => 2

/-- The response word: bits 63:56 zero, 55:48 `status`, 47:24 `ptr`, 23:0 `len` (R96). -/
def respWord (r : Resp) : RespWord :=
  0#8 ++ BitVec.ofNat 8 (statusCode r.status) ++ BitVec.ofNat 24 r.ptr ++ BitVec.ofNat 24 r.len

/-- A response with no pointer and no length: every status other than `OK` (R97), and a bare `OK` (R11). -/
def bare (st : Status) : Resp := ⟨st, 0, 0⟩

/-- Set `wip` with its descriptor and the reservation (R21, R26, R122). -/
def setWriteGrant (start len : Nat) (r : Ring) : Ring :=
  { r with wip := true, reserve := start + len, wg := some ⟨start, len⟩ }

/-- Clear `wip` and its descriptor (R21, R26, R126). -/
def clearWriteGrant (r : Ring) : Ring := { r with wip := false, wg := none }

/-- Set `rip` with its descriptor (R21, R26, R131). -/
def setReadGrant (start len : Nat) (r : Ring) : Ring :=
  { r with rip := true, rg := some ⟨start, len⟩ }

/-- Clear `rip` and its descriptor (R21, R26, R134). -/
def clearReadGrant (r : Ring) : Ring := { r with rip := false, rg := none }

end Sys2Proof.Machine
end

