-- ==== Sys2Proof/Machine/Header.lean ====
section
/-! DEFINITION. The frame header: sizes, encoder and decoder of both header modes (R102 to R108, R151), with the
byte-order primitives of R10 and R11. -/

namespace Sys2Proof.Machine

/-- `le(n, v)`: the `n`-byte little-endian sequence of `v`; byte `i` is `v[8i+7:8i]` (R11, R79). -/
def leBytes : Nat → Nat → List Byte
  | 0, _ => []
  | n + 1, v => BitVec.ofNat 8 v :: leBytes n (v / 256)

/-- `unle(s)`: the inverse of `le` (R11). -/
def unle : List Byte → Nat
  | [] => 0
  | b :: bs => b.toNat + 256 * unle bs

/-- The trailing zero bits of `v`, among its lowest `k` bits. -/
def trailingZeros : Nat → Nat → Nat
  | 0, _ => 0
  | k + 1, v => if v % 2 = 1 then 0 else 1 + trailingZeros k (v / 2)

/-- `ctz8(b)`: the number of trailing zero bits of a byte; `ctz8(0) = 8` (R10). -/
def ctz8 (b : Byte) : Nat := trailingZeros 8 b.toNat

/-- `HdrLen(m)`, the least `k >= 1` with `m < 2^(7k)` (R104): one byte per 7 bits of `m`, and 1 for `m = 0`. -/
def varintHdrLen (m : Nat) : Nat := m.log2 / 7 + 1

/-- `H(max_sz)`: the header size chosen when the grant is made (R151). -/
def hdrSize (mode : HdrMode) (maxSz : Nat) : Nat :=
  match mode with
  | .fixed2 => 2
  | .varint => varintHdrLen maxSz

/-- The range of `FIXED2`: `max_sz <= 65535` (R103, R151); `VARINT` has none (R153). -/
def hdrInRange (mode : HdrMode) (maxSz : Nat) : Bool :=
  match mode with
  | .fixed2 => maxSz ≤ 65535
  | .varint => true

/-- `HdrEnc(h, p)`: `le(2, p)` in `FIXED2` (R103), `le(h, (2p + 1) * 2^(h-1))` in `VARINT` (R105). -/
def hdrEnc (mode : HdrMode) (h p : Nat) : List Byte :=
  match mode with
  | .fixed2 => leBytes 2 p
  | .varint => leBytes h ((2 * p + 1) * 2 ^ (h - 1))

/-- The header size that the first byte tells: 2 in `FIXED2` (R103), `ctz8(byte 0) + 1` in `VARINT` (R106). -/
def hdrSizeOf (mode : HdrMode) (b0 : Byte) : Nat :=
  match mode with
  | .fixed2 => 2
  | .varint => ctz8 b0 + 1

/-- The payload length that the header's bytes tell: `unle` in `FIXED2` (R103), `unle(...) div 2^h` in `VARINT`
(R107). -/
def hdrValue (mode : HdrMode) (bytes : List Byte) : Nat :=
  match mode with
  | .fixed2 => unle bytes
  | .varint => unle bytes / 2 ^ bytes.length

end Sys2Proof.Machine
end

