-- ==== Sys2Proof/Machine/Ops.lean ====
section
/-! DEFINITION. The named operations over the storage and the registers, as the layers of the block define them:
the byte storage (R11, R60 to R63), the ring (40_ring.md), the framed ring (41_framed.md), the Pipe (42_pipe.md).
A command of an upper layer calls a lower one inside the same step (R12).

The block raises no exception, takes no trap and has no return instruction (R235), so there is no operation here
for entering or leaving a handler: every command answers with a status. What an operation can raise is a fault of
the model (R246). -/

namespace Sys2Proof.Machine

/-! ## The byte storage -/

/-- The byte listed at an offset. -/
def cellsGet? : List Host.Cell → Nat → Option Byte
  | [], _ => none
  | (a, v) :: t, off => if a = off then some v else cellsGet? t off

/-- The list with a byte set at an offset; it keeps the offsets strictly rising. -/
def cellsSet : List Host.Cell → Nat → Byte → List Host.Cell
  | [], off, v => [(off, v)]
  | (a, w) :: t, off, v =>
    if off < a then (off, v) :: (a, w) :: t
    else if off = a then (off, v) :: t
    else (a, w) :: cellsSet t off v

/-- The byte written at an offset since reset, if any has been: what one byte of the storage holds (R60, R62). -/
def memGet? (m : Memory) (off : Nat) : Option Byte := cellsGet? m.cells off

/-- `buf[off] <- v` (R11, R69). -/
def memSet (m : Memory) (off : Nat) (v : Byte) : Memory := ⟨cellsSet m.cells off v⟩

/-- The bytes `vs` stored at `off`, `off + 1`, ... -/
def memSetBytes (m : Memory) (off : Nat) : List Byte → Memory
  | [] => m
  | v :: vs => memSetBytes (memSet m off v) (off + 1) vs

/-- One byte of a ring's storage. A byte never written since reset reads as a draw: the next free byte, taken from
`free` (R62; log 3). -/
def readByte (free : Nat → Byte) (off : Nat) (r : Ring) : Ring × Byte :=
  match memGet? r.buf off with
  | some v => (r, v)
  | none => ({ r with drawn := r.drawn + 1 }, free r.drawn)

/-- `n` bytes from `off`, lowest offset first. -/
def readBytes (free : Nat → Byte) : Nat → Nat → Ring → Ring × List Byte
  | 0, _, r => (r, [])
  | n + 1, off, r =>
    let (r₁, v) := readByte free off r
    let (r₂, vs) := readBytes free n (off + 1) r₁
    (r₂, v :: vs)

/-- `MemRead(a, n)`, which requires `a + n <= N` (R11); an access past the physical end does not exist (R63). -/
def memRead (cap : Nat) (free : Nat → Byte) (a n : Nat) (r : Ring) : Except Fault (Ring × List Byte) :=
  if a + n ≤ cap then .ok (readBytes free n a r) else .error .accessOutsideGrant

/-- `MemWrite(a, n, v)`, which requires `a + n <= N` (R11); an access past the physical end does not exist (R63). -/
def memWrite (cap : Nat) (a : Nat) (vs : List Byte) (r : Ring) : Except Fault Ring :=
  if a + vs.length ≤ cap then .ok { r with buf := memSetBytes r.buf a vs }
  else .error .accessOutsideGrant

/-! ## The ring (40_ring.md) -/

/-- Where a write grant of `sz` bytes is placed, if anywhere (R122, R123). -/
def placeGrant (cap sz : Nat) (r : Ring) : Option Nat :=
  if r.write < r.read then
    if r.write + sz < r.read then some r.write else none
  else if r.write + sz ≤ cap then some r.write
  else if sz < r.read then some 0
  else none

/-- `GRANT_W` (R122, R124, R125). -/
def ringGrantW (cap sz : Nat) (r : Ring) : Ring × Resp :=
  if r.wip then (r, bare .grantInProgress)
  else match placeGrant cap sz r with
    | some start => (setWriteGrant start sz r, ⟨.ok, start, sz⟩)
    | none => (r, bare .insufficientSize)

/-- The cursors after a commit of `u` bytes of the grant at `start` (R126, R128, R129). -/
def advanceWrite (cap start u : Nat) (r : Ring) : Ring :=
  if u = 0 then { r with reserve := r.write }
  else
    { r with
      last := if start + u < r.write then r.write else if r.last < start + u then cap else r.last
      write := start + u
      reserve := start + u }

/-- `COMMIT` (R126 to R130). -/
def ringCommit (cap used : Nat) (r : Ring) : Ring × Resp :=
  match r.wip, r.wg with
  | true, some g => (clearWriteGrant (advanceWrite cap g.start (min used g.len) r), bare .ok)
  | _, _ => (r, bare .badState)

/-- The wrap step of `READ`: the upper data is exhausted, follow the producer to offset 0 (R131, R132). -/
def wrapRead (r : Ring) : Ring :=
  if r.read = r.last ∧ r.write < r.read then { r with read := 0 } else r

/-- The contiguous unread bytes from `read` (R131, R133). -/
def readExtent (r : Ring) : Nat :=
  if r.write < r.read then r.last - r.read else r.write - r.read

/-- `READ` (R131 to R133). -/
def ringRead (r : Ring) : Ring × Resp :=
  if r.rip then (r, bare .grantInProgress)
  else
    let r₁ := wrapRead r
    if readExtent r₁ = 0 then (r₁, bare .empty)
    else (setReadGrant r₁.read (readExtent r₁) r₁, ⟨.ok, r₁.read, readExtent r₁⟩)

/-- `RELEASE` (R134, R135). -/
def ringRelease (used : Nat) (r : Ring) : Ring × Resp :=
  match r.rip, r.rg with
  | true, some g => (clearReadGrant { r with read := r.read + min used g.len }, bare .ok)
  | _, _ => (r, bare .badState)

/-! ## The framed ring (41_framed.md) -/

/-- `FGRANT` (R152 to R154). -/
def frameGrant (cfg : Config) (maxSz : Nat) (r : Ring) : Ring × Resp :=
  if hdrInRange cfg.hdrMode maxSz then
    let h := hdrSize cfg.hdrMode maxSz
    let (r₁, a) := ringGrantW cfg.n (maxSz + h) r
    if a.status = .ok then ({ r₁ with fw := some ⟨h, 0⟩ }, ⟨.ok, a.ptr + h, maxSz⟩) else (r₁, a)
  else (r, bare .insufficientSize)

/-- `FCOMMIT` (R155 to R157). -/
def frameCommit (cfg : Config) (used : Nat) (r : Ring) : Except Fault (Ring × Resp) :=
  match r.wip, r.wg, r.fw with
  | true, some g, some f =>
    let p := min used (g.len - f.hdrLen)
    match memWrite cfg.n g.start (hdrEnc cfg.hdrMode f.hdrLen p) r with
    | .ok r₁ => .ok (ringCommit cfg.n (f.hdrLen + p) { r₁ with fw := none })
    | .error e => .error e
  | _, _, _ => .ok (r, bare .badState)

/-- `FTO_COMMIT` (R158): stored as given, clamped when used. -/
def frameToCommit (amt : Nat) (r : Ring) : Ring × Resp :=
  match r.wip, r.fw with
  | true, some f => ({ r with fw := some { f with toCommit := amt } }, bare .ok)
  | _, _ => (r, bare .badState)

/-- `FDROP_W` (R159). -/
def frameDropW (cfg : Config) (r : Ring) : Except Fault (Ring × Resp) :=
  match r.wip, r.fw with
  | true, some f =>
    if f.toCommit = 0 then .ok (ringCommit cfg.n 0 { r with fw := none })
    else frameCommit cfg f.toCommit r
  | _, _ => .ok (r, bare .badState)

/-- The part of `FREAD` after a successful `READ` of `len` bytes at `start`: decode the header, check that it
describes a frame inside the raw grant, narrow the grant to that frame (R160, R161, R163). -/
def narrowToFrame (cfg : Config) (free : Nat → Byte) (start len : Nat) (r : Ring) :
    Except Fault (Ring × Resp) :=
  match memRead cfg.n free start 1 r with
  | .error e => .error e
  | .ok (r₁, b0) =>
    let h := hdrSizeOf cfg.hdrMode (b0.headD 0)
    if 8 < h ∨ len < h then .error .corruptFrame
    else match memRead cfg.n free start h r₁ with
      | .error e => .error e
      | .ok (r₂, bytes) =>
        let p := hdrValue cfg.hdrMode bytes
        if len < h + p then .error .corruptFrame
        else .ok ({ r₂ with rg := some ⟨start, h + p⟩, fr := some ⟨h, false⟩ }, ⟨.ok, start + h, p⟩)

/-- `FREAD` (R160 to R163). -/
def frameRead (cfg : Config) (free : Nat → Byte) (r : Ring) : Except Fault (Ring × Resp) :=
  let (r₁, a) := ringRead r
  if a.status = .ok then narrowToFrame cfg free a.ptr a.len r₁ else .ok (r₁, a)

/-- `FRELEASE` (R164): always the whole frame. -/
def frameRelease (r : Ring) : Ring × Resp :=
  match r.rip, r.rg with
  | true, some g => ringRelease g.len { r with fr := none }
  | _, _ => (r, bare .badState)

/-- `FAUTO_RELEASE` (R165). -/
def frameAutoRelease (b : Bool) (r : Ring) : Ring × Resp :=
  match r.rip, r.fr with
  | true, some f => ({ r with fr := some { f with autoRelease := b } }, bare .ok)
  | _, _ => (r, bare .badState)

/-- `FDROP_R` (R166). -/
def frameDropR (r : Ring) : Ring × Resp :=
  match r.rip, r.fr with
  | true, some f =>
    if f.autoRelease then frameRelease r else ringRelease 0 { r with fr := none }
  | _, _ => (r, bare .badState)

/-! ## The Pipe (42_pipe.md) -/

/-- `INIT` (R182, R183): every register to its reset value, `inited` set, `buf` untouched. -/
def pipeInit (cfg : Config) (p : Pipe) : Pipe × Resp :=
  if p.inited then (p, bare .notInit)
  else
    ({ Pipe.reset cfg.n with
        ring := { Ring.reset cfg.n with buf := p.ring.buf, drawn := p.ring.drawn }
        inited := true }, bare .ok)

/-- `STAGE_W` (R184 to R186). -/
def pipeStageW (cfg : Config) (maxSize : Nat) (p : Pipe) : Pipe × Resp :=
  if !p.inited then (p, bare .notInit)
  else if p.wrState ≠ .idle then (p, bare .noopStaged)
  else
    let (r₁, a) := frameGrant cfg maxSize p.ring
    if a.status = .ok then
      ({ p with ring := r₁, wrSlot := true, wrPtr := a.ptr, wrLen := a.len, wrState := .grantReady },
        ⟨.ok, a.ptr, a.len⟩)
    else ({ p with ring := r₁ }, a)

/-- `STAGE_R` (R186 to R188). A failing one may still have taken the wrap step of `READ` (R187). -/
def pipeStageR (cfg : Config) (free : Nat → Byte) (p : Pipe) : Except Fault (Pipe × Resp) :=
  if !p.inited then .ok (p, bare .notInit)
  else if p.rdState ≠ .idle then .ok (p, bare .noopStaged)
  else match frameRead cfg free p.ring with
    | .error e => .error e
    | .ok (r₁, a) =>
      if a.status = .ok then
        .ok ({ p with ring := r₁, rdSlot := true, rdPtr := a.ptr, rdLen := a.len, rdState := .grantReady },
          ⟨.ok, a.ptr, a.len⟩)
      else .ok ({ p with ring := r₁ }, a)

/-- `CLAIM_W` from context `c` (R189, R191). -/
def pipeClaimW (c : Ctx) (p : Pipe) : Pipe × Resp :=
  if !p.inited then (p, bare .notInit)
  else if p.wrState ≠ .grantReady then (p, bare .notReady)
  else ({ p with wrState := .grantBusy, wrClaim := some c }, ⟨.ok, p.wrPtr, p.wrLen⟩)

/-- `CLAIM_R` from context `c` (R190, R191). -/
def pipeClaimR (c : Ctx) (p : Pipe) : Pipe × Resp :=
  if !p.inited then (p, bare .notInit)
  else if p.rdState ≠ .grantReady then (p, bare .notReady)
  else ({ p with rdState := .grantBusy, rdClaim := some c }, ⟨.ok, p.rdPtr, p.rdLen⟩)

/-- `FINALIZE_W` (R192, R193, R195). -/
def pipeFinalizeW (cfg : Config) (committedLen : Nat) (p : Pipe) : Except Fault (Pipe × Resp) :=
  if !p.inited then .ok (p, bare .notInit)
  else if p.wrState ≠ .grantBusy then .ok (p, bare .badState)
  else match frameCommit cfg committedLen p.ring with
    | .error e => .error e
    | .ok (r₁, _) =>
      .ok ({ p with ring := r₁, wrSlot := false, wrState := .idle, wrClaim := none }, bare .ok)

/-- `FINALIZE_R` (R194, R195). -/
def pipeFinalizeR (p : Pipe) : Pipe × Resp :=
  if !p.inited then (p, bare .notInit)
  else if p.rdState ≠ .grantBusy then (p, bare .badState)
  else
    ({ p with ring := (frameRelease p.ring).1, rdSlot := false, rdState := .idle, rdClaim := none },
      bare .ok)

/-- `ABORT_W` (R196, R198, R204): `FDROP_W` with `to_commit = 0`. -/
def pipeAbortW (cfg : Config) (p : Pipe) : Except Fault (Pipe × Resp) :=
  if !p.inited then .ok (p, bare .notInit)
  else if p.wrState ≠ .grantReady then .ok (p, bare .badState)
  else match frameDropW cfg (frameToCommit 0 p.ring).1 with
    | .error e => .error e
    | .ok (r₁, _) => .ok ({ p with ring := r₁, wrSlot := false, wrState := .idle }, bare .ok)

/-- `ABORT_R` (R197, R198, R204): `FDROP_R` with `auto_release = false`. -/
def pipeAbortR (p : Pipe) : Pipe × Resp :=
  if !p.inited then (p, bare .notInit)
  else if p.rdState ≠ .grantReady then (p, bare .badState)
  else
    ({ p with ring := (frameDropR (frameAutoRelease false p.ring).1).1, rdSlot := false,
              rdState := .idle }, bare .ok)

/-- `QUERY_W` (R199): no state is written. -/
def pipeQueryW (p : Pipe) : Resp :=
  if !p.inited then bare .notInit
  else if p.wrState = .idle then bare .notReady
  else ⟨.ok, p.wrPtr, p.wrLen⟩

/-- `QUERY_R` (R199): no state is written. -/
def pipeQueryR (p : Pipe) : Resp :=
  if !p.inited then bare .notInit
  else if p.rdState = .idle then bare .notReady
  else ⟨.ok, p.rdPtr, p.rdLen⟩

/-! ## The instance -/

/-- The Pipe with the given number (R35). -/
def getPipe (s : State) : PipeId → Pipe
  | .p0 => s.p0
  | .p1 => s.p1

/-- The state with one Pipe replaced. -/
def setPipe (s : State) (id : PipeId) (p : Pipe) : State :=
  match id with
  | .p0 => { s with p0 := p }
  | .p1 => { s with p1 := p }

/-- The platform address of a byte of a ring's storage: `BUF_BASE + ptr` (R26, R61). -/
def platformAddress (id : PipeId) (off : Nat) : Nat := Config.bufBase id + off

/-- Return a response at the port of the command (R90, R96). -/
def answer (s : State) (r : Resp) : State := { s with resp := some (s.cur, respWord r) }

/-- Emit an output event (R224). -/
def emit (s : State) (e : Staged) : State := { s with events := s.events ++ [e] }

/-- `STAGE_W` on a Pipe with its output event: one `STAGED` if it returns `OK`, nothing otherwise (R184, R224). -/
def stageWOn (id : PipeId) (maxSize : Nat) (s : State) : State × Resp :=
  let (p, a) := pipeStageW s.cfg maxSize (getPipe s id)
  if a.status = .ok then (emit (setPipe s id p) ⟨id, .w, a.ptr, a.len⟩, a) else (setPipe s id p, a)

/-- `STAGE_R` on a Pipe with its output event (R187, R224). -/
def stageROn (id : PipeId) (s : State) : Except Fault (State × Resp) :=
  match pipeStageR s.cfg (Config.freeByte id) (getPipe s id) with
  | .error e => .error e
  | .ok (p, a) =>
    if a.status = .ok then .ok (emit (setPipe s id p) ⟨id, .r, a.ptr, a.len⟩, a)
    else .ok (setPipe s id p, a)

/-- One more success, if the attempt returned `OK` (R223). -/
def countOk (count : Nat) (a : Resp) : Nat := if a.status = .ok then count + 1 else count

/-- One of the four steps of `IDLE_STEP`: make the attempt `k`, after `count` successes, and go on to the next; the
last one returns the number of attempts that returned `OK` (R70, R223). -/
def idleAttempt (k : Attempt) (count : Nat) (s : State) : Except Fault State :=
  match k with
  | .p0w =>
    let (s₁, a) := stageWOn .p0 s.cfg.stageMax s
    .ok { s₁ with idle := some ⟨.p0r, countOk count a⟩ }
  | .p0r =>
    match stageROn .p0 s with
    | .error e => .error e
    | .ok (s₁, a) => .ok { s₁ with idle := some ⟨.p1w, countOk count a⟩ }
  | .p1w =>
    let (s₁, a) := stageWOn .p1 s.cfg.stageMax s
    .ok { s₁ with idle := some ⟨.p1r, countOk count a⟩ }
  | .p1r =>
    match stageROn .p1 s with
    | .error e => .error e
    | .ok (s₁, a) => .ok (answer { s₁ with idle := none } ⟨.ok, 0, countOk count a⟩)

/-! ## Ports (R90) -/

/-- The kind of a port. -/
def portKind : Port → PortKind
  | .producer _ => .producer
  | .consumer _ => .consumer
  | .pipe _ _ => .pipe
  | .dp => .dp

/-- The ports that an instance of a level has (R90). -/
def hasPort (l : Level) (p : Port) : Bool :=
  match l, p with
  | .ring, .producer _ | .ring, .consumer _ => true
  | .framed, .producer _ | .framed, .consumer _ => true
  | .pipe, .pipe .p0 _ => true
  | .datapipes, .pipe _ _ | .datapipes, .dp => true
  | _, _ => false

/-- A command of the ring or framed layer: at a port of kind `k` of an instance of level `l` it acts on the
instance's ring and answers; at any other port it answers `ILLEGAL_CMD` and changes nothing (R90, R99). -/
def onRing (l : Level) (k : PortKind) (s : State) (op : Ring → Except Fault (Ring × Resp)) :
    Host.Outcome State Fault Refusal :=
  if s.cfg.level = l ∧ portKind s.cur = k then
    match op s.p0.ring with
    | .ok (r, a) => .next (answer { s with p0 := { s.p0 with ring := r } } a)
    | .error e => .fault e
  else .next (answer s (bare .illegalCmd))

/-- An operation's result on one Pipe, as a result on the instance. -/
def onThisPipe (s : State) (id : PipeId) (x : Pipe × Resp) : State × Resp := (setPipe s id x.1, x.2)

/-- The same for an operation that may raise a fault. -/
def onThisPipe? (s : State) (id : PipeId) : Except Fault (Pipe × Resp) → Except Fault (State × Resp)
  | .ok x => .ok (onThisPipe s id x)
  | .error e => .error e

/-- A Pipe command: at a port of a Pipe that the instance has, it acts on that Pipe, with the port's context, and
answers; elsewhere `ILLEGAL_CMD` (R90, R99). -/
def onPipe (s : State) (op : PipeId → Ctx → Except Fault (State × Resp)) :
    Host.Outcome State Fault Refusal :=
  match s.cur with
  | .pipe id c =>
    if hasPort s.cfg.level s.cur then
      match op id c with
      | .ok (t, a) => .next (answer t a)
      | .error e => .fault e
    else .next (answer s (bare .illegalCmd))
  | _ => .next (answer s (bare .illegalCmd))

/-- A DataPipes command: at the `DP` port of a `DATAPIPES` instance; elsewhere `ILLEGAL_CMD` (R90, R99). -/
def onDp (s : State) (op : Except Fault State) : Host.Outcome State Fault Refusal :=
  if s.cfg.level = .datapipes ∧ s.cur = .dp then
    match op with
    | .ok t => .next t
    | .error e => .fault e
  else .next (answer s (bare .illegalCmd))

end Sys2Proof.Machine
end

