-- ==== Sys2Proof/Machine/Agents.lean ====
section
/-! DEFINITION. What an agent's step does apart from running a command: who may step (R242), who drives a port
(R77), who may access which byte (R64 to R67, R69), how a command reaches the block (R90), and how the host places
one command (log 13). -/

namespace Sys2Proof.Machine

/-! ## Who may step (R241, R242) -/

/-- The context behind a port. -/
def portCtx : Port → Ctx
  | .producer c => c
  | .consumer c => c
  | .pipe _ c => c
  | .dp => .lp

/-- The context that takes an action's step; none for a DMA engine, the glue and the interrupt mechanism. -/
def actionCtx? : Action → Option Ctx
  | .cmd p _ => some (portCtx p)
  | .bufWrite (.port p) _ _ => some (portCtx p)
  | .bufRead (.port p) _ => some (portCtx p)
  | .resume => some .lp
  | _ => none

/-- The action is the way on for a loop that is inside its `IDLE_STEP`: the next attempt, or the `DP` port's next
command, which waits for the attempts (log 6). -/
def continuesLoop : Action → Bool
  | .resume => true
  | .cmd .dp _ => true
  | _ => false

/-- `SCHED = ANY`: any agent may step. `SINGLE_CORE_PRIORITY`: while a handler is active no `LP` step occurs, an `HP`
step belongs to an active handler, and the one low-priority loop, which its own tier does not preempt, does nothing
else while it is inside an `IDLE_STEP`; DMA engines step at any time (R241, R242; log 10). -/
def ctxMayStep (s : State) (a : Action) (c : Ctx) : Bool :=
  match s.cfg.sched, c with
  | .any, _ => true
  | .singleCorePriority, .lp => s.handlers == 0 && (s.idle.isNone || continuesLoop a)
  | .singleCorePriority, .hp => s.handlers != 0

/-- Whether the action's step is one that the schedule may contain here. -/
def actionEnabled (s : State) (a : Action) : Bool :=
  (match actionCtx? a with
    | some c => ctxMayStep s a c
    | none => true)
  && (match a with
    | .resume => s.idle.isSome
    | .handlerEnd => s.handlers != 0
    | .takeEvent => !s.events.isEmpty
    | _ => true)

/-! ## Who may touch which byte (R64 to R67) -/

/-- `off` lies in the region of `len` bytes at `start`. -/
def inRegion (start len off : Nat) : Bool := start ≤ off && off < start + len

/-- The producer's view of its write grant: all of it at `RING` level, the payload part at `FRAMED` level
(R64, R154). -/
def inWriteView (l : Level) (r : Ring) (off : Nat) : Bool :=
  match l, r.wip, r.wg, r.fw with
  | .ring, true, some g, _ => inRegion g.start g.len off
  | .framed, true, some g, some f => inRegion (g.start + f.hdrLen) (g.len - f.hdrLen) off
  | _, _, _, _ => false

/-- The consumer's view of its read grant: all of it at `RING` level, the payload part at `FRAMED` level
(R64, R162). -/
def inReadView (l : Level) (r : Ring) (off : Nat) : Bool :=
  match l, r.rip, r.rg, r.fr with
  | .ring, true, some g, _ => inRegion g.start g.len off
  | .framed, true, some g, some f => inRegion (g.start + f.hdrLen) (g.len - f.hdrLen) off
  | _, _, _, _ => false

/-- The claimed write region of a Pipe (R66). -/
def inBusyWrite (p : Pipe) (off : Nat) : Bool :=
  p.wrState == .grantBusy && inRegion p.wrPtr p.wrLen off

/-- The claimed read region of a Pipe (R66). -/
def inBusyRead (p : Pipe) (off : Nat) : Bool :=
  p.rdState == .grantBusy && inRegion p.rdPtr p.rdLen off

/-- Whether the instance has this Pipe (R90). -/
def hasPipe (l : Level) (id : PipeId) : Bool := hasPort l (.pipe id .lp)

/-- Whether the agent may write the byte at `off` (R64, R66). The offset must exist (R63). -/
def mayWrite (s : State) (a : Agent) (off : Nat) : Bool :=
  decide (off < s.cfg.n) && match a with
    | .port (.producer c) => s.prodBy == some c && inWriteView s.cfg.level s.p0.ring off
    | .port (.pipe id .hp) =>
      hasPipe s.cfg.level id && (getPipe s id).wrClaim == some .hp && inBusyWrite (getPipe s id) off
    | .dma id .w => hasPipe s.cfg.level id && inBusyWrite (getPipe s id) off
    | _ => false

/-- Whether the agent may read the byte at `off` (R64, R66). The offset must exist (R63). -/
def mayRead (s : State) (a : Agent) (off : Nat) : Bool :=
  decide (off < s.cfg.n) && match a with
    | .port (.producer c) => s.prodBy == some c && inWriteView s.cfg.level s.p0.ring off
    | .port (.consumer c) => s.consBy == some c && inReadView s.cfg.level s.p0.ring off
    | .port (.pipe id .hp) =>
      hasPipe s.cfg.level id &&
        (((getPipe s id).wrClaim == some .hp && inBusyWrite (getPipe s id) off) ||
         ((getPipe s id).rdClaim == some .hp && inBusyRead (getPipe s id) off))
    | .dma id .w => hasPipe s.cfg.level id && inBusyWrite (getPipe s id) off
    | .dma id .r => hasPipe s.cfg.level id && inBusyRead (getPipe s id) off
    | _ => false

/-- The Pipe whose ring an agent accesses (log 4). -/
def agentPipe : Agent → PipeId
  | .port (.pipe id _) => id
  | .dma id _ => id
  | _ => .p0

/-- The state with one Pipe's ring replaced. -/
def setRing (s : State) (id : PipeId) (r : Ring) : State :=
  setPipe s id { getPipe s id with ring := r }

/-- `BufWrite(agent, off, v)` (R69), checked against R64 and R66; a stray access is a fault and changes nothing
(R65). -/
def bufWrite (a : Agent) (off : Nat) (v : Byte) (s : State) : Host.Outcome State Fault Refusal :=
  if mayWrite s a off then
    let r := (getPipe s (agentPipe a)).ring
    .next (setRing s (agentPipe a) { r with buf := memSet r.buf off v })
  else .fault .accessOutsideGrant

/-- `BufRead(agent, off)` (R69), checked against R64 and R66; it returns the byte, or a draw if no agent has written
it since reset (R62). -/
def bufRead (a : Agent) (off : Nat) (s : State) : Host.Outcome State Fault Refusal :=
  if mayRead s a off then
    let id := agentPipe a
    let (r, v) := readByte (Config.freeByte id) off (getPipe s id).ring
    .next { setRing s id r with rdata := some ⟨a, off, v⟩ }
  else .fault .accessOutsideGrant

/-! ## How a command reaches the block -/

/-- The result of taking one action from the schedule: a command to run, or a finished step. -/
inductive Fetched where
  | run (i : Instr) (s : State)
  | done (o : Host.Outcome State Fault Refusal)

/-- The state at the start of a step: the action is taken from the schedule, and the outputs of the step before are
gone (log 7). -/
def startStep (s : State) (rest : List Action) : State :=
  { s with inputs := rest, resp := none, rdata := none }

/-- A port already driven by another context (R77; log 11). -/
def drivenByOther (owner : Option Ctx) (c : Ctx) : Bool := owner.isSome && owner != some c

/-- A word at a port is decoded: a word of no row is answered `ILLEGAL_CMD` (R99), any other is a command to run. -/
def deliver (w : Word) (s : State) : Fetched :=
  match decode w with
  | .ok i => .run i s
  | .error _ => .done (.next (answer s (bare .illegalCmd)))

/-- A command word arrives at a port: the port remembers who drives it (R77), and the word is delivered. -/
def acceptWord (p : Port) (w : Word) (s : State) : Fetched :=
  match p with
  | .producer c =>
    if drivenByOther s.prodBy c then .done (.fault .secondProducer)
    else deliver w { s with cur := p, prodBy := some c }
  | .consumer c =>
    if drivenByOther s.consBy c then .done (.fault .secondConsumer)
    else deliver w { s with cur := p, consBy := some c }
  | .pipe _ _ => deliver w { s with cur := p }
  | .dp => deliver w { s with cur := p }

/-- A step of an `IDLE_STEP` attempt as an outcome. -/
def idleOutcome (x : Except Fault State) : Host.Outcome State Fault Refusal :=
  match x with
  | .ok t => .next t
  | .error e => .fault e

/-- The next step of the running `IDLE_STEP`, with the schedule left at `rest` (R223). -/
def resumeIdle (run : IdleRun) (rest : List Action) (s : State) : Host.Outcome State Fault Refusal :=
  idleOutcome (idleAttempt run.todo run.count { startStep s rest with cur := .dp })

/-- A command arrives at a port. The `DP` port accepts no command while an `IDLE_STEP` runs (R90: one command at a
time), so such a command waits, and the low-priority loop takes the next of the four steps instead (log 6). -/
def fetchCommand (p : Port) (w : Word) (rest : List Action) (s : State) : Fetched :=
  if hasPort s.cfg.level p then
    match p, s.idle with
    | .dp, some run => .done (resumeIdle run s.inputs s)
    | _, _ => acceptWord p w (startStep s rest)
  else .done (.refused .noSuchPort)

/-- Take the next action of the schedule (R238, R242). With nothing scheduled no agent steps and the block, which
executes nothing of its own (R14, R260), stays as it is (log 9). -/
def fetch (s : State) : Fetched :=
  match s.inputs with
  | [] => .done (.next s)
  | a :: rest =>
    if actionEnabled s a then
      match a with
      | .cmd p w => fetchCommand p w rest s
      | .bufWrite g off v => .done (bufWrite g off v (startStep s rest))
      | .bufRead g off => .done (bufRead g off (startStep s rest))
      | .resume =>
        match s.idle with
        | some run => .done (resumeIdle run rest s)
        | none => .done (.refused .stepNotEnabled)
      | .handlerStart => .done (.next { startStep s rest with handlers := s.handlers + 1 })
      | .handlerEnd => .done (.next { startStep s rest with handlers := s.handlers - 1 })
      | .takeEvent => .done (.next { startStep s rest with events := s.events.tail })
    else .done (.refused .stepNotEnabled)

/-! ## How the host places one command (log 13) -/

/-- The level and the kind of port whose row lists the command; for the Pipe commands the level is `PIPE` or
`DATAPIPES` (R90). -/
def homeOf : Instr → Level × PortKind
  | .grantW _ | .commit _ => (.ring, .producer)
  | .read | .release _ => (.ring, .consumer)
  | .fgrant _ | .fcommit _ | .ftoCommit _ | .fdropW => (.framed, .producer)
  | .fread | .frelease | .fautoRelease _ | .fdropR => (.framed, .consumer)
  | .init | .stageW _ | .stageR | .claimW | .claimR | .finalizeW _ | .finalizeR | .abortW | .abortR
  | .queryW | .queryR => (.pipe, .pipe)
  | .dpInit | .idleStep => (.datapipes, .dp)

/-- The level of an instance that accepts the command: the present one if it does, else the command's own (R90). -/
def levelFor (l : Level) (i : Instr) : Level :=
  if (homeOf i).1 = .pipe ∧ l = .datapipes then l else (homeOf i).1

/-- The context that may step now under either discipline. -/
def steppingCtx (s : State) : Ctx := if s.handlers = 0 then .lp else .hp

/-- The command word at the head of the schedule, at a port that accepts it, driven by a context that may step. -/
def scheduleWord (p : Port) (w : Word) (s : State) : State := { s with inputs := .cmd p w :: s.inputs }

/-- Place one command word so that the very next step runs it (log 13): the instance is one of the level that
accepts it; the word stands first in the schedule at such a port; the port is free and driven by the context that
issues it; no `IDLE_STEP` is running. A word of no row goes to a port of the present instance. -/
def placeWord (w : Word) (s : State) : State :=
  let place (l : Level) (k : PortKind) : State :=
    let s := { s with cfg := { s.cfg with level := l }, idle := none }
    let c := steppingCtx s
    match k with
    | .producer => scheduleWord (.producer c) w { s with prodBy := some c }
    | .consumer => scheduleWord (.consumer c) w { s with consBy := some c }
    | .pipe => scheduleWord (.pipe .p0 c) w s
    | .dp => scheduleWord .dp w { s with handlers := 0 }
  match decode w with
  | .ok i => place (levelFor s.cfg.level i) (homeOf i).2
  | .error _ =>
    match s.cfg.level with
    | .ring | .framed => place s.cfg.level .producer
    | .pipe | .datapipes => place s.cfg.level .pipe

end Sys2Proof.Machine
end

