-- ==== Sys2Proof/Machine/DataPipesFamily.lean ====
section
/-! DEFINITION. The meanings of the DATAPIPES commands (43_datapipes.md). -/

namespace Sys2Proof.Machine

/-- `DP_INIT` (R221): `INIT` on `P0`, then on `P1`; `OK` if both returned `OK`, else `NOT_INIT`. -/
def execDpInit (s : State) : Host.Outcome State Fault Refusal :=
  onDp s
    (let (q0, a0) := pipeInit s.cfg s.p0
     let (q1, a1) := pipeInit s.cfg s.p1
     .ok (answer { s with p0 := q0, p1 := q1 }
       (if a0.status = .ok ∧ a1.status = .ok then bare .ok else bare .notInit)))

/-- `IDLE_STEP` (R223): `NOT_INIT` with no attempt made unless both Pipes are initialised; else the first of its
four steps, `P0.STAGE_W(STAGE_MAX)`. The other three are the low-priority loop's next steps (R70), and the last
one returns the response (log 6). -/
def execIdleStep (s : State) : Host.Outcome State Fault Refusal :=
  onDp s
    (if s.p0.inited ∧ s.p1.inited then idleAttempt .p0w 0 s
     else .ok (answer s (bare .notInit)))

end Sys2Proof.Machine
end

