-- ==== Sys2Proof/Machine/FramedFamily.lean ====
section
/-! DEFINITION. The meanings of the FRAMED commands (41_framed.md). -/

namespace Sys2Proof.Machine

/-- `FGRANT max_sz` at the producer port (R152 to R154). -/
def execFgrant (maxSz : Nat) (s : State) : Host.Outcome State Fault Refusal :=
  onRing .framed .producer s (fun r => .ok (frameGrant s.cfg maxSz r))

/-- `FCOMMIT used` at the producer port (R155 to R157). -/
def execFcommit (used : Nat) (s : State) : Host.Outcome State Fault Refusal :=
  onRing .framed .producer s (fun r => frameCommit s.cfg used r)

/-- `FTO_COMMIT amt` at the producer port (R158). -/
def execFtoCommit (amt : Nat) (s : State) : Host.Outcome State Fault Refusal :=
  onRing .framed .producer s (fun r => .ok (frameToCommit amt r))

/-- `FDROP_W` at the producer port (R159). -/
def execFdropW (s : State) : Host.Outcome State Fault Refusal :=
  onRing .framed .producer s (fun r => frameDropW s.cfg r)

/-- `FREAD` at the consumer port (R160 to R163). -/
def execFread (s : State) : Host.Outcome State Fault Refusal :=
  onRing .framed .consumer s (fun r => frameRead s.cfg (Config.freeByte .p0) r)

/-- `FRELEASE` at the consumer port (R164). -/
def execFrelease (s : State) : Host.Outcome State Fault Refusal :=
  onRing .framed .consumer s (fun r => .ok (frameRelease r))

/-- `FAUTO_RELEASE b` at the consumer port (R165). -/
def execFautoRelease (b : Bool) (s : State) : Host.Outcome State Fault Refusal :=
  onRing .framed .consumer s (fun r => .ok (frameAutoRelease b r))

/-- `FDROP_R` at the consumer port (R166). -/
def execFdropR (s : State) : Host.Outcome State Fault Refusal :=
  onRing .framed .consumer s (fun r => .ok (frameDropR r))

end Sys2Proof.Machine
end

