-- ==== Sys2Proof/Machine/PipeFamily.lean ====
section
/-! DEFINITION. The meanings of the PIPE commands (42_pipe.md). The ports do not check the issuing context
(R181): every command is accepted at the `LP` and the `HP` port of its Pipe. -/

namespace Sys2Proof.Machine

/-- `INIT` (R182, R183). -/
def execInit (s : State) : Host.Outcome State Fault Refusal :=
  onPipe s (fun id _ => .ok (onThisPipe s id (pipeInit s.cfg (getPipe s id))))

/-- `STAGE_W max_size` (R184 to R186), with its output event (R224). -/
def execStageW (maxSize : Nat) (s : State) : Host.Outcome State Fault Refusal :=
  onPipe s (fun id _ => .ok (stageWOn id maxSize s))

/-- `STAGE_R` (R186 to R188), with its output event (R224). -/
def execStageR (s : State) : Host.Outcome State Fault Refusal :=
  onPipe s (fun id _ => stageROn id s)

/-- `CLAIM_W` (R189, R191). -/
def execClaimW (s : State) : Host.Outcome State Fault Refusal :=
  onPipe s (fun id c => .ok (onThisPipe s id (pipeClaimW c (getPipe s id))))

/-- `CLAIM_R` (R190, R191). -/
def execClaimR (s : State) : Host.Outcome State Fault Refusal :=
  onPipe s (fun id c => .ok (onThisPipe s id (pipeClaimR c (getPipe s id))))

/-- `FINALIZE_W committed_len` (R192, R193, R195). -/
def execFinalizeW (committedLen : Nat) (s : State) : Host.Outcome State Fault Refusal :=
  onPipe s (fun id _ => onThisPipe? s id (pipeFinalizeW s.cfg committedLen (getPipe s id)))

/-- `FINALIZE_R` (R194, R195). -/
def execFinalizeR (s : State) : Host.Outcome State Fault Refusal :=
  onPipe s (fun id _ => .ok (onThisPipe s id (pipeFinalizeR (getPipe s id))))

/-- `ABORT_W` (R196, R198, R204). -/
def execAbortW (s : State) : Host.Outcome State Fault Refusal :=
  onPipe s (fun id _ => onThisPipe? s id (pipeAbortW s.cfg (getPipe s id)))

/-- `ABORT_R` (R197, R198, R204). -/
def execAbortR (s : State) : Host.Outcome State Fault Refusal :=
  onPipe s (fun id _ => .ok (onThisPipe s id (pipeAbortR (getPipe s id))))

/-- `QUERY_W` (R199). -/
def execQueryW (s : State) : Host.Outcome State Fault Refusal :=
  onPipe s (fun id _ => .ok (s, pipeQueryW (getPipe s id)))

/-- `QUERY_R` (R199). -/
def execQueryR (s : State) : Host.Outcome State Fault Refusal :=
  onPipe s (fun id _ => .ok (s, pipeQueryR (getPipe s id)))

end Sys2Proof.Machine
end

