-- ==== Sys2Proof/Machine/RingFamily.lean ====
section
/-! DEFINITION. The meanings of the RING commands (40_ring.md). -/

namespace Sys2Proof.Machine

/-- `GRANT_W sz` at the producer port (R122 to R125). -/
def execGrantW (sz : Nat) (s : State) : Host.Outcome State Fault Refusal :=
  onRing .ring .producer s (fun r => .ok (ringGrantW s.cfg.n sz r))

/-- `COMMIT used` at the producer port (R126 to R130); `DROP_W` is `COMMIT 0` (R136). -/
def execCommit (used : Nat) (s : State) : Host.Outcome State Fault Refusal :=
  onRing .ring .producer s (fun r => .ok (ringCommit s.cfg.n used r))

/-- `READ` at the consumer port (R131 to R133). -/
def execRead (s : State) : Host.Outcome State Fault Refusal :=
  onRing .ring .consumer s (fun r => .ok (ringRead r))

/-- `RELEASE used` at the consumer port (R134, R135); `DROP_R` is `RELEASE 0` (R137). -/
def execRelease (used : Nat) (s : State) : Host.Outcome State Fault Refusal :=
  onRing .ring .consumer s (fun r => .ok (ringRelease used r))

end Sys2Proof.Machine
end

