-- ==== Sys2Proof/Machine/Dispatch.lean ====
section
/-! DEFINITION. One arm per command: the meaning that the spec gives it. -/

namespace Sys2Proof.Machine

def exec (i : Instr) (s : State) : Host.Outcome State Fault Refusal :=
  match i with
  | .grantW sz => Sys2Proof.Machine.execGrantW sz s
  | .commit used => Sys2Proof.Machine.execCommit used s
  | .read => Sys2Proof.Machine.execRead s
  | .release used => Sys2Proof.Machine.execRelease used s
  | .fgrant maxSz => Sys2Proof.Machine.execFgrant maxSz s
  | .fcommit used => Sys2Proof.Machine.execFcommit used s
  | .ftoCommit amt => Sys2Proof.Machine.execFtoCommit amt s
  | .fdropW => Sys2Proof.Machine.execFdropW s
  | .fread => Sys2Proof.Machine.execFread s
  | .frelease => Sys2Proof.Machine.execFrelease s
  | .fautoRelease b => Sys2Proof.Machine.execFautoRelease b s
  | .fdropR => Sys2Proof.Machine.execFdropR s
  | .init => Sys2Proof.Machine.execInit s
  | .stageW maxSize => Sys2Proof.Machine.execStageW maxSize s
  | .stageR => Sys2Proof.Machine.execStageR s
  | .claimW => Sys2Proof.Machine.execClaimW s
  | .claimR => Sys2Proof.Machine.execClaimR s
  | .finalizeW committedLen => Sys2Proof.Machine.execFinalizeW committedLen s
  | .finalizeR => Sys2Proof.Machine.execFinalizeR s
  | .abortW => Sys2Proof.Machine.execAbortW s
  | .abortR => Sys2Proof.Machine.execAbortR s
  | .queryW => Sys2Proof.Machine.execQueryW s
  | .queryR => Sys2Proof.Machine.execQueryR s
  | .dpInit => Sys2Proof.Machine.execDpInit s
  | .idleStep => Sys2Proof.Machine.execIdleStep s

end Sys2Proof.Machine
end

