-- ==== Sys2Proof/Machine/Step.lean ====
section
/-! DEFINITION. One step of the instance: the next action of the schedule (R238, R242), a command being run by its
meaning; and the host's way to place one command. -/

namespace Sys2Proof.Machine

/-- One step (R12, R70). -/
def step (s : State) : Host.Outcome State Fault Refusal :=
  match fetch s with
  | .run i t => exec i t
  | .done o => o

/-- `s` with the command whose lowest `nbits` bits are `w`'s placed where the next step takes its command from
(log 13). -/
def State.withFetchWord (s : State) (nbits w : Nat) : State :=
  placeWord (BitVec.ofNat 32 (w % 2 ^ nbits)) s

end Sys2Proof.Machine
end

