-- ==== Sys2Proof/Safety.lean ====
section
/-! DEFINITION. The terms claims use: what the rules call unread data, frames and a legal state (R24, R42, R33),
which commands a port accepts (R90), the rows of the opcode map (R100), and runs of commands. -/

namespace Sys2Proof.Machine

/-! ## Encodings and ports -/

/-- The rows of R100 as `(mask, match)`, transcribed from the table. -/
def opcodeRows : List (Word × Word) :=
  [(0xFF000000, 0x10000000), (0xFF000000, 0x11000000), (0xFFFFFFFF, 0x14000000),
   (0xFF000000, 0x15000000), (0xFF000000, 0x20000000), (0xFF000000, 0x21000000),
   (0xFF000000, 0x22000000), (0xFFFFFFFF, 0x23000000), (0xFFFFFFFF, 0x24000000),
   (0xFFFFFFFF, 0x25000000), (0xFFFFFFFE, 0x26000000), (0xFFFFFFFF, 0x27000000),
   (0xFFFFFFFF, 0x30000000), (0xFF000000, 0x31000000), (0xFFFFFFFF, 0x32000000),
   (0xFFFFFFFF, 0x33000000), (0xFFFFFFFF, 0x34000000), (0xFF000000, 0x35000000),
   (0xFFFFFFFF, 0x36000000), (0xFFFFFFFF, 0x37000000), (0xFFFFFFFF, 0x38000000),
   (0xFFFFFFFF, 0x39000000), (0xFFFFFFFF, 0x3A000000), (0xFFFFFFFF, 0x40000000),
   (0xFFFFFFFF, 0x41000000)]

/-- The word matches a row of R100. -/
def MatchesRow (w : Word) : Prop := ∃ row ∈ opcodeRows, w &&& row.1 = row.2

/-- The opcode names a format `C` command whose operand is `zext(imm24)` (R91, R93). -/
def EncodedC (opcode : Nat) (command : Nat → Instr) : Prop :=
  ∀ w : Word, opcodeField w = opcode → decode w = .ok (command (imm24Field w))

/-- The opcode names a format `Z` command: bits 23:0 must be zero (R92). -/
def EncodedZ (opcode : Nat) (command : Instr) : Prop :=
  ∀ w : Word, opcodeField w = opcode →
    decode w = if imm24Field w = 0 then .ok command else .error .operandNotZero

/-- The commands of a Pipe's ports (R90). -/
def isPipeCommand : Instr → Bool
  | .init | .stageW _ | .stageR | .claimW | .claimR | .finalizeW _ | .finalizeR | .abortW | .abortR
  | .queryW | .queryR => true
  | _ => false

/-- The table of R90: which command is in the row of which port of an instance of which level. -/
def acceptedAt (l : Level) (p : Port) (i : Instr) : Bool :=
  match l, p, i with
  | .ring, .producer _, .grantW _ | .ring, .producer _, .commit _ => true
  | .ring, .consumer _, .read | .ring, .consumer _, .release _ => true
  | .framed, .producer _, .fgrant _ | .framed, .producer _, .fcommit _
  | .framed, .producer _, .ftoCommit _ | .framed, .producer _, .fdropW => true
  | .framed, .consumer _, .fread | .framed, .consumer _, .frelease
  | .framed, .consumer _, .fautoRelease _ | .framed, .consumer _, .fdropR => true
  | .pipe, .pipe .p0 _, i => isPipeCommand i
  | .datapipes, .pipe _ _, i => isPipeCommand i
  | .datapipes, .dp, .dpInit | .datapipes, .dp, .idleStep => true
  | _, _, _ => false

/-- The state in which a command that arrives at a port is run: the action is taken from the schedule, the outputs
of the step before are gone, the port is known, and it remembers who drives it. -/
def arrived (p : Port) (rest : List Action) (s : State) : State :=
  { s with
    inputs := rest
    resp := none
    rdata := none
    cur := p
    prodBy := match p with
      | .producer c => some c
      | _ => s.prodBy
    consBy := match p with
      | .consumer c => some c
      | _ => s.consBy }

/-- The command can be taken at its port now: the instance has the port, the schedule may contain the step, no other
context drives the port, and the `DP` port is not busy with an `IDLE_STEP`. -/
def canArrive (p : Port) (w : Word) (s : State) : Prop :=
  hasPort s.cfg.level p = true ∧ actionEnabled s (.cmd p w) = true ∧
  (p = .dp → s.idle = none) ∧
  (∀ c, p = .producer c → s.prodBy = none ∨ s.prodBy = some c) ∧
  (∀ c, p = .consumer c → s.consBy = none ∨ s.consBy = some c)

/-- At the producer port of an instance of level `l`. -/
def AtProducer (l : Level) (s : State) : Prop := s.cfg.level = l ∧ ∃ c, s.cur = .producer c

/-- At the consumer port of an instance of level `l`. -/
def AtConsumer (l : Level) (s : State) : Prop := s.cfg.level = l ∧ ∃ c, s.cur = .consumer c

/-- At the port that Pipe `id` gives to context `c`, in an instance that has that Pipe: `P0` alone at `PIPE` level, both
at `DATAPIPES` level (R90). -/
def AtPipe (id : PipeId) (c : Ctx) (s : State) : Prop :=
  s.cur = .pipe id c ∧ (s.cfg.level = .datapipes ∨ (s.cfg.level = .pipe ∧ id = .p0))

/-- At the `DP` port of a `DATAPIPES` instance. -/
def AtDp (s : State) : Prop := s.cfg.level = .datapipes ∧ s.cur = .dp

/-- The context takes the action's step: its command, its byte access, or the loop's next attempt (R13, R240). -/
def TakenBy (c : Ctx) (a : Action) : Prop :=
  (a = .resume ∧ c = .lp) ∨ (∃ p w, a = .cmd p w ∧ portCtx p = c) ∨
  (∃ p off v, a = .bufWrite (.port p) off v ∧ portCtx p = c) ∨
  (∃ p off, a = .bufRead (.port p) off ∧ portCtx p = c)

/-- The four attempts of `IDLE_STEP` as commands: the Pipe and the command of each (R223). -/
def attemptCommand (stageMax : Nat) : Attempt → PipeId × Instr
  | .p0w => (.p0, .stageW stageMax)
  | .p0r => (.p0, .stageR)
  | .p1w => (.p1, .stageW stageMax)
  | .p1r => (.p1, .stageR)

/-- The order of the attempts (R223). -/
def nextAttempt : Attempt → Option Attempt
  | .p0w => some .p0r
  | .p0r => some .p1w
  | .p1w => some .p1r
  | .p1r => none

/-- The state in which an `IDLE_STEP` stands, once its attempt `k` has come out as `u` and `count` attempts have
returned `OK`: it goes on to the next one, or it answers and is over (R223). -/
def attemptDone (k : Attempt) (count : Nat) (u : State) : State :=
  match nextAttempt k with
  | some k' => { u with cur := .dp, resp := none, idle := some ⟨k', count⟩ }
  | none => { u with cur := .dp, resp := some (.dp, respWord ⟨.ok, 0, count⟩), idle := none }

/-! ## Answers -/

/-- The state in which the ring of a `RING` or `FRAMED` instance has become `r`, the response is `a`, and nothing else
has changed. -/
def ringNext (s : State) (r : Ring) (a : Resp) : State :=
  { s with p0 := { s.p0 with ring := r }, resp := some (s.cur, respWord a) }

/-- The state in which Pipe `id` has become `p`, the response is `a`, and nothing else has changed. -/
def pipeNext (s : State) (id : PipeId) (p : Pipe) (a : Resp) : State :=
  match id with
  | .p0 => { s with p0 := p, resp := some (s.cur, respWord a) }
  | .p1 => { s with p1 := p, resp := some (s.cur, respWord a) }

/-- The command answers at its port with the given response and changes nothing else. -/
def onlyAnswers (i : Instr) (s : State) (r : Resp) : Prop :=
  exec i s = .next { s with resp := some (s.cur, respWord r) }

/-- The status field, bits 55:48, of a response word (R96). -/
def respStatus (w : RespWord) : BitVec 8 := w.extractLsb' 48 8

/-! ## Unread data (R24) -/

/-- The offsets of the unread bytes, oldest first (R24). -/
def unreadOffsets (r : Ring) : List Nat :=
  if r.write < r.read then List.range' r.read (r.last - r.read) ++ List.range' 0 r.write
  else List.range' r.read (r.write - r.read)

/-- The number of unread bytes (R24). -/
def avail (r : Ring) : Nat :=
  if r.write < r.read then (r.last - r.read) + r.write else r.write - r.read

/-- What the storage holds at the given offsets; `none` for a byte never written since reset. -/
def bytesAt (m : Memory) (offs : List Nat) : List (Option Byte) := offs.map (memGet? m)

/-- What the unread bytes hold, oldest first. -/
def unreadBytes (r : Ring) : List (Option Byte) := bytesAt r.buf (unreadOffsets r)

/-- Where a `READ` starts: at `read`, or at 0 once the upper data is exhausted (R131). -/
def readFrom (r : Ring) : Nat := if r.read = r.last ∧ r.write < r.read then 0 else r.read

/-- How many contiguous unread bytes a `READ` finds from there (R131). -/
def readLen (r : Ring) : Nat :=
  if r.write < readFrom r then r.last - readFrom r else r.write - readFrom r

/-- A write grant of `sz` bytes can be placed at `start` (R122, R123). -/
def Placed (cap sz : Nat) (r : Ring) (start : Nat) : Prop :=
  (r.write < r.read ∧ r.write + sz < r.read ∧ start = r.write) ∨
  (r.read ≤ r.write ∧ r.write + sz ≤ cap ∧ start = r.write) ∨
  (r.read ≤ r.write ∧ cap < r.write + sz ∧ sz < r.read ∧ start = 0)

/-- The marker after a commit has moved the write cursor to `new` (R126, R129). -/
def lastAfter (cap new : Nat) (r : Ring) : Nat :=
  if new < r.write then r.write else if r.last < new then cap else r.last

/-! ## Frames (R102) -/

/-- The header of size `h` for payload length `p` as one number, whose little-endian bytes are stored (R103, R105). -/
def headerWord (mode : HdrMode) (h p : Nat) : Nat :=
  match mode with
  | .fixed2 => p
  | .varint => (2 * p + 1) * 2 ^ (h - 1)

/-- The header of size `h` for payload length `p` stands at `a`, byte for byte, and outside it the storage is as in
`m` (R103, R105, R156). -/
def HeaderStored (mode : HdrMode) (h p a : Nat) (m m' : Memory) : Prop :=
  (∀ i, i < h → memGet? m' (a + i) = some (BitVec.ofNat 8 (headerWord mode h p / 256 ^ i))) ∧
  (∀ off, off < a ∨ a + h ≤ off → memGet? m' off = memGet? m off)

/-- The bytes written at `a .. a+n-1`, if all of them have been. -/
def writtenBytes (m : Memory) : Nat → Nat → Option (List Byte)
  | _, 0 => some []
  | a, n + 1 =>
    match memGet? m a, writtenBytes m (a + 1) n with
    | some b, some bs => some (b :: bs)
    | _, _ => none

/-- The header that stands at `a`: its size and the payload length (R103, R106, R107); none where a byte of it has not
been written, or the first byte is the reserved `0x00` of `VARINT` (R108). -/
def headerAt (mode : HdrMode) (m : Memory) (a : Nat) : Option (Nat × Nat) :=
  match memGet? m a with
  | none => none
  | some b0 =>
    if 8 < hdrSizeOf mode b0 then none
    else match writtenBytes m a (hdrSizeOf mode b0) with
      | none => none
      | some bs => some (hdrSizeOf mode b0, hdrValue mode bs)

/-- The storage from `a` up to `e` is a sequence of whole frames, whose payloads are `fs` in order (R102). -/
inductive Frames (mode : HdrMode) (m : Memory) : Nat → Nat → List (List (Option Byte)) → Prop where
  | done (a : Nat) : Frames mode m a a []
  | frame {a e h p : Nat} {fs : List (List (Option Byte))} :
      headerAt mode m a = some (h, p) → a + h + p ≤ e → Frames mode m (a + h + p) e fs →
      Frames mode m a e (bytesAt m (List.range' (a + h) p) :: fs)

/-- The unread data of a ring is the frames whose payloads are `fs`, oldest first; no frame is split (R24, R162). -/
def UnreadFrames (mode : HdrMode) (r : Ring) (fs : List (List (Option Byte))) : Prop :=
  if r.write < r.read then
    ∃ f₁ f₂, fs = f₁ ++ f₂ ∧ Frames mode r.buf r.read r.last f₁ ∧ Frames mode r.buf 0 r.write f₂
  else Frames mode r.buf r.read r.write fs

/-- A header of size `h` can carry the payload length `p` (R103, R104). -/
def HeaderCarries (mode : HdrMode) (h p : Nat) : Prop :=
  match mode with
  | .fixed2 => h = 2 ∧ p ≤ 65535
  | .varint => 1 ≤ h ∧ h ≤ 8 ∧ p < 2 ^ (7 * h)

/-! ## Legal states -/

/-- The invariants of a ring between commands (R42), with the canonical form of its storage (R60). -/
structure RingInv (n : Nat) (r : Ring) : Prop where
  cursors_le : r.read ≤ n ∧ r.write ≤ n ∧ r.last ≤ n ∧ r.reserve ≤ n
  inverted_ok : r.write < r.read → r.read ≤ r.last ∧ 1 ≤ r.write
  full_last : r.write = n → r.last = n
  no_write_grant : r.wip = false → r.wg = none ∧ r.reserve = r.write
  write_grant : r.wip = true → ∃ g, r.wg = some g ∧ r.reserve = g.start + g.len ∧
    ((g.start = r.write ∧ (r.write < r.read → r.reserve < r.read)) ∨
     (g.start = 0 ∧ r.read ≤ r.write ∧ r.reserve < r.read))
  no_read_grant : r.rip = false → r.rg = none
  read_grant : r.rip = true → ∃ g, r.rg = some g ∧ g.start = r.read ∧ 1 ≤ g.len ∧
    (r.write < r.read → g.start + g.len ≤ r.last) ∧ (r.read ≤ r.write → g.start + g.len ≤ r.write)
  storage_wf : r.buf.wf
  storage_in : ∀ off, n ≤ off → memGet? r.buf off = none

/-- The invariants of a framed ring: the unread data is whole frames, the framed-layer fields are valid exactly while
the flag is set and the header chosen at grant time can carry every payload length of the grant (R28, R151, R156, R162,
R163). -/
structure FramedInv (mode : HdrMode) (r : Ring) : Prop where
  unread_frames : ∃ fs, UnreadFrames mode r fs
  no_frame_write : r.wip = false → r.fw = none
  frame_write : r.wip = true → ∃ g f, r.wg = some g ∧ r.fw = some f ∧ f.hdrLen ≤ g.len ∧
    HeaderCarries mode f.hdrLen (g.len - f.hdrLen)
  no_frame_read : r.rip = false → r.fr = none
  frame_read : r.rip = true → ∃ g f, r.rg = some g ∧ r.fr = some f ∧ f.hdrLen ≤ g.len ∧
    headerAt mode r.buf g.start = some (f.hdrLen, g.len - f.hdrLen)

/-- The slot invariants of a Pipe (R33), with the exposed pointers and lengths (R184, R187) and the claimants (R66). -/
structure PipeInv (p : Pipe) : Prop where
  write_slot : p.wrState = .idle ↔ p.wrSlot = false
  write_flag : p.wrState = .idle ↔ p.ring.wip = false
  read_slot : p.rdState = .idle ↔ p.rdSlot = false
  read_flag : p.rdState = .idle ↔ p.ring.rip = false
  write_region : p.wrState ≠ .idle → ∃ g f, p.ring.wg = some g ∧ p.ring.fw = some f ∧
    p.wrPtr = g.start + f.hdrLen ∧ p.wrLen = g.len - f.hdrLen
  read_region : p.rdState ≠ .idle → ∃ g f, p.ring.rg = some g ∧ p.ring.fr = some f ∧
    p.rdPtr = g.start + f.hdrLen ∧ p.rdLen = g.len - f.hdrLen
  write_claim : p.wrState = .grantBusy ↔ p.wrClaim.isSome = true
  read_claim : p.rdState = .grantBusy ↔ p.rdClaim.isSome = true
  before_init : p.inited = false → p.wrState = .idle ∧ p.rdState = .idle

/-- The instance has Pipes, not a bare ring (R90). -/
def levelHasPipes (l : Level) : Bool :=
  match l with
  | .ring | .framed => false
  | .pipe | .datapipes => true

/-- A legal state of an instance: parameters within their bounds (R8), both rings legal (R42), their unread data
frames unless the instance is a raw ring (R162, R167), both Pipes legal where the instance has Pipes (R33), an
`IDLE_STEP` running only where there is a `DP` port (R90). -/
structure StateInv (s : State) : Prop where
  config_wf : s.cfg.WellFormed
  ring0 : RingInv s.cfg.n s.p0.ring
  ring1 : RingInv s.cfg.n s.p1.ring
  framed0 : s.cfg.level ≠ .ring → FramedInv s.cfg.hdrMode s.p0.ring
  framed1 : s.cfg.level ≠ .ring → FramedInv s.cfg.hdrMode s.p1.ring
  pipe0 : levelHasPipes s.cfg.level = true → PipeInv s.p0
  pipe1 : levelHasPipes s.cfg.level = true → PipeInv s.p1
  idle_run : s.idle.isSome = true → s.cfg.level = .datapipes

/-! ## Byte accesses (R64, R66) -/

/-- `off` is one of the `len` offsets from `start`. -/
def Within (start len off : Nat) : Prop := start ≤ off ∧ off < start + len

/-- The bytes of the write grant that belong to the producer agent (R64). -/
def ProducerOwns (l : Level) (r : Ring) (off : Nat) : Prop :=
  r.wip = true ∧ ∃ g, r.wg = some g ∧
    ((l = .ring ∧ Within g.start g.len off) ∨
     (l = .framed ∧ ∃ f, r.fw = some f ∧ Within (g.start + f.hdrLen) (g.len - f.hdrLen) off))

/-- The bytes of the read grant that belong to the consumer agent (R64). -/
def ConsumerOwns (l : Level) (r : Ring) (off : Nat) : Prop :=
  r.rip = true ∧ ∃ g, r.rg = some g ∧
    ((l = .ring ∧ Within g.start g.len off) ∨
     (l = .framed ∧ ∃ f, r.fr = some f ∧ Within (g.start + f.hdrLen) (g.len - f.hdrLen) off))

/-- The instance has Pipe `id` (R90). -/
def HasPipe (l : Level) (id : PipeId) : Prop := l = .datapipes ∨ (l = .pipe ∧ id = .p0)

/-- The claimed write region of a Pipe (R66). -/
def BusyWrite (p : Pipe) (off : Nat) : Prop := p.wrState = .grantBusy ∧ Within p.wrPtr p.wrLen off

/-- The claimed read region of a Pipe (R66). -/
def BusyRead (p : Pipe) (off : Nat) : Prop := p.rdState = .grantBusy ∧ Within p.rdPtr p.rdLen off

/-- What R64 and R66 let an agent write. -/
def WriteAdmitted (s : State) (a : Agent) (off : Nat) : Prop :=
  off < s.cfg.n ∧ match a with
    | .port (.producer c) => s.prodBy = some c ∧ ProducerOwns s.cfg.level s.p0.ring off
    | .port (.pipe id c) => c = .hp ∧ HasPipe s.cfg.level id ∧
        (getPipe s id).wrClaim = some c ∧ BusyWrite (getPipe s id) off
    | .dma id d => d = .w ∧ HasPipe s.cfg.level id ∧ BusyWrite (getPipe s id) off
    | .port (.consumer _) => False
    | .port .dp => False

/-- What R64 and R66 let an agent read. -/
def ReadAdmitted (s : State) (a : Agent) (off : Nat) : Prop :=
  off < s.cfg.n ∧ match a with
    | .port (.producer c) => s.prodBy = some c ∧ ProducerOwns s.cfg.level s.p0.ring off
    | .port (.consumer c) => s.consBy = some c ∧ ConsumerOwns s.cfg.level s.p0.ring off
    | .port (.pipe id c) => c = .hp ∧ HasPipe s.cfg.level id ∧
        (((getPipe s id).wrClaim = some c ∧ BusyWrite (getPipe s id) off) ∨
         ((getPipe s id).rdClaim = some c ∧ BusyRead (getPipe s id) off))
    | .dma id d => HasPipe s.cfg.level id ∧
        ((d = .w ∧ BusyWrite (getPipe s id) off) ∨ (d = .r ∧ BusyRead (getPipe s id) off))
    | .port .dp => False

/-! ## Runs -/

/-- Run commands one after the other, each at its port; none if one ends in a fault or a refusal. -/
def runAt : List (Port × Instr) → State → Option State
  | [], s => some s
  | (p, i) :: rest, s =>
    match exec i { s with cur := p } with
    | .next t => runAt rest t
    | _ => none

/-- The number of bytes that a `COMMIT` of this ring makes visible (R126, R144). -/
def committedBy (i : Instr) (r : Ring) : Nat :=
  match i, r.wip, r.wg with
  | .commit used, true, some g => min used g.len
  | _, _, _ => 0

/-- The number of bytes that a `RELEASE` of this ring frees (R134, R144). -/
def releasedBy (i : Instr) (r : Ring) : Nat :=
  match i, r.rip, r.rg with
  | .release used, true, some g => min used g.len
  | _, _, _ => 0

/-- The command acts on the ring at this port: it is a raw command in the port's row (R90). -/
def rawAt (p : Port) (i : Instr) : Bool := acceptedAt .ring p i

/-- Run commands and add up what the `COMMIT`s committed and the `RELEASE`s released (R144). -/
def runCounting : List (Port × Instr) → State → Nat → Nat → Option (State × Nat × Nat)
  | [], s, c, d => some (s, c, d)
  | (p, i) :: rest, s, c, d =>
    match exec i { s with cur := p } with
    | .next t =>
      if rawAt p i then runCounting rest t (c + committedBy i s.p0.ring) (d + releasedBy i s.p0.ring)
      else runCounting rest t c d
    | _ => none

/-- Run steps. -/
def runSteps : Nat → State → Option State
  | 0, s => some s
  | k + 1, s =>
    match step s with
    | .next t => runSteps k t
    | _ => none

end Sys2Proof.Machine
end

