-- ==== Sys2Proof/Certificates/Slice0/Obligations.lean ====
section
/-! DEFINITION. The statements for the provers. Each docstring names the rules it formalises. A statement about a next
state gives the whole next state (`ringNext`, `pipeNext`, a record update), so its frame is part of it: every field that
is not named, every other byte of storage and the other Pipe are unchanged. -/

open Sys2Proof Sys2Proof.Machine

/-! ## Encodings -/

/-- R91 to R93, R100: decoding the word of a well-formed command gives the command back. -/
def Obligations.DecodeOfEncode : Prop :=
  ∀ i : Instr, i.WellFormed → decode (encode i) = .ok i

/-- R91 to R94, R100: a word that decodes has exactly one command, which is well formed and encodes to that word. -/
def Obligations.EncodeOfDecode : Prop :=
  ∀ (w : Word) (i : Instr), decode w = .ok i → i.WellFormed ∧ encode i = w

/-- R99, R100: the decoder accepts exactly the words that match a row of the opcode map. -/
def Obligations.LegalWordsAreTheRows : Prop :=
  ∀ w : Word, (∃ i, decode w = .ok i) ↔ MatchesRow w

/-- R100, section 2.1 of 95_test_vectors.md: words written out there decode to their commands. -/
def Obligations.SpecWordsDecode : Prop :=
  decode 0x1000000A = .ok (.grantW 10) ∧ decode 0x1500000B = .ok (.release 11) ∧
  decode 0x20000080 = .ok (.fgrant 128) ∧ decode 0x26000001 = .ok (.fautoRelease true) ∧
  decode 0x35000028 = .ok (.finalizeW 40) ∧ decode 0x3A000000 = .ok .queryR ∧
  decode 0x41000000 = .ok .idleStep ∧ decode 0x14000001 = .error .operandNotZero

/-- R96, R97: the nine status codes, the fields of the response word, and its value as a number. -/
def Obligations.ResponseWordLayout : Prop :=
  (statusCode .ok = 0x00 ∧ statusCode .insufficientSize = 0x01 ∧ statusCode .grantInProgress = 0x02 ∧
    statusCode .empty = 0x03 ∧ statusCode .notReady = 0x04 ∧ statusCode .badState = 0x05 ∧
    statusCode .illegalCmd = 0x06 ∧ statusCode .notInit = 0x07 ∧ statusCode .noopStaged = 0x08) ∧
  ∀ r : Resp,
    (respWord r).extractLsb' 56 8 = 0 ∧
    (respWord r).extractLsb' 48 8 = BitVec.ofNat 8 (statusCode r.status) ∧
    (respWord r).extractLsb' 24 24 = BitVec.ofNat 24 r.ptr ∧
    (respWord r).extractLsb' 0 24 = BitVec.ofNat 24 r.len ∧
    (r.ptr < 2 ^ 24 → r.len < 2 ^ 24 →
      (respWord r).toNat = statusCode r.status * 2 ^ 48 + r.ptr * 2 ^ 24 + r.len)

/-! ## Steps -/

/-- R12, R70, R90: when a word that can be taken at its port now decodes to a command, the step is that command's
meaning, at that port, with the word taken from the schedule. -/
def Obligations.StepRunsDecodedCommand : Prop :=
  ∀ (s : State) (p : Port) (w : Word) (rest : List Action) (i : Instr),
    s.inputs = .cmd p w :: rest → canArrive p w s → decode w = .ok i →
    step s = exec i (arrived p rest s)

/-- R99: a word that matches no row of R100 answers `ILLEGAL_CMD` with `ptr = 0`, `len = 0` and changes no state of the
block. The model's own schedule, port and driver fields change as they do for every command (logs 7, 8, 9, 11). -/
def Obligations.IllegalWordAnswered : Prop :=
  ∀ (s : State) (p : Port) (w : Word) (rest : List Action),
    s.inputs = .cmd p w :: rest → canArrive p w s → ¬ MatchesRow w →
    step s = .next { arrived p rest s with resp := some (p, respWord ⟨.illegalCmd, 0, 0⟩) }

/-- R90, R167: a command at a port whose row does not list it answers `ILLEGAL_CMD` and changes nothing. -/
def Obligations.WrongPortAnswersIllegal : Prop :=
  ∀ (i : Instr) (s : State), acceptedAt s.cfg.level s.cur i = false →
    onlyAnswers i s ⟨.illegalCmd, 0, 0⟩

/-- R232, R132, with R221 for `DP_INIT`: in a legal state a status other than `OK` leaves the block's state unchanged. The
exception that R232 makes for `EMPTY` does not arise there: R132 says that a wrap step always answers `OK`. -/
def Obligations.FailureChangesNothing : Prop :=
  ∀ (i : Instr) (s t : State) (w : RespWord), StateInv s → i ≠ .dpInit →
    exec i s = .next t → t.resp = some (s.cur, w) → s.resp = none → respStatus w ≠ 0 →
    t = { s with resp := some (s.cur, w) }

/-- R241, R242: who may step. Under `ANY` every context may. Under `SINGLE_CORE_PRIORITY` no step of the low-priority
context is admitted while a handler is active, none but the next attempt while its `IDLE_STEP` runs, and every other one is;
an interrupt context's step is admitted exactly while a handler is active. A DMA engine's byte access is never held back. A
handler may start at any time, and one that is active may end. The refusal of a step that is not admitted and the count of
handlers are the model's (log 10), and so is that the `DP` port counts as low-priority (log 20) and that its next command
waits for the attempts (log 6). -/
def Obligations.HandlersHoldBackTheLoop : Prop :=
  ∀ (s : State) (a : Action) (rest : List Action), s.inputs = a :: rest →
    (s.cfg.sched = .any → ∀ c, TakenBy c a → a ≠ .resume → actionEnabled s a = true) ∧
    (s.cfg.sched = .singleCorePriority →
      (TakenBy .lp a → 0 < s.handlers → step s = .refused .stepNotEnabled) ∧
      (TakenBy .lp a → s.idle.isSome = true → a ≠ .resume → (∀ w, a ≠ .cmd .dp w) →
        step s = .refused .stepNotEnabled) ∧
      (TakenBy .lp a → s.handlers = 0 → s.idle = none → a ≠ .resume → actionEnabled s a = true) ∧
      (a = .resume → s.handlers = 0 → s.idle.isSome = true → actionEnabled s a = true) ∧
      (TakenBy .hp a → s.handlers = 0 → step s = .refused .stepNotEnabled) ∧
      (TakenBy .hp a → 0 < s.handlers → actionEnabled s a = true)) ∧
    (∀ id d off v, a = .bufWrite (.dma id d) off v →
      step s = bufWrite (.dma id d) off v (startStep s rest)) ∧
    (∀ id d off, a = .bufRead (.dma id d) off →
      step s = bufRead (.dma id d) off (startStep s rest)) ∧
    (a = .handlerStart → step s = .next { startStep s rest with handlers := s.handlers + 1 }) ∧
    (∀ k, a = .handlerEnd → s.handlers = k + 1 → step s = .next { startStep s rest with handlers := k }) ∧
    (a = .handlerEnd → s.handlers = 0 → step s = .refused .stepNotEnabled)

/-- R77, R246 (log 11: any second context counts as concurrent): a command from a second context at a producer or
consumer port is a fault. -/
def Obligations.SecondContextFaults : Prop :=
  ∀ (s : State) (c d : Ctx) (w : Word) (rest : List Action),
    s.cfg.sched = .any → s.cfg.level = .ring ∨ s.cfg.level = .framed → c ≠ d →
    (s.prodBy = some d → s.inputs = .cmd (.producer c) w :: rest → step s = .fault .secondProducer) ∧
    (s.consBy = some d → s.inputs = .cmd (.consumer c) w :: rest → step s = .fault .secondConsumer)

/-- R29, R41: the parameters are constants of the instance; no command and no step changes them. -/
def Obligations.ParametersAreConstant : Prop :=
  (∀ (i : Instr) (s t : State), exec i s = .next t → t.cfg = s.cfg) ∧
  ∀ s t : State, step s = .next t → t.cfg = s.cfg

/-! ## Reset -/

/-- R260: what reset leaves in every register, in both Pipes, for every parameter tuple; no event is pending. That no byte of
the storage is listed is the model's form of "unspecified" (log 3), and that its schedule is empty is the model's (log 9). -/
def Obligations.ResetRegisters : Prop :=
  ∀ (cfg : Config) (id : PipeId),
    let p := getPipe (State.resetOf cfg) id
    p.ring.write = 0 ∧ p.ring.read = 0 ∧ p.ring.reserve = 0 ∧ p.ring.last = cfg.n ∧
    p.ring.wip = false ∧ p.ring.rip = false ∧
    p.ring.wg = none ∧ p.ring.rg = none ∧ p.ring.fw = none ∧ p.ring.fr = none ∧
    p.wrState = .idle ∧ p.rdState = .idle ∧ p.wrSlot = false ∧ p.rdSlot = false ∧
    p.wrPtr = 0 ∧ p.wrLen = 0 ∧ p.rdPtr = 0 ∧ p.rdLen = 0 ∧ p.inited = false ∧
    (∀ off, memGet? p.ring.buf off = none) ∧
    (State.resetOf cfg).cfg = cfg ∧ (State.resetOf cfg).events = [] ∧ (State.resetOf cfg).inputs = []

/-! ## The ring commands -/

/-- R122: `GRANT_W sz`, its encoding, its three statuses and its placements. -/
def Obligations.GrantWReserves : Prop :=
  EncodedC 0x10 .grantW ∧ ∀ (s : State) (sz : Nat), AtProducer .ring s →
    (s.p0.ring.wip = true → onlyAnswers (.grantW sz) s ⟨.grantInProgress, 0, 0⟩) ∧
    (s.p0.ring.wip = false → (¬ ∃ start, Placed s.cfg.n sz s.p0.ring start) →
      onlyAnswers (.grantW sz) s ⟨.insufficientSize, 0, 0⟩) ∧
    (∀ start, s.p0.ring.wip = false → Placed s.cfg.n sz s.p0.ring start →
      exec (.grantW sz) s = .next (ringNext s
        { s.p0.ring with wip := true, reserve := start + sz, wg := some ⟨start, sz⟩ }
        ⟨.ok, start, sz⟩))

/-- R126: `COMMIT used`, its encoding, its clamp, its zero case and the marker `last`. -/
def Obligations.CommitPublishes : Prop :=
  EncodedC 0x11 .commit ∧ ∀ (s : State) (used : Nat), AtProducer .ring s →
    (s.p0.ring.wip = false → onlyAnswers (.commit used) s ⟨.badState, 0, 0⟩) ∧
    (∀ g, s.p0.ring.wip = true → s.p0.ring.wg = some g → min used g.len = 0 →
      exec (.commit used) s = .next (ringNext s
        { s.p0.ring with wip := false, wg := none, reserve := s.p0.ring.write } ⟨.ok, 0, 0⟩)) ∧
    (∀ g, s.p0.ring.wip = true → s.p0.ring.wg = some g → min used g.len ≠ 0 →
      exec (.commit used) s = .next (ringNext s
        { s.p0.ring with
          wip := false
          wg := none
          write := g.start + min used g.len
          reserve := g.start + min used g.len
          last := lastAfter s.cfg.n (g.start + min used g.len) s.p0.ring } ⟨.ok, 0, 0⟩))

/-- R131: `READ`, its encoding, its three statuses and its wrap step. -/
def Obligations.ReadGrantsUnread : Prop :=
  EncodedZ 0x14 .read ∧ ∀ s : State, AtConsumer .ring s →
    (s.p0.ring.rip = true → onlyAnswers .read s ⟨.grantInProgress, 0, 0⟩) ∧
    (s.p0.ring.rip = false → readLen s.p0.ring = 0 →
      exec .read s = .next (ringNext s { s.p0.ring with read := readFrom s.p0.ring } ⟨.empty, 0, 0⟩)) ∧
    (s.p0.ring.rip = false → readLen s.p0.ring ≠ 0 →
      exec .read s = .next (ringNext s
        { s.p0.ring with
          read := readFrom s.p0.ring
          rip := true
          rg := some ⟨readFrom s.p0.ring, readLen s.p0.ring⟩ }
        ⟨.ok, readFrom s.p0.ring, readLen s.p0.ring⟩))

/-- R134: `RELEASE used`, its encoding and its clamp. -/
def Obligations.ReleaseFrees : Prop :=
  EncodedC 0x15 .release ∧ ∀ (s : State) (used : Nat), AtConsumer .ring s →
    (s.p0.ring.rip = false → onlyAnswers (.release used) s ⟨.badState, 0, 0⟩) ∧
    (∀ g, s.p0.ring.rip = true → s.p0.ring.rg = some g →
      exec (.release used) s = .next (ringNext s
        { s.p0.ring with read := s.p0.ring.read + min used g.len, rip := false, rg := none }
        ⟨.ok, 0, 0⟩))

/-- R145, R123, R124, R63: in a legal state a request is granted exactly when it is at most the free contiguous space,
counted as R123 counts it; a grant has exactly the requested length, lies inside the storage and holds no unread byte. -/
def Obligations.GrantsFitFreeSpace : Prop :=
  ∀ (s : State) (sz : Nat), StateInv s → AtProducer .ring s → s.p0.ring.wip = false →
    let r := s.p0.ring
    let free := if r.write < r.read then r.read - r.write - 1 else max (s.cfg.n - r.write) (r.read - 1)
    (free < sz → onlyAnswers (.grantW sz) s ⟨.insufficientSize, 0, 0⟩) ∧
    (sz ≤ free → ∃ t start, exec (.grantW sz) s = .next t ∧
      t.resp = some (s.cur, respWord ⟨.ok, start, sz⟩) ∧ t.p0.ring.wg = some ⟨start, sz⟩ ∧
      start + sz ≤ s.cfg.n ∧ ∀ off ∈ unreadOffsets t.p0.ring, ¬ Within start sz off)

/-- R146, with R128, R136, R137: a write grant, wrapped or not, that is dropped (`COMMIT 0`) leaves the ring as it was before the
request; a read grant that is dropped (`RELEASE 0`) leaves its bytes unread, and the next `READ` answers the same. -/
def Obligations.DroppedGrantsLeaveNoTrace : Prop :=
  ∀ (s : State) (c : Ctx), StateInv s → s.cfg.level = .ring →
    (∀ sz, s.p0.ring.wip = false →
      ∃ t, runAt [(.producer c, .grantW sz), (.producer c, .commit 0)] s = some t ∧ t.p0 = s.p0) ∧
    (s.p0.ring.rip = false → 0 < avail s.p0.ring →
      ∃ t u v ptr len, runAt [(.consumer c, .read)] s = some t ∧
        t.resp = some (.consumer c, respWord ⟨.ok, ptr, len⟩) ∧ 1 ≤ len ∧
        runAt [(.consumer c, .release 0)] t = some u ∧ unreadBytes u.p0.ring = unreadBytes s.p0.ring ∧
        runAt [(.consumer c, .read)] u = some v ∧ v.resp = t.resp ∧ v.p0 = t.p0)

/-- R144: for every sequence of commands from reset, the number of bytes available to read is the number committed minus
the number released. -/
def Obligations.RingConservation : Prop :=
  ∀ (cfg : Config) (cmds : List (Port × Instr)), cfg.WellFormed → cfg.level = .ring →
    ∃ t committed released, runCounting cmds (State.resetOf cfg) 0 0 = some (t, committed, released) ∧
      avail t.p0.ring + released = committed

/-- R147, R24 (one command at a time): a `COMMIT` appends the committed bytes of the grant to the unread bytes, a
`RELEASE` removes bytes from their front, `GRANT_W` and `READ` leave them as they are. -/
def Obligations.UnreadBytesAreAQueue : Prop :=
  ∀ s t : State, StateInv s → s.cfg.level = .ring →
    (∀ c used g, s.cur = .producer c → s.p0.ring.wip = true → s.p0.ring.wg = some g →
      exec (.commit used) s = .next t →
      unreadBytes t.p0.ring = unreadBytes s.p0.ring ++
        bytesAt s.p0.ring.buf (List.range' g.start (min used g.len))) ∧
    (∀ c used g, s.cur = .consumer c → s.p0.ring.rip = true → s.p0.ring.rg = some g →
      exec (.release used) s = .next t →
      unreadBytes t.p0.ring = (unreadBytes s.p0.ring).drop (min used g.len)) ∧
    (∀ sz, exec (.grantW sz) s = .next t → unreadBytes t.p0.ring = unreadBytes s.p0.ring) ∧
    (exec .read s = .next t → unreadBytes t.p0.ring = unreadBytes s.p0.ring)

/-- R148: no command leaves the ring stuck. With no grant outstanding, unread data can be read; an empty ring has
`read = write` and grants exactly the sizes that `write + sz <= N` or `sz < read` allow, so every
`sz <= (N - 1) div 2`; after reset every `sz <= N`. -/
def Obligations.RingMakesProgress : Prop :=
  (∀ s : State, StateInv s → s.cfg.level = .ring → s.p0.ring.wip = false → s.p0.ring.rip = false →
    (∀ c, s.cur = .consumer c → 0 < avail s.p0.ring → ∃ t ptr len, exec .read s = .next t ∧
      t.resp = some (s.cur, respWord ⟨.ok, ptr, len⟩) ∧ t.p0.ring.rip = true) ∧
    (avail s.p0.ring = 0 → s.p0.ring.read = s.p0.ring.write ∧
      ∀ c sz, s.cur = .producer c →
        (s.p0.ring.write + sz ≤ s.cfg.n ∨ sz < s.p0.ring.read → ∃ t ptr, exec (.grantW sz) s = .next t ∧
          t.resp = some (s.cur, respWord ⟨.ok, ptr, sz⟩) ∧ t.p0.ring.wip = true) ∧
        (s.cfg.n < s.p0.ring.write + sz → s.p0.ring.read ≤ sz →
          onlyAnswers (.grantW sz) s ⟨.insufficientSize, 0, 0⟩) ∧
        (sz ≤ (s.cfg.n - 1) / 2 → ∃ t ptr, exec (.grantW sz) s = .next t ∧
          t.resp = some (s.cur, respWord ⟨.ok, ptr, sz⟩) ∧ t.p0.ring.wip = true))) ∧
  (∀ (cfg : Config) (c : Ctx) (sz : Nat), cfg.WellFormed → cfg.level = .ring → sz ≤ cfg.n →
    ∃ t, runAt [(.producer c, .grantW sz)] (State.resetOf cfg) = some t ∧
      t.resp = some (.producer c, respWord ⟨.ok, 0, sz⟩))

/-! ## The frame header -/

/-- R103, R105, R107: for every header that can carry the payload length, the encoder writes as many bytes as the header's
size, the decoder reads that size from the first byte and the payload length from all of them. -/
def Obligations.HeaderRoundTrip : Prop :=
  ∀ (mode : HdrMode) (h p : Nat), HeaderCarries mode h p →
    (hdrEnc mode h p).length = h ∧ hdrSizeOf mode ((hdrEnc mode h p).headD 0) = h ∧
    hdrValue mode (hdrEnc mode h p) = p

/-- R104: the table of header sizes, and the general rule: the least `k >= 1` with `max_sz < 2^(7k)`. -/
def Obligations.HeaderSizeTable : Prop :=
  ∀ m : Nat,
    (m < 2 ^ 7 → hdrSize .varint m = 1) ∧
    (2 ^ 7 ≤ m → m < 2 ^ 14 → hdrSize .varint m = 2) ∧
    (2 ^ 14 ≤ m → m < 2 ^ 21 → hdrSize .varint m = 3) ∧
    (2 ^ 21 ≤ m → m < 2 ^ 28 → hdrSize .varint m = 4) ∧
    1 ≤ hdrSize .varint m ∧ m < 2 ^ (7 * hdrSize .varint m) ∧
    (∀ k, 1 ≤ k → m < 2 ^ (7 * k) → hdrSize .varint m ≤ k)

/-! ## The framed commands -/

/-- R152: `FGRANT max_sz`, its encoding, the range test before the flag test. -/
def Obligations.FgrantReservesFrame : Prop :=
  EncodedC 0x20 .fgrant ∧ ∀ (s : State) (maxSz : Nat), AtProducer .framed s →
    let h := hdrSize s.cfg.hdrMode maxSz
    (s.cfg.hdrMode = .fixed2 → 65535 < maxSz → onlyAnswers (.fgrant maxSz) s ⟨.insufficientSize, 0, 0⟩) ∧
    (s.cfg.hdrMode = .varint ∨ maxSz ≤ 65535 → s.p0.ring.wip = true →
      onlyAnswers (.fgrant maxSz) s ⟨.grantInProgress, 0, 0⟩) ∧
    (s.cfg.hdrMode = .varint ∨ maxSz ≤ 65535 → s.p0.ring.wip = false →
      (¬ ∃ start, Placed s.cfg.n (maxSz + h) s.p0.ring start) →
      onlyAnswers (.fgrant maxSz) s ⟨.insufficientSize, 0, 0⟩) ∧
    (∀ start, s.cfg.hdrMode = .varint ∨ maxSz ≤ 65535 → s.p0.ring.wip = false →
      Placed s.cfg.n (maxSz + h) s.p0.ring start →
      exec (.fgrant maxSz) s = .next (ringNext s
        { s.p0.ring with
          wip := true
          reserve := start + (maxSz + h)
          wg := some ⟨start, maxSz + h⟩
          fw := some ⟨h, 0⟩ }
        ⟨.ok, start + h, maxSz⟩))

/-- R155: `FCOMMIT used`, its encoding: it clamps to the payload, stores the header of the committed length byte for byte
before the payload, changes no other byte, and commits header and payload. The three conditions on the grant hold in every
legal state (`StateInv`). -/
def Obligations.FcommitPublishesFrame : Prop :=
  EncodedC 0x21 .fcommit ∧ ∀ (s : State) (used : Nat), AtProducer .framed s →
    (s.p0.ring.wip = false → onlyAnswers (.fcommit used) s ⟨.badState, 0, 0⟩) ∧
    (∀ g f, s.p0.ring.wip = true → s.p0.ring.wg = some g → s.p0.ring.fw = some f →
      f.hdrLen ≤ g.len → g.start + g.len ≤ s.cfg.n →
      HeaderCarries s.cfg.hdrMode f.hdrLen (min used (g.len - f.hdrLen)) →
      ∃ buf, HeaderStored s.cfg.hdrMode f.hdrLen (min used (g.len - f.hdrLen)) g.start s.p0.ring.buf buf ∧
        exec (.fcommit used) s = .next (ringNext s
          { s.p0.ring with
            buf := buf
            wip := false
            wg := none
            fw := none
            write := g.start + (f.hdrLen + min used (g.len - f.hdrLen))
            reserve := g.start + (f.hdrLen + min used (g.len - f.hdrLen))
            last := lastAfter s.cfg.n (g.start + (f.hdrLen + min used (g.len - f.hdrLen))) s.p0.ring }
          ⟨.ok, 0, 0⟩))

/-- R158: `FTO_COMMIT amt`, its encoding: it stores the amount as given, which has no effect on an explicit `FCOMMIT`. -/
def Obligations.FtoCommitStoresAmount : Prop :=
  EncodedC 0x22 .ftoCommit ∧ ∀ (s : State) (amt : Nat), AtProducer .framed s →
    (s.p0.ring.wip = false → onlyAnswers (.ftoCommit amt) s ⟨.badState, 0, 0⟩) ∧
    (∀ f, s.p0.ring.wip = true → s.p0.ring.fw = some f →
      exec (.ftoCommit amt) s =
        .next (ringNext s { s.p0.ring with fw := some ⟨f.hdrLen, amt⟩ } ⟨.ok, 0, 0⟩)) ∧
    (∀ g f used, s.p0.ring.wip = true → s.p0.ring.wg = some g → s.p0.ring.fw = some f →
      exec (.fcommit used)
          { s with p0 := { s.p0 with ring := { s.p0.ring with fw := some ⟨f.hdrLen, amt⟩ } } } =
        exec (.fcommit used) s)

/-- R159: `FDROP_W`, its encoding: it publishes nothing when `to_commit` is 0, and is `FCOMMIT to_commit` otherwise. -/
def Obligations.FdropWDropsOrCommits : Prop :=
  EncodedZ 0x23 .fdropW ∧ ∀ s : State, AtProducer .framed s →
    (s.p0.ring.wip = false → onlyAnswers .fdropW s ⟨.badState, 0, 0⟩) ∧
    (∀ g f, s.p0.ring.wip = true → s.p0.ring.wg = some g → s.p0.ring.fw = some f → f.toCommit = 0 →
      exec .fdropW s = .next (ringNext s
        { s.p0.ring with wip := false, wg := none, fw := none, reserve := s.p0.ring.write }
        ⟨.ok, 0, 0⟩)) ∧
    (∀ f, s.p0.ring.wip = true → s.p0.ring.fw = some f → f.toCommit ≠ 0 →
      exec .fdropW s = exec (.fcommit f.toCommit) s)

/-- R160, R161: `FREAD`, its encoding: it finds the header that stands where the `READ` starts, narrows the grant to that one frame and
answers its payload's place and length. The conditions on the header hold in every legal state (`StateInv`). -/
def Obligations.FreadReturnsFrame : Prop :=
  EncodedZ 0x24 .fread ∧ ∀ s : State, AtConsumer .framed s →
    let start := readFrom s.p0.ring
    let len := readLen s.p0.ring
    (s.p0.ring.rip = true → onlyAnswers .fread s ⟨.grantInProgress, 0, 0⟩) ∧
    (s.p0.ring.rip = false → len = 0 →
      exec .fread s = .next (ringNext s { s.p0.ring with read := start } ⟨.empty, 0, 0⟩)) ∧
    (∀ h p, s.p0.ring.rip = false → headerAt s.cfg.hdrMode s.p0.ring.buf start = some (h, p) →
      h + p ≤ len → start + len ≤ s.cfg.n →
      exec .fread s = .next (ringNext s
        { s.p0.ring with
          read := start
          rip := true
          rg := some ⟨start, h + p⟩
          fr := some ⟨h, false⟩ }
        ⟨.ok, start + h, p⟩))

/-- R163, R108: a header that does not describe a frame inside the raw grant is the fault `CorruptFrame`: a `VARINT`
first byte `0x00`, a header larger than the grant, or a frame larger than the grant. -/
def Obligations.FreadReportsCorruptFrame : Prop :=
  ∀ s : State, AtConsumer .framed s → s.p0.ring.rip = false →
    let start := readFrom s.p0.ring
    let len := readLen s.p0.ring
    1 ≤ len → start + len ≤ s.cfg.n →
    (s.cfg.hdrMode = .varint → memGet? s.p0.ring.buf start = some 0 →
      exec .fread s = .fault .corruptFrame) ∧
    (∀ b, memGet? s.p0.ring.buf start = some b → len < hdrSizeOf s.cfg.hdrMode b →
      exec .fread s = .fault .corruptFrame) ∧
    (∀ h p, headerAt s.cfg.hdrMode s.p0.ring.buf start = some (h, p) → h ≤ len → len < h + p →
      exec .fread s = .fault .corruptFrame)

/-- R164: `FRELEASE`, its encoding: it releases the whole frame. -/
def Obligations.FreleaseFreesFrame : Prop :=
  EncodedZ 0x25 .frelease ∧ ∀ s : State, AtConsumer .framed s →
    (s.p0.ring.rip = false → onlyAnswers .frelease s ⟨.badState, 0, 0⟩) ∧
    (∀ g, s.p0.ring.rip = true → s.p0.ring.rg = some g →
      exec .frelease s = .next (ringNext s
        { s.p0.ring with read := s.p0.ring.read + g.len, rip := false, rg := none, fr := none }
        ⟨.ok, 0, 0⟩))

/-- R165: `FAUTO_RELEASE b`, its encoding: it stores the choice. -/
def Obligations.FautoReleaseStoresChoice : Prop :=
  (∀ w : Word, opcodeField w = 0x26 → decode w =
    if imm24Field w = 0 then .ok (.fautoRelease false)
    else if imm24Field w = 1 then .ok (.fautoRelease true) else .error .operandNotBoolean) ∧
  ∀ (s : State) (b : Bool), AtConsumer .framed s →
    (s.p0.ring.rip = false → onlyAnswers (.fautoRelease b) s ⟨.badState, 0, 0⟩) ∧
    (∀ f, s.p0.ring.rip = true → s.p0.ring.fr = some f →
      exec (.fautoRelease b) s =
        .next (ringNext s { s.p0.ring with fr := some ⟨f.hdrLen, b⟩ } ⟨.ok, 0, 0⟩))

/-- R166: `FDROP_R`, its encoding: it is `FRELEASE` when `auto_release` is set, and leaves the frame unread otherwise. -/
def Obligations.FdropRKeepsOrReleases : Prop :=
  EncodedZ 0x27 .fdropR ∧ ∀ s : State, AtConsumer .framed s →
    (s.p0.ring.rip = false → onlyAnswers .fdropR s ⟨.badState, 0, 0⟩) ∧
    (∀ f, s.p0.ring.rip = true → s.p0.ring.fr = some f → f.autoRelease = true →
      exec .fdropR s = exec .frelease s) ∧
    (∀ g f, s.p0.ring.rip = true → s.p0.ring.rg = some g → s.p0.ring.fr = some f →
      f.autoRelease = false →
      exec .fdropR s = .next (ringNext s { s.p0.ring with rip := false, rg := none, fr := none }
        ⟨.ok, 0, 0⟩))

/-- R170, R157: on an empty framed ring in a legal state, `FGRANT m`, `FCOMMIT l` with `l <= m`, `FREAD`, `FRELEASE` return
exactly the payload length `l`, and leave the ring empty with both cursors past the frame. -/
def Obligations.FrameRoundTrip : Prop :=
  ∀ (s : State) (c d : Ctx) (m l start : Nat), StateInv s → s.cfg.level = .framed →
    s.p0.ring.wip = false → s.p0.ring.rip = false → s.p0.ring.read = s.p0.ring.write →
    (s.cfg.hdrMode = .varint ∨ m ≤ 65535) → l ≤ m →
    let h := hdrSize s.cfg.hdrMode m
    Placed s.cfg.n (m + h) s.p0.ring start →
    ∃ t u v, runAt [(.producer c, .fgrant m), (.producer c, .fcommit l)] s = some t ∧
      t.p0.ring.write = start + (h + l) ∧
      headerAt s.cfg.hdrMode t.p0.ring.buf start = some (h, l) ∧
      runAt [(.consumer d, .fread)] t = some u ∧
      u.resp = some (.consumer d, respWord ⟨.ok, start + h, l⟩) ∧
      runAt [(.consumer d, .frelease)] u = some v ∧
      avail v.p0.ring = 0 ∧ v.p0.ring.wip = false ∧ v.p0.ring.rip = false ∧
      v.p0.ring.read = start + (h + l) ∧ v.p0.ring.write = start + (h + l)

/-- R168 (one command at a time): in a legal state whose unread data is the frames `fs`, a committing `FCOMMIT`, `FDROP_W`
or `FINALIZE_W` appends one frame with the payload's bytes, `FREAD` and `STAGE_R` answer the oldest frame, `FRELEASE`, a
releasing `FDROP_R` and `FINALIZE_R` remove it, and every other framed command, and every other command of an initialised
Pipe, leaves the sequence of frames as it is. -/
def Obligations.FramesAreAQueue : Prop :=
  (∀ (s : State) (fs : List (List (Option Byte))), StateInv s → s.cfg.level = .framed →
    UnreadFrames s.cfg.hdrMode s.p0.ring fs →
    (∀ c g f i used, s.cur = .producer c → s.p0.ring.wip = true → s.p0.ring.wg = some g →
      s.p0.ring.fw = some f → (i = .fcommit used ∨ (i = .fdropW ∧ f.toCommit = used ∧ used ≠ 0)) →
      ∃ t, exec i s = .next t ∧ UnreadFrames s.cfg.hdrMode t.p0.ring (fs ++
        [bytesAt s.p0.ring.buf (List.range' (g.start + f.hdrLen) (min used (g.len - f.hdrLen)))])) ∧
    (∀ c first more, s.cur = .consumer c → s.p0.ring.rip = false → fs = first :: more →
      ∃ t ptr, exec .fread s = .next t ∧ t.resp = some (s.cur, respWord ⟨.ok, ptr, first.length⟩) ∧
        bytesAt t.p0.ring.buf (List.range' ptr first.length) = first ∧
        UnreadFrames s.cfg.hdrMode t.p0.ring fs) ∧
    (∀ c i, s.cur = .consumer c → s.p0.ring.rip = true →
      (i = .frelease ∨ (i = .fdropR ∧ ∃ f, s.p0.ring.fr = some f ∧ f.autoRelease = true)) →
      ∃ t first more, fs = first :: more ∧ exec i s = .next t ∧
        UnreadFrames s.cfg.hdrMode t.p0.ring more) ∧
    (∀ i t, (∃ n, i = .fgrant n) ∨ (∃ n, i = .ftoCommit n) ∨ (∃ b, i = .fautoRelease b) ∨
        (i = .fdropW ∧ ∀ f, s.p0.ring.fw = some f → f.toCommit = 0) ∨
        (i = .fdropR ∧ ∀ f, s.p0.ring.fr = some f → f.autoRelease = false) →
      exec i s = .next t → UnreadFrames s.cfg.hdrMode t.p0.ring fs)) ∧
  ∀ (s : State) (id : PipeId) (c : Ctx) (fs : List (List (Option Byte))), StateInv s → AtPipe id c s →
    let p := getPipe s id
    p.inited = true → UnreadFrames s.cfg.hdrMode p.ring fs →
    (∀ n, p.wrState = .grantBusy →
      ∃ t, exec (.finalizeW n) s = .next t ∧ UnreadFrames s.cfg.hdrMode (getPipe t id).ring (fs ++
        [bytesAt p.ring.buf (List.range' p.wrPtr (min n p.wrLen))])) ∧
    (∀ first more, p.rdState = .idle → fs = first :: more →
      ∃ t ptr, exec .stageR s = .next t ∧ t.resp = some (s.cur, respWord ⟨.ok, ptr, first.length⟩) ∧
        (getPipe t id).rdState = .grantReady ∧ (getPipe t id).rdPtr = ptr ∧
        (getPipe t id).rdLen = first.length ∧
        bytesAt (getPipe t id).ring.buf (List.range' ptr first.length) = first) ∧
    (p.rdState = .grantBusy →
      ∃ t first more, fs = first :: more ∧ bytesAt p.ring.buf (List.range' p.rdPtr p.rdLen) = first ∧
        exec .finalizeR s = .next t ∧ UnreadFrames s.cfg.hdrMode (getPipe t id).ring more) ∧
    (∀ i t, isPipeCommand i = true → (∀ n, i ≠ .finalizeW n) → i ≠ .finalizeR →
      exec i s = .next t → UnreadFrames s.cfg.hdrMode (getPipe t id).ring fs)

/-! ## The Pipe commands -/

/-- R182: `INIT`, its encoding: on a Pipe that is not initialised it sets every register to its reset value, sets `inited` and
does not touch the storage; on any other it answers `NOT_INIT`. What happens to the count of draws and to the claimant
records is the model's (logs 3, 5). -/
def Obligations.InitMakesPipeReady : Prop :=
  EncodedZ 0x30 .init ∧ ∀ (s : State) (id : PipeId) (c : Ctx), AtPipe id c s →
    ((getPipe s id).inited = true → onlyAnswers .init s ⟨.notInit, 0, 0⟩) ∧
    ((getPipe s id).inited = false → exec .init s = .next (pipeNext s id
      { Pipe.reset s.cfg.n with
        inited := true
        ring := { Ring.reset s.cfg.n with
          buf := (getPipe s id).ring.buf
          drawn := (getPipe s id).ring.drawn } }
      ⟨.ok, 0, 0⟩))

/-- R183: before `INIT` every other Pipe command answers `NOT_INIT` and changes nothing; so does a second `INIT`. -/
def Obligations.NotInitBeforeInit : Prop :=
  ∀ (s : State) (id : PipeId) (c : Ctx) (i : Instr), AtPipe id c s → isPipeCommand i = true →
    ((getPipe s id).inited = false → i ≠ .init → onlyAnswers i s ⟨.notInit, 0, 0⟩) ∧
    ((getPipe s id).inited = true → i = .init → onlyAnswers i s ⟨.notInit, 0, 0⟩)

/-- R184, R186, R224: `STAGE_W max_size` and its encoding: every status, the staged grant and its event. In a legal state
`GRANT_IN_PROGRESS` cannot occur. -/
def Obligations.StageWStagesGrant : Prop :=
  EncodedC 0x31 .stageW ∧ ∀ (s : State) (id : PipeId) (c : Ctx) (m : Nat), AtPipe id c s →
    let p := getPipe s id
    let h := hdrSize s.cfg.hdrMode m
    (p.inited = false → onlyAnswers (.stageW m) s ⟨.notInit, 0, 0⟩) ∧
    (p.inited = true →
      (p.wrState ≠ .idle → onlyAnswers (.stageW m) s ⟨.noopStaged, 0, 0⟩) ∧
      (p.wrState = .idle → p.ring.wip = false →
        ((s.cfg.hdrMode = .fixed2 ∧ 65535 < m) ∨ ¬ ∃ start, Placed s.cfg.n (m + h) p.ring start) →
        onlyAnswers (.stageW m) s ⟨.insufficientSize, 0, 0⟩) ∧
      (∀ start, p.wrState = .idle → p.ring.wip = false → s.cfg.hdrMode = .varint ∨ m ≤ 65535 →
        Placed s.cfg.n (m + h) p.ring start →
        exec (.stageW m) s = .next
          { pipeNext s id
              { p with
                ring := { p.ring with
                  wip := true
                  reserve := start + (m + h)
                  wg := some ⟨start, m + h⟩
                  fw := some ⟨h, 0⟩ }
                wrSlot := true
                wrPtr := start + h
                wrLen := m
                wrState := .grantReady }
              ⟨.ok, start + h, m⟩ with
            events := s.events ++ [⟨id, .w, start + h, m⟩] })) ∧
    (StateInv s → ∀ t, exec (.stageW m) s = .next t →
      t.resp ≠ some (s.cur, respWord ⟨.grantInProgress, 0, 0⟩))

/-- R187, R186, R224: `STAGE_R` and its encoding: every status, the staged frame and its event, and a corrupt header's
fault. In a legal state `GRANT_IN_PROGRESS` cannot occur. -/
def Obligations.StageRStagesFrame : Prop :=
  EncodedZ 0x32 .stageR ∧ ∀ (s : State) (id : PipeId) (c : Ctx), AtPipe id c s →
    let p := getPipe s id
    let start := readFrom p.ring
    let len := readLen p.ring
    (p.inited = false → onlyAnswers .stageR s ⟨.notInit, 0, 0⟩) ∧
    (p.inited = true →
      (p.rdState ≠ .idle → onlyAnswers .stageR s ⟨.noopStaged, 0, 0⟩) ∧
      (p.rdState = .idle → p.ring.rip = false → len = 0 →
        exec .stageR s = .next (pipeNext s id
          { p with ring := { p.ring with read := start } } ⟨.empty, 0, 0⟩)) ∧
      (∀ h n, p.rdState = .idle → p.ring.rip = false →
        headerAt s.cfg.hdrMode p.ring.buf start = some (h, n) → h + n ≤ len → start + len ≤ s.cfg.n →
        exec .stageR s = .next
          { pipeNext s id
              { p with
                ring := { p.ring with
                  read := start
                  rip := true
                  rg := some ⟨start, h + n⟩
                  fr := some ⟨h, false⟩ }
                rdSlot := true
                rdPtr := start + h
                rdLen := n
                rdState := .grantReady }
              ⟨.ok, start + h, n⟩ with
            events := s.events ++ [⟨id, .r, start + h, n⟩] }) ∧
      (∀ b, p.rdState = .idle → p.ring.rip = false → 1 ≤ len → start + len ≤ s.cfg.n →
        memGet? p.ring.buf start = some b →
        8 < hdrSizeOf s.cfg.hdrMode b ∨ len < hdrSizeOf s.cfg.hdrMode b →
        exec .stageR s = .fault .corruptFrame) ∧
      (∀ h n, p.rdState = .idle → p.ring.rip = false → start + len ≤ s.cfg.n →
        headerAt s.cfg.hdrMode p.ring.buf start = some (h, n) → h ≤ len → len < h + n →
        exec .stageR s = .fault .corruptFrame)) ∧
    (StateInv s → ∀ t, exec .stageR s = .next t →
      t.resp ≠ some (s.cur, respWord ⟨.grantInProgress, 0, 0⟩))

/-- R189, R190: `CLAIM_W` and `CLAIM_R`, their encodings, from either port. That the claiming context is remembered is the
model's (log 5). -/
def Obligations.ClaimsTakeStagedGrants : Prop :=
  EncodedZ 0x33 .claimW ∧ EncodedZ 0x34 .claimR ∧ ∀ (s : State) (id : PipeId) (c : Ctx), AtPipe id c s →
    let p := getPipe s id
    (p.inited = false → onlyAnswers .claimW s ⟨.notInit, 0, 0⟩ ∧ onlyAnswers .claimR s ⟨.notInit, 0, 0⟩) ∧
    (p.inited = true →
      (p.wrState ≠ .grantReady → onlyAnswers .claimW s ⟨.notReady, 0, 0⟩) ∧
      (p.wrState = .grantReady → exec .claimW s = .next (pipeNext s id
        { p with wrState := .grantBusy, wrClaim := some c } ⟨.ok, p.wrPtr, p.wrLen⟩)) ∧
      (p.rdState ≠ .grantReady → onlyAnswers .claimR s ⟨.notReady, 0, 0⟩) ∧
      (p.rdState = .grantReady → exec .claimR s = .next (pipeNext s id
        { p with rdState := .grantBusy, rdClaim := some c } ⟨.ok, p.rdPtr, p.rdLen⟩)))

/-- R192, R195: `FINALIZE_W committed_len` and its encoding: the claimed grant is committed as a frame of
`min(committed_len, payload)` bytes, its header stored byte for byte, and the direction is `IDLE` again. That the claimant
record is cleared is the model's (log 5). -/
def Obligations.FinalizeWCommitsFrame : Prop :=
  EncodedC 0x35 .finalizeW ∧ ∀ (s : State) (id : PipeId) (c : Ctx) (n : Nat), AtPipe id c s →
    let p := getPipe s id
    (p.inited = false → onlyAnswers (.finalizeW n) s ⟨.notInit, 0, 0⟩) ∧
    (p.inited = true →
      (p.wrState ≠ .grantBusy → onlyAnswers (.finalizeW n) s ⟨.badState, 0, 0⟩) ∧
      (∀ g f, p.wrState = .grantBusy → p.ring.wip = true → p.ring.wg = some g → p.ring.fw = some f →
        f.hdrLen ≤ g.len → g.start + g.len ≤ s.cfg.n →
        HeaderCarries s.cfg.hdrMode f.hdrLen (min n (g.len - f.hdrLen)) →
        ∃ buf, HeaderStored s.cfg.hdrMode f.hdrLen (min n (g.len - f.hdrLen)) g.start p.ring.buf buf ∧
          exec (.finalizeW n) s = .next (pipeNext s id
            { p with
              ring := { p.ring with
                buf := buf
                wip := false
                wg := none
                fw := none
                write := g.start + (f.hdrLen + min n (g.len - f.hdrLen))
                reserve := g.start + (f.hdrLen + min n (g.len - f.hdrLen))
                last := lastAfter s.cfg.n (g.start + (f.hdrLen + min n (g.len - f.hdrLen))) p.ring }
              wrSlot := false
              wrState := .idle
              wrClaim := none }
            ⟨.ok, 0, 0⟩)))

/-- R194, R195: `FINALIZE_R` and its encoding: the claimed frame is released whole, and the direction is `IDLE`
again. That the claimant record is cleared is the model's (log 5). -/
def Obligations.FinalizeRReleasesFrame : Prop :=
  EncodedZ 0x36 .finalizeR ∧ ∀ (s : State) (id : PipeId) (c : Ctx), AtPipe id c s →
    let p := getPipe s id
    (p.inited = false → onlyAnswers .finalizeR s ⟨.notInit, 0, 0⟩) ∧
    (p.inited = true →
      (p.rdState ≠ .grantBusy → onlyAnswers .finalizeR s ⟨.badState, 0, 0⟩) ∧
      (∀ g, p.rdState = .grantBusy → p.ring.rip = true → p.ring.rg = some g →
        exec .finalizeR s = .next (pipeNext s id
          { p with
            ring := { p.ring with read := p.ring.read + g.len, rip := false, rg := none, fr := none }
            rdSlot := false
            rdState := .idle
            rdClaim := none }
          ⟨.ok, 0, 0⟩)))

/-- R196, R198: `ABORT_W` and its encoding: a staged, unclaimed write grant is discarded, nothing is published and
no byte is stored. -/
def Obligations.AbortWDiscardsGrant : Prop :=
  EncodedZ 0x37 .abortW ∧ ∀ (s : State) (id : PipeId) (c : Ctx), AtPipe id c s →
    let p := getPipe s id
    (p.inited = false → onlyAnswers .abortW s ⟨.notInit, 0, 0⟩) ∧
    (p.inited = true →
      (p.wrState ≠ .grantReady → onlyAnswers .abortW s ⟨.badState, 0, 0⟩) ∧
      (∀ g f, p.wrState = .grantReady → p.ring.wip = true → p.ring.wg = some g → p.ring.fw = some f →
        exec .abortW s = .next (pipeNext s id
          { p with
            ring := { p.ring with wip := false, wg := none, fw := none, reserve := p.ring.write }
            wrSlot := false
            wrState := .idle }
          ⟨.ok, 0, 0⟩)))

/-- R197, R198: `ABORT_R` and its encoding: a staged, unclaimed read grant is given back and its frame stays in the
ring. -/
def Obligations.AbortRKeepsFrame : Prop :=
  EncodedZ 0x38 .abortR ∧ ∀ (s : State) (id : PipeId) (c : Ctx), AtPipe id c s →
    let p := getPipe s id
    (p.inited = false → onlyAnswers .abortR s ⟨.notInit, 0, 0⟩) ∧
    (p.inited = true →
      (p.rdState ≠ .grantReady → onlyAnswers .abortR s ⟨.badState, 0, 0⟩) ∧
      (∀ g f, p.rdState = .grantReady → p.ring.rip = true → p.ring.rg = some g → p.ring.fr = some f →
        exec .abortR s = .next (pipeNext s id
          { p with
            ring := { p.ring with rip := false, rg := none, fr := none }
            rdSlot := false
            rdState := .idle }
          ⟨.ok, 0, 0⟩)))

/-- R199: `QUERY_W` and `QUERY_R`, their encodings: they write nothing and answer the exposed pointer and length in
`GRANT_READY` and `GRANT_BUSY`. -/
def Obligations.QueriesAnswer : Prop :=
  EncodedZ 0x39 .queryW ∧ EncodedZ 0x3A .queryR ∧ ∀ (s : State) (id : PipeId) (c : Ctx), AtPipe id c s →
    let p := getPipe s id
    (p.inited = false → onlyAnswers .queryW s ⟨.notInit, 0, 0⟩ ∧ onlyAnswers .queryR s ⟨.notInit, 0, 0⟩) ∧
    (p.inited = true →
      (p.wrState = .idle → onlyAnswers .queryW s ⟨.notReady, 0, 0⟩) ∧
      (p.wrState ≠ .idle → onlyAnswers .queryW s ⟨.ok, p.wrPtr, p.wrLen⟩) ∧
      (p.rdState = .idle → onlyAnswers .queryR s ⟨.notReady, 0, 0⟩) ∧
      (p.rdState ≠ .idle → onlyAnswers .queryR s ⟨.ok, p.rdPtr, p.rdLen⟩))

/-- R200, R180: the complete transition function of the two state tags of an initialised Pipe, over every command at its
ports; no other transition exists, and the other Pipe does not change. -/
def Obligations.PipeTransitionFunction : Prop :=
  ∀ (s t : State) (id : PipeId) (c : Ctx) (i : Instr) (w : RespWord), AtPipe id c s →
    (getPipe s id).inited = true → exec i s = .next t → t.resp = some (s.cur, w) →
    (getPipe t id).wrState = (match i, (getPipe s id).wrState with
      | .stageW _, .idle => if respStatus w = 0 then .grantReady else .idle
      | .claimW, .grantReady => .grantBusy
      | .finalizeW _, .grantBusy => .idle
      | .abortW, .grantReady => .idle
      | _, tag => tag) ∧
    (getPipe t id).rdState = (match i, (getPipe s id).rdState with
      | .stageR, .idle => if respStatus w = 0 then .grantReady else .idle
      | .claimR, .grantReady => .grantBusy
      | .finalizeR, .grantBusy => .idle
      | .abortR, .grantReady => .idle
      | _, tag => tag) ∧
    (∀ k, k ≠ id → getPipe t k = getPipe s k)

/-- R32: no command on one direction writes or reads the other direction's tag or slot. A command of direction `W` does
the same whatever the tag and slot of `R` are, and leaves them as they are; a command of direction `R` likewise. -/
def Obligations.DirectionsAreIndependent : Prop :=
  ∀ (s t : State) (id : PipeId) (c : Ctx) (i : Instr) (tag : Tag) (slot : Bool), AtPipe id c s →
    exec i s = .next t →
    ((i = .claimW ∨ i = .abortW ∨ i = .queryW ∨ (∃ n, i = .stageW n) ∨ (∃ n, i = .finalizeW n)) →
      (getPipe t id).rdState = (getPipe s id).rdState ∧ (getPipe t id).rdSlot = (getPipe s id).rdSlot ∧
      exec i (setPipe s id { getPipe s id with rdState := tag, rdSlot := slot }) =
        .next (setPipe t id { getPipe t id with rdState := tag, rdSlot := slot })) ∧
    ((i = .claimR ∨ i = .abortR ∨ i = .queryR ∨ i = .stageR ∨ i = .finalizeR) →
      (getPipe t id).wrState = (getPipe s id).wrState ∧ (getPipe t id).wrSlot = (getPipe s id).wrSlot ∧
      exec i (setPipe s id { getPipe s id with wrState := tag, wrSlot := slot }) =
        .next (setPipe t id { getPipe t id with wrState := tag, wrSlot := slot }))

/-- R203: staging a write grant of `m` bytes on an empty Pipe, claiming it, finalizing it with `n <= m` bytes and staging
the read direction return `m` and then exactly `n`, with the tags of R180 along the way. -/
def Obligations.PipeEndToEnd : Prop :=
  ∀ (s : State) (id : PipeId) (c d : Ctx) (m n start : Nat), StateInv s → HasPipe s.cfg.level id →
    (getPipe s id).inited = true → (getPipe s id).wrState = .idle → (getPipe s id).rdState = .idle →
    (getPipe s id).ring.read = (getPipe s id).ring.write →
    (s.cfg.hdrMode = .varint ∨ m ≤ 65535) → n ≤ m →
    let h := hdrSize s.cfg.hdrMode m
    Placed s.cfg.n (m + h) (getPipe s id).ring start →
    ∃ t u v x, runAt [(.pipe id c, .stageW m)] s = some t ∧ (getPipe t id).wrState = .grantReady ∧
      t.resp = some (.pipe id c, respWord ⟨.ok, start + h, m⟩) ∧
      runAt [(.pipe id d, .claimW)] t = some u ∧ (getPipe u id).wrState = .grantBusy ∧
      u.resp = some (.pipe id d, respWord ⟨.ok, start + h, m⟩) ∧
      runAt [(.pipe id d, .finalizeW n)] u = some v ∧ (getPipe v id).wrState = .idle ∧
      (getPipe v id).ring.write = start + (h + n) ∧
      runAt [(.pipe id c, .stageR)] v = some x ∧ (getPipe x id).rdState = .grantReady ∧
      x.resp = some (.pipe id c, respWord ⟨.ok, start + h, n⟩)

/-! ## The DataPipes commands -/

/-- R221: `DP_INIT`, its encoding: it initialises each Pipe that is not initialised, leaves the others as they are, and
answers `OK` exactly if neither was. What happens to the count of draws and to the claimant records is the model's
(logs 3, 5). -/
def Obligations.DpInitInitialisesBoth : Prop :=
  EncodedZ 0x40 .dpInit ∧ ∀ s : State, AtDp s →
    let ready (p : Pipe) : Pipe :=
      if p.inited then p
      else { Pipe.reset s.cfg.n with
        inited := true
        ring := { Ring.reset s.cfg.n with buf := p.ring.buf, drawn := p.ring.drawn } }
    exec .dpInit s = .next
      { s with
        p0 := ready s.p0
        p1 := ready s.p1
        resp := some (.dp, respWord
          ⟨if s.p0.inited = false ∧ s.p1.inited = false then .ok else .notInit, 0, 0⟩) }

/-- R223: `IDLE_STEP`, its encoding: it answers `NOT_INIT` with no attempt made unless both Pipes are initialised; otherwise
its first step is the attempt `P0.STAGE_W(STAGE_MAX)`, a no-op, a failure or a success that is counted, and three attempts
remain. That the progress is a field of the state is the model's (log 6). -/
def Obligations.IdleStepStarts : Prop :=
  EncodedZ 0x41 .idleStep ∧ ∀ s : State, AtDp s →
    (s.p0.inited = false ∨ s.p1.inited = false → onlyAnswers .idleStep s ⟨.notInit, 0, 0⟩) ∧
    (s.p0.inited = true → s.p1.inited = true → s.p0.wrState ≠ .idle →
      exec .idleStep s = .next { s with idle := some ⟨.p0r, 0⟩ }) ∧
    (s.p0.inited = true → s.p1.inited = true → s.p0.wrState = .idle → s.p0.ring.wip = false →
      ((s.cfg.hdrMode = .fixed2 ∧ 65535 < s.cfg.stageMax) ∨
        ¬ ∃ start, Placed s.cfg.n (s.cfg.stageMax + hdrSize s.cfg.hdrMode s.cfg.stageMax) s.p0.ring start) →
      exec .idleStep s = .next { s with idle := some ⟨.p0r, 0⟩ }) ∧
    (∀ start, s.p0.inited = true → s.p1.inited = true → s.p0.wrState = .idle → s.p0.ring.wip = false →
      s.cfg.hdrMode = .varint ∨ s.cfg.stageMax ≤ 65535 →
      let h := hdrSize s.cfg.hdrMode s.cfg.stageMax
      Placed s.cfg.n (s.cfg.stageMax + h) s.p0.ring start →
      exec .idleStep s = .next
        { s with
          p0 := { s.p0 with
            ring := { s.p0.ring with
              wip := true
              reserve := start + (s.cfg.stageMax + h)
              wg := some ⟨start, s.cfg.stageMax + h⟩
              fw := some ⟨h, 0⟩ }
            wrSlot := true
            wrPtr := start + h
            wrLen := s.cfg.stageMax
            wrState := .grantReady }
          events := s.events ++ [⟨.p0, .w, start + h, s.cfg.stageMax⟩]
          idle := some ⟨.p0r, 1⟩ })

/-- R223, R70: each step of an `IDLE_STEP` is the command `STAGE_W(STAGE_MAX)` or `STAGE_R` on the Pipe and direction of its
turn, in the order of R223, with what that command does to the Pipe, its event, its success counted and its fault; after the
last one `IDLE_STEP` answers. In a legal state an `IDLE_STEP` with no other agent between its steps takes exactly four, then
answers `OK` with the number of attempts that succeeded, one `STAGED` event each. That the progress is a field of the state,
and that a next command for the `DP` port waits, is the model's (log 6). -/
def Obligations.IdleStepTakesFourSteps : Prop :=
  (∀ s : State, AtDp s → s.p0.inited = true → s.p1.inited = true →
    ∃ u w, exec (.stageW s.cfg.stageMax) { s with cur := .pipe .p0 .lp } = .next u ∧
      u.resp = some (.pipe .p0 .lp, w) ∧
      exec .idleStep s =
        .next { u with cur := .dp, resp := s.resp, idle := some ⟨.p0r, if respStatus w = 0 then 1 else 0⟩ }) ∧
  (∀ (s : State) (k : Attempt) (count : Nat) (rest : List Action), s.cfg.level = .datapipes →
    s.idle = some ⟨k, count⟩ → s.cfg.sched = .any ∨ s.handlers = 0 →
    s.inputs = .resume :: rest ∨ (∃ w more, s.inputs = .cmd .dp w :: more ∧ rest = s.inputs) →
    let turn := attemptCommand s.cfg.stageMax k
    let o := exec turn.2 { startStep s rest with cur := .pipe turn.1 .lp }
    (∀ u w, o = .next u → u.resp = some (.pipe turn.1 .lp, w) →
      step s = .next (attemptDone k (if respStatus w = 0 then count + 1 else count) u)) ∧
    (∀ f, o = .fault f → step s = .fault f)) ∧
  ∀ (s : State) (rest : List Action), StateInv s → s.cfg.level = .datapipes → s.idle = none →
    s.cfg.sched = .any ∨ s.handlers = 0 → s.p0.inited = true → s.p1.inited = true →
    s.inputs = .cmd .dp 0x41000000 :: .resume :: .resume :: .resume :: rest →
    (∃ t, runSteps 3 s = some t ∧ t.resp = none ∧ t.idle.isSome = true) ∧
    ∃ t evs, runSteps 4 s = some t ∧ t.idle = none ∧ t.inputs = rest ∧ t.events = s.events ++ evs ∧
      evs.length ≤ 4 ∧ t.resp = some (.dp, respWord ⟨.ok, 0, evs.length⟩)

/-- R224, R184, R187: a `STAGE_W` or `STAGE_R` emits one event, for its own Pipe and direction with the pointer and length
it answers, exactly if it answers `OK`; no other command but `IDLE_STEP` emits an event. The glue takes the oldest pending
event, and there must be one: that events wait in a queue is the model's (log 18). -/
def Obligations.EventsExactlyOnStaging : Prop :=
  (∀ (s : State) (rest : List Action), s.inputs = .takeEvent :: rest →
    (∀ e more, s.events = e :: more → step s = .next { startStep s rest with events := more }) ∧
    (s.events = [] → step s = .refused .stepNotEnabled)) ∧
  ∀ (i : Instr) (s t : State), exec i s = .next t →
    (i ≠ .idleStep → (∀ m, i ≠ .stageW m) → i ≠ .stageR → t.events = s.events) ∧
    (∀ id c m, s.cur = .pipe id c → i = .stageW m →
      (∃ st, st ≠ Status.ok ∧ t.resp = some (s.cur, respWord ⟨st, 0, 0⟩) ∧ t.events = s.events) ∨
      (∃ ptr len, t.resp = some (s.cur, respWord ⟨.ok, ptr, len⟩) ∧
        t.events = s.events ++ [⟨id, .w, ptr, len⟩])) ∧
    (∀ id c, s.cur = .pipe id c → i = .stageR →
      (∃ st, st ≠ Status.ok ∧ t.resp = some (s.cur, respWord ⟨st, 0, 0⟩) ∧ t.events = s.events) ∨
      (∃ ptr len, t.resp = some (s.cur, respWord ⟨.ok, ptr, len⟩) ∧
        t.events = s.events ++ [⟨id, .r, ptr, len⟩]))

/-! ## Byte accesses -/

/-- R64, R65, R66, R69: a byte write that the ownership rules admit stores that byte of that ring and changes nothing else; any
other is the fault `AccessOutsideGrant`. Which context holds a grant is the model's record: the driver of the producer port
(log 11), the claimant of a Pipe's grant (log 5). -/
def Obligations.ByteWritesObeyOwnership : Prop :=
  ∀ (s : State) (a : Agent) (off : Nat) (v : Byte) (rest : List Action),
    s.inputs = .bufWrite a off v :: rest → actionEnabled s (.bufWrite a off v) = true →
    (WriteAdmitted s a off → ∃ m, step s = .next (setRing (startStep s rest) (agentPipe a)
        { (getPipe s (agentPipe a)).ring with buf := m }) ∧
      memGet? m off = some v ∧
      ∀ k, k ≠ off → memGet? m k = memGet? (getPipe s (agentPipe a)).ring.buf k) ∧
    (¬ WriteAdmitted s a off → step s = .fault .accessOutsideGrant)

/-- R62, R64, R65, R66, R69: a byte read that the ownership rules admit returns that byte, and of a byte that nothing has written
since reset the next draw; it changes no byte. Any other is the fault `AccessOutsideGrant`. Which context holds a grant is
the model's record: the driver of a port (log 11), the claimant of a Pipe's grant (log 5); so is the count of draws (log 3). -/
def Obligations.ByteReadsObeyOwnership : Prop :=
  ∀ (s : State) (a : Agent) (off : Nat) (rest : List Action),
    s.inputs = .bufRead a off :: rest → actionEnabled s (.bufRead a off) = true →
    let r := (getPipe s (agentPipe a)).ring
    (∀ v, ReadAdmitted s a off → memGet? r.buf off = some v →
      step s = .next { startStep s rest with rdata := some ⟨a, off, v⟩ }) ∧
    (ReadAdmitted s a off → memGet? r.buf off = none →
      step s = .next { setRing (startStep s rest) (agentPipe a) { r with drawn := r.drawn + 1 } with
        rdata := some ⟨a, off, Config.freeByte (agentPipe a) r.drawn⟩ }) ∧
    (¬ ReadAdmitted s a off → step s = .fault .accessOutsideGrant)

/-- R62, R156: in a legal state the only bytes that a command stores are those of the frame header of the grant that an
`FCOMMIT`, a committing `FDROP_W` or a `FINALIZE_W` finishes. -/
def Obligations.BlockStoresOnlyHeaders : Prop :=
  ∀ (i : Instr) (s t : State) (id : PipeId) (off : Nat), StateInv s → exec i s = .next t →
    memGet? (getPipe t id).ring.buf off ≠ memGet? (getPipe s id).ring.buf off →
    ((∃ n, i = .fcommit n) ∨ i = .fdropW ∨ (∃ n, i = .finalizeW n)) ∧
    ∃ g f, (getPipe s id).ring.wg = some g ∧ (getPipe s id).ring.fw = some f ∧ Within g.start f.hdrLen off

/-- R64, R66, R42: a byte write that the ownership rules admit in a legal state changes no unread byte of either ring. -/
def Obligations.ByteWritesSpareUnreadData : Prop :=
  ∀ (s t : State) (a : Agent) (off : Nat) (v : Byte) (id : PipeId), StateInv s →
    bufWrite a off v s = .next t → unreadBytes (getPipe t id).ring = unreadBytes (getPipe s id).ring

/-! ## Legal states -/

/-- R42, R33, R260: every instance with parameters in their bounds is legal after reset. `State.reset` is one of these:
which one is the model's choice (log 1). -/
def Obligations.ResetIsLegal : Prop :=
  (∀ cfg : Config, cfg.WellFormed → StateInv (State.resetOf cfg)) ∧
  State.reset = State.resetOf Config.reference ∧ StateInv State.reset

/-- R42, R33, R162, R201: every step of every agent keeps the state legal: the cursors and the reservation, the canonical
storage, the frames of the unread data, the tags, slots and flags of both Pipes. -/
def Obligations.StepKeepsStateLegal : Prop :=
  ∀ s t : State, StateInv s → step s = .next t → StateInv t

/-- R121, R235, R284: in a legal state every command, with any operand and at any port, answers: none faults, none is
refused. -/
def Obligations.EveryCommandAnswers : Prop :=
  ∀ (s : State) (i : Instr), StateInv s → ∃ t, exec i s = .next t

/-- R163: in a legal state no step of any agent meets a corrupt frame. -/
def Obligations.NoStepMeetsCorruptFrame : Prop :=
  ∀ s : State, StateInv s → step s ≠ .fault .corruptFrame
end

