-- ==== Sys2Proof/Laws/State.lean ====
section
/-! SUPPORT. One small lemma per field per update of the state, each true by unfolding the update. -/

namespace Sys2Proof.Machine

/-! ## Flag updates of a ring (R21, R26) -/

@[simp] theorem setWriteGrant_write (st len : Nat) (r : Ring) : (setWriteGrant st len r).write = r.write := rfl
@[simp] theorem setWriteGrant_read (st len : Nat) (r : Ring) : (setWriteGrant st len r).read = r.read := rfl
@[simp] theorem setWriteGrant_last (st len : Nat) (r : Ring) : (setWriteGrant st len r).last = r.last := rfl
@[simp] theorem setWriteGrant_reserve (st len : Nat) (r : Ring) : (setWriteGrant st len r).reserve = st + len := rfl
@[simp] theorem setWriteGrant_wip (st len : Nat) (r : Ring) : (setWriteGrant st len r).wip = true := rfl
@[simp] theorem setWriteGrant_rip (st len : Nat) (r : Ring) : (setWriteGrant st len r).rip = r.rip := rfl
@[simp] theorem setWriteGrant_wg (st len : Nat) (r : Ring) : (setWriteGrant st len r).wg = some ⟨st, len⟩ := rfl
@[simp] theorem setWriteGrant_rg (st len : Nat) (r : Ring) : (setWriteGrant st len r).rg = r.rg := rfl
@[simp] theorem setWriteGrant_fw (st len : Nat) (r : Ring) : (setWriteGrant st len r).fw = r.fw := rfl
@[simp] theorem setWriteGrant_fr (st len : Nat) (r : Ring) : (setWriteGrant st len r).fr = r.fr := rfl
@[simp] theorem setWriteGrant_buf (st len : Nat) (r : Ring) : (setWriteGrant st len r).buf = r.buf := rfl
@[simp] theorem setWriteGrant_drawn (st len : Nat) (r : Ring) : (setWriteGrant st len r).drawn = r.drawn := rfl
@[simp] theorem clearWriteGrant_write (r : Ring) : (clearWriteGrant r).write = r.write := rfl
@[simp] theorem clearWriteGrant_read (r : Ring) : (clearWriteGrant r).read = r.read := rfl
@[simp] theorem clearWriteGrant_last (r : Ring) : (clearWriteGrant r).last = r.last := rfl
@[simp] theorem clearWriteGrant_reserve (r : Ring) : (clearWriteGrant r).reserve = r.reserve := rfl
@[simp] theorem clearWriteGrant_wip (r : Ring) : (clearWriteGrant r).wip = false := rfl
@[simp] theorem clearWriteGrant_rip (r : Ring) : (clearWriteGrant r).rip = r.rip := rfl
@[simp] theorem clearWriteGrant_wg (r : Ring) : (clearWriteGrant r).wg = none := rfl
@[simp] theorem clearWriteGrant_rg (r : Ring) : (clearWriteGrant r).rg = r.rg := rfl
@[simp] theorem clearWriteGrant_fw (r : Ring) : (clearWriteGrant r).fw = r.fw := rfl
@[simp] theorem clearWriteGrant_fr (r : Ring) : (clearWriteGrant r).fr = r.fr := rfl
@[simp] theorem clearWriteGrant_buf (r : Ring) : (clearWriteGrant r).buf = r.buf := rfl
@[simp] theorem clearWriteGrant_drawn (r : Ring) : (clearWriteGrant r).drawn = r.drawn := rfl
@[simp] theorem setReadGrant_write (st len : Nat) (r : Ring) : (setReadGrant st len r).write = r.write := rfl
@[simp] theorem setReadGrant_read (st len : Nat) (r : Ring) : (setReadGrant st len r).read = r.read := rfl
@[simp] theorem setReadGrant_last (st len : Nat) (r : Ring) : (setReadGrant st len r).last = r.last := rfl
@[simp] theorem setReadGrant_reserve (st len : Nat) (r : Ring) : (setReadGrant st len r).reserve = r.reserve := rfl
@[simp] theorem setReadGrant_wip (st len : Nat) (r : Ring) : (setReadGrant st len r).wip = r.wip := rfl
@[simp] theorem setReadGrant_rip (st len : Nat) (r : Ring) : (setReadGrant st len r).rip = true := rfl
@[simp] theorem setReadGrant_wg (st len : Nat) (r : Ring) : (setReadGrant st len r).wg = r.wg := rfl
@[simp] theorem setReadGrant_rg (st len : Nat) (r : Ring) : (setReadGrant st len r).rg = some ⟨st, len⟩ := rfl
@[simp] theorem setReadGrant_fw (st len : Nat) (r : Ring) : (setReadGrant st len r).fw = r.fw := rfl
@[simp] theorem setReadGrant_fr (st len : Nat) (r : Ring) : (setReadGrant st len r).fr = r.fr := rfl
@[simp] theorem setReadGrant_buf (st len : Nat) (r : Ring) : (setReadGrant st len r).buf = r.buf := rfl
@[simp] theorem setReadGrant_drawn (st len : Nat) (r : Ring) : (setReadGrant st len r).drawn = r.drawn := rfl
@[simp] theorem clearReadGrant_write (r : Ring) : (clearReadGrant r).write = r.write := rfl
@[simp] theorem clearReadGrant_read (r : Ring) : (clearReadGrant r).read = r.read := rfl
@[simp] theorem clearReadGrant_last (r : Ring) : (clearReadGrant r).last = r.last := rfl
@[simp] theorem clearReadGrant_reserve (r : Ring) : (clearReadGrant r).reserve = r.reserve := rfl
@[simp] theorem clearReadGrant_wip (r : Ring) : (clearReadGrant r).wip = r.wip := rfl
@[simp] theorem clearReadGrant_rip (r : Ring) : (clearReadGrant r).rip = false := rfl
@[simp] theorem clearReadGrant_wg (r : Ring) : (clearReadGrant r).wg = r.wg := rfl
@[simp] theorem clearReadGrant_rg (r : Ring) : (clearReadGrant r).rg = none := rfl
@[simp] theorem clearReadGrant_fw (r : Ring) : (clearReadGrant r).fw = r.fw := rfl
@[simp] theorem clearReadGrant_fr (r : Ring) : (clearReadGrant r).fr = r.fr := rfl
@[simp] theorem clearReadGrant_buf (r : Ring) : (clearReadGrant r).buf = r.buf := rfl
@[simp] theorem clearReadGrant_drawn (r : Ring) : (clearReadGrant r).drawn = r.drawn := rfl

/-! ## Updates of the instance -/

@[simp] theorem answer_cfg (s : State) (a : Resp) : (answer s a).cfg = s.cfg := rfl
@[simp] theorem answer_p0 (s : State) (a : Resp) : (answer s a).p0 = s.p0 := rfl
@[simp] theorem answer_p1 (s : State) (a : Resp) : (answer s a).p1 = s.p1 := rfl
@[simp] theorem answer_events (s : State) (a : Resp) : (answer s a).events = s.events := rfl
@[simp] theorem answer_idle (s : State) (a : Resp) : (answer s a).idle = s.idle := rfl
@[simp] theorem answer_resp (s : State) (a : Resp) : (answer s a).resp = some (s.cur, respWord a) := rfl
@[simp] theorem answer_rdata (s : State) (a : Resp) : (answer s a).rdata = s.rdata := rfl
@[simp] theorem answer_cur (s : State) (a : Resp) : (answer s a).cur = s.cur := rfl
@[simp] theorem answer_inputs (s : State) (a : Resp) : (answer s a).inputs = s.inputs := rfl
@[simp] theorem answer_handlers (s : State) (a : Resp) : (answer s a).handlers = s.handlers := rfl
@[simp] theorem answer_prodBy (s : State) (a : Resp) : (answer s a).prodBy = s.prodBy := rfl
@[simp] theorem answer_consBy (s : State) (a : Resp) : (answer s a).consBy = s.consBy := rfl
@[simp] theorem emit_cfg (s : State) (e : Staged) : (emit s e).cfg = s.cfg := rfl
@[simp] theorem emit_p0 (s : State) (e : Staged) : (emit s e).p0 = s.p0 := rfl
@[simp] theorem emit_p1 (s : State) (e : Staged) : (emit s e).p1 = s.p1 := rfl
@[simp] theorem emit_events (s : State) (e : Staged) : (emit s e).events = s.events ++ [e] := rfl
@[simp] theorem emit_idle (s : State) (e : Staged) : (emit s e).idle = s.idle := rfl
@[simp] theorem emit_resp (s : State) (e : Staged) : (emit s e).resp = s.resp := rfl
@[simp] theorem emit_rdata (s : State) (e : Staged) : (emit s e).rdata = s.rdata := rfl
@[simp] theorem emit_cur (s : State) (e : Staged) : (emit s e).cur = s.cur := rfl
@[simp] theorem emit_inputs (s : State) (e : Staged) : (emit s e).inputs = s.inputs := rfl
@[simp] theorem emit_handlers (s : State) (e : Staged) : (emit s e).handlers = s.handlers := rfl
@[simp] theorem emit_prodBy (s : State) (e : Staged) : (emit s e).prodBy = s.prodBy := rfl
@[simp] theorem emit_consBy (s : State) (e : Staged) : (emit s e).consBy = s.consBy := rfl
@[simp] theorem startStep_cfg (s : State) (rest : List Action) : (startStep s rest).cfg = s.cfg := rfl
@[simp] theorem startStep_p0 (s : State) (rest : List Action) : (startStep s rest).p0 = s.p0 := rfl
@[simp] theorem startStep_p1 (s : State) (rest : List Action) : (startStep s rest).p1 = s.p1 := rfl
@[simp] theorem startStep_events (s : State) (rest : List Action) : (startStep s rest).events = s.events := rfl
@[simp] theorem startStep_idle (s : State) (rest : List Action) : (startStep s rest).idle = s.idle := rfl
@[simp] theorem startStep_resp (s : State) (rest : List Action) : (startStep s rest).resp = none := rfl
@[simp] theorem startStep_rdata (s : State) (rest : List Action) : (startStep s rest).rdata = none := rfl
@[simp] theorem startStep_cur (s : State) (rest : List Action) : (startStep s rest).cur = s.cur := rfl
@[simp] theorem startStep_inputs (s : State) (rest : List Action) : (startStep s rest).inputs = rest := rfl
@[simp] theorem startStep_handlers (s : State) (rest : List Action) : (startStep s rest).handlers = s.handlers := rfl
@[simp] theorem startStep_prodBy (s : State) (rest : List Action) : (startStep s rest).prodBy = s.prodBy := rfl
@[simp] theorem startStep_consBy (s : State) (rest : List Action) : (startStep s rest).consBy = s.consBy := rfl
@[simp] theorem setPipe_cfg (s : State) (id : PipeId) (p : Pipe) : (setPipe s id p).cfg = s.cfg := by
  cases id <;> rfl
@[simp] theorem setPipe_events (s : State) (id : PipeId) (p : Pipe) : (setPipe s id p).events = s.events := by
  cases id <;> rfl
@[simp] theorem setPipe_idle (s : State) (id : PipeId) (p : Pipe) : (setPipe s id p).idle = s.idle := by
  cases id <;> rfl
@[simp] theorem setPipe_resp (s : State) (id : PipeId) (p : Pipe) : (setPipe s id p).resp = s.resp := by
  cases id <;> rfl
@[simp] theorem setPipe_rdata (s : State) (id : PipeId) (p : Pipe) : (setPipe s id p).rdata = s.rdata := by
  cases id <;> rfl
@[simp] theorem setPipe_cur (s : State) (id : PipeId) (p : Pipe) : (setPipe s id p).cur = s.cur := by
  cases id <;> rfl
@[simp] theorem setPipe_inputs (s : State) (id : PipeId) (p : Pipe) : (setPipe s id p).inputs = s.inputs := by
  cases id <;> rfl
@[simp] theorem setPipe_handlers (s : State) (id : PipeId) (p : Pipe) : (setPipe s id p).handlers = s.handlers := by
  cases id <;> rfl
@[simp] theorem setPipe_prodBy (s : State) (id : PipeId) (p : Pipe) : (setPipe s id p).prodBy = s.prodBy := by
  cases id <;> rfl
@[simp] theorem setPipe_consBy (s : State) (id : PipeId) (p : Pipe) : (setPipe s id p).consBy = s.consBy := by
  cases id <;> rfl
@[simp] theorem setRing_cfg (s : State) (id : PipeId) (r : Ring) : (setRing s id r).cfg = s.cfg := by
  cases id <;> rfl
@[simp] theorem setRing_events (s : State) (id : PipeId) (r : Ring) : (setRing s id r).events = s.events := by
  cases id <;> rfl
@[simp] theorem setRing_idle (s : State) (id : PipeId) (r : Ring) : (setRing s id r).idle = s.idle := by
  cases id <;> rfl
@[simp] theorem setRing_resp (s : State) (id : PipeId) (r : Ring) : (setRing s id r).resp = s.resp := by
  cases id <;> rfl
@[simp] theorem setRing_rdata (s : State) (id : PipeId) (r : Ring) : (setRing s id r).rdata = s.rdata := by
  cases id <;> rfl
@[simp] theorem setRing_cur (s : State) (id : PipeId) (r : Ring) : (setRing s id r).cur = s.cur := by
  cases id <;> rfl
@[simp] theorem setRing_inputs (s : State) (id : PipeId) (r : Ring) : (setRing s id r).inputs = s.inputs := by
  cases id <;> rfl
@[simp] theorem setRing_handlers (s : State) (id : PipeId) (r : Ring) : (setRing s id r).handlers = s.handlers := by
  cases id <;> rfl
@[simp] theorem setRing_prodBy (s : State) (id : PipeId) (r : Ring) : (setRing s id r).prodBy = s.prodBy := by
  cases id <;> rfl
@[simp] theorem setRing_consBy (s : State) (id : PipeId) (r : Ring) : (setRing s id r).consBy = s.consBy := by
  cases id <;> rfl

@[simp] theorem setPipe_p0_p0 (s : State) (p : Pipe) : (setPipe s .p0 p).p0 = p := rfl
@[simp] theorem setPipe_p0_p1 (s : State) (p : Pipe) : (setPipe s .p0 p).p1 = s.p1 := rfl
@[simp] theorem setPipe_p1_p0 (s : State) (p : Pipe) : (setPipe s .p1 p).p0 = s.p0 := rfl
@[simp] theorem setPipe_p1_p1 (s : State) (p : Pipe) : (setPipe s .p1 p).p1 = p := rfl
@[simp] theorem getPipe_p0 (s : State) : getPipe s .p0 = s.p0 := rfl
@[simp] theorem getPipe_p1 (s : State) : getPipe s .p1 = s.p1 := rfl

@[simp] theorem getPipe_setPipe_same (s : State) (id : PipeId) (p : Pipe) :
    getPipe (setPipe s id p) id = p := by
  cases id <;> rfl

theorem getPipe_setPipe_other {s : State} {id k : PipeId} {p : Pipe} (h : k ≠ id) :
    getPipe (setPipe s id p) k = getPipe s k := by
  cases id <;> cases k <;> first | rfl | exact absurd rfl h

@[simp] theorem getPipe_answer (s : State) (a : Resp) (id : PipeId) :
    getPipe (answer s a) id = getPipe s id := by
  cases id <;> rfl

@[simp] theorem getPipe_emit (s : State) (e : Staged) (id : PipeId) :
    getPipe (emit s e) id = getPipe s id := by
  cases id <;> rfl

@[simp] theorem setPipe_getPipe (s : State) (id : PipeId) : setPipe s id (getPipe s id) = s := by
  cases id <;> rfl

@[simp] theorem getPipe_startStep (s : State) (rest : List Action) (id : PipeId) :
    getPipe (startStep s rest) id = getPipe s id := by
  cases id <;> rfl

@[simp] theorem bare_status (st : Status) : (bare st).status = st := rfl
@[simp] theorem bare_ptr (st : Status) : (bare st).ptr = 0 := rfl
@[simp] theorem bare_len (st : Status) : (bare st).len = 0 := rfl

end Sys2Proof.Machine
end

