-- ==== Sys2Proof/Laws/Agents.lean ====
section
/-! SUPPORT. What each way for an action to reach the block can do, said once (R77, R90, R223, R242). -/

namespace Sys2Proof.Machine

/-- Who may step: anyone under `ANY`; under `SINGLE_CORE_PRIORITY` the loop while no handler is active, and inside an
`IDLE_STEP` only to go on with it, or a handler while one is active (R241, R242). -/
theorem ctxMayStep_iff (s : State) (a : Action) (c : Ctx) :
    ctxMayStep s a c = true ↔ s.cfg.sched = .any ∨
      (c = .lp ∧ s.handlers = 0 ∧ (s.idle = none ∨ continuesLoop a = true)) ∨ (c = .hp ∧ s.handlers ≠ 0) := by
  cases hs : s.cfg.sched <;> cases c <;> simp [ctxMayStep, hs]

/-- A step that the schedule may not contain is refused and changes nothing (R242). -/
theorem step_disabled {s : State} {a : Action} {rest : List Action} (hs : s.inputs = a :: rest)
    (he : actionEnabled s a = false) : step s = .refused .stepNotEnabled := by
  simp [step, fetch, hs, he]

/-- A command that may arrive is fetched at its port (R90). -/
theorem fetch_command {s : State} {p : Port} {w : Word} {rest : List Action} (hs : s.inputs = .cmd p w :: rest)
    (he : actionEnabled s (.cmd p w) = true) : fetch s = fetchCommand p w rest s := by
  simp [fetch, hs, he]

/-- The loop's next attempt, by `resume` (R223). -/
theorem step_resume {s : State} {rest : List Action} {run : IdleRun} (hs : s.inputs = .resume :: rest)
    (hi : s.idle = some run) (he : actionEnabled s .resume = true) : step s = resumeIdle run rest s := by
  simp [step, fetch, hs, hi, he]

/-- A word arriving at a port is deliver with the port's driver recorded, or a second context drives the port
(R77, R99). -/
theorem acceptWord_cases (p : Port) (w : Word) (s : State) :
    (∃ c, p = .producer c ∧ drivenByOther s.prodBy c = true ∧ acceptWord p w s = .done (.fault .secondProducer)) ∨
    (∃ c, p = .consumer c ∧ drivenByOther s.consBy c = true ∧ acceptWord p w s = .done (.fault .secondConsumer)) ∨
    (∃ c, p = .producer c ∧ drivenByOther s.prodBy c = false ∧
      acceptWord p w s = deliver w { s with cur := p, prodBy := some c }) ∨
    (∃ c, p = .consumer c ∧ drivenByOther s.consBy c = false ∧
      acceptWord p w s = deliver w { s with cur := p, consBy := some c }) ∨
    ((p = .dp ∨ ∃ id c, p = .pipe id c) ∧ acceptWord p w s = deliver w { s with cur := p }) := by
  cases p with
  | producer c =>
    cases h : drivenByOther s.prodBy c
    · exact .inr (.inr (.inl ⟨c, rfl, h, by simp [acceptWord, h]⟩))
    · exact .inl ⟨c, rfl, h, by simp [acceptWord, h]⟩
  | consumer c =>
    cases h : drivenByOther s.consBy c
    · exact .inr (.inr (.inr (.inl ⟨c, rfl, h, by simp [acceptWord, h]⟩)))
    · exact .inr (.inl ⟨c, rfl, h, by simp [acceptWord, h]⟩)
  | pipe id c => exact .inr (.inr (.inr (.inr ⟨.inr ⟨id, c, rfl⟩, rfl⟩)))
  | dp => exact .inr (.inr (.inr (.inr ⟨.inl rfl, rfl⟩)))

/-- A command word is refused where the port does not exist, waits while an `IDLE_STEP` runs, or is accepted (R90). -/
theorem fetchCommand_cases (p : Port) (w : Word) (rest : List Action) (s : State) :
    (hasPort s.cfg.level p = false ∧ fetchCommand p w rest s = .done (.refused .noSuchPort)) ∨
    (∃ run, hasPort s.cfg.level p = true ∧ p = .dp ∧ s.idle = some run ∧
      fetchCommand p w rest s = .done (resumeIdle run s.inputs s)) ∨
    (hasPort s.cfg.level p = true ∧ (p = .dp → s.idle = none) ∧
      fetchCommand p w rest s = acceptWord p w (startStep s rest)) := by
  unfold fetchCommand
  cases h : hasPort s.cfg.level p
  · exact .inl ⟨rfl, rfl⟩
  · cases hi : s.idle with
    | none => exact .inr (.inr ⟨rfl, fun _ => rfl, by cases p <;> simp⟩)
    | some run =>
      cases p with
      | dp => exact .inr (.inl ⟨run, rfl, rfl, rfl, rfl⟩)
      | _ => exact .inr (.inr ⟨rfl, nofun, by simp⟩)

end Sys2Proof.Machine
end

