-- ==== Sys2Proof/Laws/Memory.lean ====
section
/-! SUPPORT. The byte storage: a read after a write, what a write leaves alone, and the canonical form, which every
operation keeps (R60, R62). -/

namespace Sys2Proof.Machine

/-- A byte set is read back, and every other offset reads as before. -/
theorem cellsGet?_set (cs : List Host.Cell) (off k : Nat) (v : Byte) :
    cellsGet? (cellsSet cs off v) k = if off = k then some v else cellsGet? cs k := by
  induction cs with
  | nil => simp [cellsSet, cellsGet?]
  | cons c t ih =>
    obtain ⟨a, w⟩ := c
    rcases Nat.lt_trichotomy off a with h | h | h
    · simp [cellsSet, cellsGet?, h]
    · subst h; by_cases hk : off = k <;> simp [cellsSet, cellsGet?, hk]
    · have h1 : ¬ off < a := by omega
      have h2 : off ≠ a := by omega
      by_cases hk : a = k
      · subst hk; simp [cellsSet, cellsGet?, h1, h2]
      · simp [cellsSet, cellsGet?, h1, h2, hk, ih]

theorem memGet?_set (m : Memory) (off k : Nat) (v : Byte) :
    memGet? (memSet m off v) k = if off = k then some v else memGet? m k :=
  cellsGet?_set m.cells off k v

theorem memGet?_set_same (m : Memory) (off : Nat) (v : Byte) :
    memGet? (memSet m off v) off = some v := by
  simp [memGet?_set]

theorem memGet?_set_other (m : Memory) {off k : Nat} (v : Byte) (h : k ≠ off) :
    memGet? (memSet m off v) k = memGet? m k := by
  simp [memGet?_set, h.symm]

/-- What bytes set from `off` on leave alone. -/
theorem memGet?_setBytes_outside (m : Memory) (off k : Nat) (vs : List Byte)
    (h : k < off ∨ off + vs.length ≤ k) : memGet? (memSetBytes m off vs) k = memGet? m k := by
  induction vs generalizing m off with
  | nil => rfl
  | cons v vs ih =>
    simp only [List.length_cons] at h
    rw [memSetBytes, ih _ _ (by omega), memGet?_set_other _ _ (by omega)]

/-- Bytes set from `off` on are read back. -/
theorem memGet?_setBytes_inside (m : Memory) (off i : Nat) (vs : List Byte) (h : i < vs.length) :
    memGet? (memSetBytes m off vs) (off + i) = vs[i]? := by
  induction vs generalizing m off i with
  | nil => simp at h
  | cons v vs ih =>
    rw [memSetBytes]
    cases i with
    | zero => simp [memGet?_setBytes_outside, memGet?_set_same]
    | succ i =>
      have := ih (memSet m off v) (off + 1) i (by simpa using h)
      simpa [Nat.add_assoc, Nat.add_comm 1 i] using this

/-- Setting a byte keeps the offsets of the canonical form strictly rising. -/
theorem cellsSet_wf {cs : List Host.Cell} (off : Nat) (v : Byte)
    (h : cs.Pairwise (fun x y => x.1 < y.1)) :
    (cellsSet cs off v).Pairwise (fun x y => x.1 < y.1) ∧
      ∀ b, (b < off ∧ ∀ c ∈ cs, b < c.1) → ∀ c ∈ cellsSet cs off v, b < c.1 := by
  induction cs with
  | nil => simp [cellsSet]
  | cons c t ih =>
    obtain ⟨a, w⟩ := c
    obtain ⟨ha, ht⟩ := List.pairwise_cons.1 h
    obtain ⟨ih1, ih2⟩ := ih ht
    simp only [cellsSet]
    split
    · next hlt =>
      refine ⟨List.pairwise_cons.2 ⟨?_, h⟩, ?_⟩
      · intro d hd
        rcases List.mem_cons.1 hd with rfl | hd
        · exact hlt
        · exact Nat.lt_trans hlt (ha d hd)
      · rintro b ⟨hb, hall⟩ d hd
        rcases List.mem_cons.1 hd with rfl | hd
        · exact hb
        · exact hall d hd
    · next hge =>
      split
      · next heq =>
        subst heq
        refine ⟨List.pairwise_cons.2 ⟨ha, ht⟩, ?_⟩
        rintro b ⟨hb, hall⟩ d hd
        rcases List.mem_cons.1 hd with rfl | hd
        · exact hb
        · exact hall d (List.mem_cons_of_mem _ hd)
      · next hne =>
        refine ⟨List.pairwise_cons.2 ⟨ih2 a ⟨by omega, ha⟩, ih1⟩, ?_⟩
        rintro b ⟨hb, hall⟩ d hd
        rcases List.mem_cons.1 hd with rfl | hd
        · exact hall (a, w) (List.mem_cons_self ..)
        · exact ih2 b ⟨hb, fun c hc => hall c (List.mem_cons_of_mem _ hc)⟩ d hd

theorem memSet_wf {m : Memory} (off : Nat) (v : Byte) (h : m.wf) : (memSet m off v).wf :=
  (cellsSet_wf off v h).1

theorem memSetBytes_wf {m : Memory} (off : Nat) (vs : List Byte) (h : m.wf) :
    (memSetBytes m off vs).wf := by
  induction vs generalizing m off with
  | nil => exact h
  | cons v vs ih => exact ih _ (memSet_wf off v h)

/-- Reading bytes writes none: only the count of draws may change. -/
theorem readByte_frame (free : Nat → Byte) (off : Nat) (r : Ring) :
    ∃ k, (readByte free off r).1 = { r with drawn := k } := by
  unfold readByte
  split
  · exact ⟨r.drawn, rfl⟩
  · exact ⟨r.drawn + 1, rfl⟩

theorem readBytes_frame (free : Nat → Byte) (n off : Nat) (r : Ring) :
    ∃ k, (readBytes free n off r).1 = { r with drawn := k } := by
  induction n generalizing off r with
  | zero => exact ⟨r.drawn, rfl⟩
  | succ n ih =>
    obtain ⟨k₁, h₁⟩ := readByte_frame free off r
    obtain ⟨k₂, h₂⟩ := ih (off + 1) (readByte free off r).1
    refine ⟨k₂, ?_⟩
    show (readBytes free n (off + 1) (readByte free off r).1).1 = _
    rw [h₂, h₁]

/-- Reading written bytes takes no draw and gives what the storage holds. -/
theorem readBytes_written (free : Nat → Byte) (n off : Nat) (r : Ring) (bs : List Byte)
    (h : writtenBytes r.buf off n = some bs) : readBytes free n off r = (r, bs) := by
  induction n generalizing off bs with
  | zero => simp [writtenBytes] at h; simp [readBytes, ← h]
  | succ n ih =>
    simp only [writtenBytes] at h
    split at h
    · next b bs' h1 h2 =>
      obtain rfl : b :: bs' = bs := by simpa using h
      simp [readBytes, readByte, h1, ih _ _ h2]
    · simp at h

theorem writtenBytes_length {m : Memory} {n off : Nat} {bs : List Byte}
    (h : writtenBytes m off n = some bs) : bs.length = n := by
  induction n generalizing off bs with
  | zero => simp [writtenBytes] at h; simp [← h]
  | succ n ih =>
    simp only [writtenBytes] at h
    split at h
    · next b bs' h1 h2 =>
      obtain rfl : b :: bs' = bs := by simpa using h
      simp [ih h2]
    · simp at h

/-- Written bytes depend only on the region they stand in. -/
theorem writtenBytes_congr {m m' : Memory} {n a : Nat}
    (h : ∀ k, a ≤ k → k < a + n → memGet? m' k = memGet? m k) :
    writtenBytes m' a n = writtenBytes m a n := by
  induction n generalizing a with
  | zero => rfl
  | succ n ih =>
    simp only [writtenBytes]
    rw [h a (by omega) (by omega), ih (fun k h1 h2 => h k (by omega) (by omega))]

/-- Bytes just stored are written bytes. -/
theorem writtenBytes_setBytes (m : Memory) (a : Nat) (vs : List Byte) :
    writtenBytes (memSetBytes m a vs) a vs.length = some vs := by
  induction vs generalizing m a with
  | nil => rfl
  | cons v vs ih =>
    have h0 : memGet? (memSetBytes m a (v :: vs)) a = some v := by
      simpa using memGet?_setBytes_inside m a 0 (v :: vs) (by simp)
    simp only [List.length_cons, writtenBytes, h0]
    rw [memSetBytes, ih]

/-- The storage of a ring after reset has the canonical form. -/
theorem reset_storage_wf (n : Nat) : (Ring.reset n).buf.wf := List.Pairwise.nil

end Sys2Proof.Machine
end

