-- ==== Sys2Proof/Laws/Frames.lean ====
section
/-! SUPPORT. Sequences of frames in the storage (R102): they depend only on the region they stand in, they are put end
to end, and a storage holds at most one. -/

namespace Sys2Proof.Machine

theorem hdrSizeOf_pos (mode : HdrMode) (b : Byte) : 1 ≤ hdrSizeOf mode b := by
  cases mode <;> simp [hdrSizeOf]

/-- What a header at `a` says of the bytes there. -/
theorem headerAt_some {mode : HdrMode} {m : Memory} {a h p : Nat} (hd : headerAt mode m a = some (h, p)) :
    ∃ b0 bs, memGet? m a = some b0 ∧ h = hdrSizeOf mode b0 ∧ 1 ≤ h ∧ h ≤ 8 ∧
      writtenBytes m a h = some bs ∧ p = hdrValue mode bs := by
  unfold headerAt at hd
  split at hd
  · simp at hd
  · next b0 hb =>
    split at hd
    · simp at hd
    · next h8 =>
      split at hd
      · simp at hd
      · next bs hbs =>
        simp only [Option.some.injEq, Prod.mk.injEq] at hd
        obtain ⟨rfl, rfl⟩ := hd
        exact ⟨b0, bs, hb, rfl, hdrSizeOf_pos mode b0, by omega, hbs, rfl⟩

/-- A header stands where its bytes have been written. -/
theorem headerAt_of_bytes {mode : HdrMode} {m : Memory} {a : Nat} {b0 : Byte} {bs : List Byte}
    (hb : memGet? m a = some b0) (h8 : hdrSizeOf mode b0 ≤ 8)
    (hbs : writtenBytes m a (hdrSizeOf mode b0) = some bs) :
    headerAt mode m a = some (hdrSizeOf mode b0, hdrValue mode bs) := by
  have : ¬ 8 < hdrSizeOf mode b0 := by omega
  simp [headerAt, hb, this, hbs]

/-- A header depends only on its own bytes. -/
theorem headerAt_congr {mode : HdrMode} {m m' : Memory} {a h p : Nat}
    (hd : headerAt mode m a = some (h, p))
    (hm : ∀ k, a ≤ k → k < a + h → memGet? m' k = memGet? m k) :
    headerAt mode m' a = some (h, p) := by
  obtain ⟨b0, bs, hb, rfl, h1, h8, hbs, rfl⟩ := headerAt_some hd
  refine headerAt_of_bytes ?_ h8 ?_
  · rw [hm a (Nat.le_refl a) (by omega), hb]
  · rw [writtenBytes_congr hm, hbs]

theorem bytesAt_congr {m m' : Memory} {offs : List Nat}
    (h : ∀ k ∈ offs, memGet? m' k = memGet? m k) : bytesAt m' offs = bytesAt m offs :=
  List.map_congr_left h

/-- The end of a sequence of frames is not before its start. -/
theorem Frames.le {mode : HdrMode} {m : Memory} {a e : Nat} {fs : List (List (Option Byte))}
    (h : Frames mode m a e fs) : a ≤ e := by
  induction h with
  | done => exact Nat.le_refl _
  | frame _ h2 _ ih => omega

/-- A sequence of frames depends only on the region it stands in. -/
theorem Frames.congr {mode : HdrMode} {m m' : Memory} {a e : Nat} {fs : List (List (Option Byte))}
    (h : Frames mode m a e fs) (hm : ∀ k, a ≤ k → k < e → memGet? m' k = memGet? m k) :
    Frames mode m' a e fs := by
  induction h with
  | done => exact .done _
  | frame h1 h2 h3 ih =>
    rename_i a e h p fs
    rw [← bytesAt_congr (m' := m') (m := m) (offs := List.range' (a + h) p) (fun k hk => by
      rw [List.mem_range'_1] at hk; exact hm k (by omega) (by omega))]
    exact .frame (headerAt_congr h1 fun k hk hk' => hm k hk (by omega)) h2
      (ih fun k hk hk' => hm k (by omega) hk')

/-- Sequences of frames are put end to end. -/
theorem Frames.append {mode : HdrMode} {m : Memory} {a b c : Nat} {f₁ f₂ : List (List (Option Byte))}
    (h₁ : Frames mode m a b f₁) (h₂ : Frames mode m b c f₂) : Frames mode m a c (f₁ ++ f₂) := by
  induction h₁ with
  | done => exact h₂
  | frame h1 h2 _ ih =>
    have := h₂.le
    exact .frame h1 (by omega) (ih h₂)

/-- The first frame of a region that is not empty. -/
theorem Frames.first {mode : HdrMode} {m : Memory} {a e : Nat} {fs : List (List (Option Byte))}
    (h : Frames mode m a e fs) (hlt : a < e) :
    ∃ hl p fs', headerAt mode m a = some (hl, p) ∧ a + hl + p ≤ e ∧ Frames mode m (a + hl + p) e fs' ∧
      fs = bytesAt m (List.range' (a + hl) p) :: fs' := by
  cases h with
  | done => omega
  | frame h1 h2 h3 => exact ⟨_, _, _, h1, h2, h3, rfl⟩

/-- An empty region holds no frame. -/
theorem Frames.empty {mode : HdrMode} {m : Memory} {a : Nat} {fs : List (List (Option Byte))}
    (h : Frames mode m a a fs) : fs = [] := by
  cases h with
  | done => rfl
  | frame h1 h2 _ =>
    obtain ⟨_, _, _, _, h3, _⟩ := headerAt_some h1
    omega

/-- The frames of a region are determined by the storage. -/
theorem Frames.unique {mode : HdrMode} {m : Memory} {a e : Nat} {f₁ f₂ : List (List (Option Byte))}
    (h₁ : Frames mode m a e f₁) (h₂ : Frames mode m a e f₂) : f₁ = f₂ := by
  induction h₁ generalizing f₂ with
  | done => exact h₂.empty.symm
  | frame h1 h2 _ ih =>
    obtain ⟨_, _, _, _, h3, _⟩ := headerAt_some h1
    obtain ⟨hl, p, fs', h4, -, h5, rfl⟩ := h₂.first (by omega)
    rw [h1] at h4
    obtain ⟨rfl, rfl⟩ : _ ∧ _ := by simpa using h4
    rw [ih h5]

end Sys2Proof.Machine
end

