-- ==== Sys2Proof/Laws/Ring.lean ====
section
/-! SUPPORT. What each operation of the ring can do, said once (40_ring.md), and that each keeps the invariants of a
ring (R42). -/

namespace Sys2Proof.Machine

/-! ## What each operation can do -/

/-- Where a grant is placed (R122, R123). -/
theorem placeGrant_cases {cap sz : Nat} {r : Ring} {st : Nat} (h : placeGrant cap sz r = some st) :
    (r.write < r.read ∧ r.write + sz < r.read ∧ st = r.write) ∨
    (r.read ≤ r.write ∧ r.write + sz ≤ cap ∧ st = r.write) ∨
    (r.read ≤ r.write ∧ cap < r.write + sz ∧ sz < r.read ∧ st = 0) := by
  simp only [placeGrant] at h
  split at h
  · split at h
    · left; simp_all
    · simp at h
  · split at h
    · right; left; simp_all
    · split at h
      · right; right; simp_all
      · simp at h

/-- When no placement has room (R122, R123). -/
theorem placeGrant_none {cap sz : Nat} {r : Ring} (h : placeGrant cap sz r = none) :
    (r.write < r.read ∧ r.read ≤ r.write + sz) ∨
    (r.read ≤ r.write ∧ cap < r.write + sz ∧ r.read ≤ sz) := by
  simp only [placeGrant] at h
  split at h
  · split at h
    · simp at h
    · left; omega
  · split at h
    · simp at h
    · split at h
      · simp at h
      · right; omega

/-- `GRANT_W` answers one of its three statuses; only on `OK` it changes the ring (R122, R124). -/
theorem ringGrantW_cases (cap sz : Nat) (r : Ring) :
    (r.wip = true ∧ ringGrantW cap sz r = (r, bare .grantInProgress)) ∨
    (r.wip = false ∧ placeGrant cap sz r = none ∧ ringGrantW cap sz r = (r, bare .insufficientSize)) ∨
    (∃ st, r.wip = false ∧ placeGrant cap sz r = some st ∧
      ringGrantW cap sz r = (setWriteGrant st sz r, ⟨.ok, st, sz⟩)) := by
  unfold ringGrantW
  cases hw : r.wip
  · cases hp : placeGrant cap sz r <;> simp
  · simp

/-- `COMMIT` finishes the outstanding grant, or finds none (R126). -/
theorem ringCommit_cases (cap used : Nat) (r : Ring) :
    (∃ g, r.wip = true ∧ r.wg = some g ∧
      ringCommit cap used r = (clearWriteGrant (advanceWrite cap g.start (min used g.len) r), bare .ok)) ∨
    ((r.wip = false ∨ r.wg = none) ∧ ringCommit cap used r = (r, bare .badState)) := by
  unfold ringCommit
  cases hw : r.wip <;> cases hg : r.wg <;> simp

/-- `READ` answers one of its three statuses; the wrap step may come first (R131, R132). -/
theorem ringRead_cases (r : Ring) :
    (r.rip = true ∧ ringRead r = (r, bare .grantInProgress)) ∨
    (r.rip = false ∧ readExtent (wrapRead r) = 0 ∧ ringRead r = (wrapRead r, bare .empty)) ∨
    (r.rip = false ∧ 1 ≤ readExtent (wrapRead r) ∧
      ringRead r = (setReadGrant (wrapRead r).read (readExtent (wrapRead r)) (wrapRead r),
        ⟨.ok, (wrapRead r).read, readExtent (wrapRead r)⟩)) := by
  unfold ringRead
  cases hr : r.rip
  · by_cases h : readExtent (wrapRead r) = 0
    · simp [h]
    · right; right; simp [h]; omega
  · simp

/-- `RELEASE` finishes the outstanding grant, or finds none (R134). -/
theorem ringRelease_cases (used : Nat) (r : Ring) :
    (∃ g, r.rip = true ∧ r.rg = some g ∧
      ringRelease used r = (clearReadGrant { r with read := r.read + min used g.len }, bare .ok)) ∨
    ((r.rip = false ∨ r.rg = none) ∧ ringRelease used r = (r, bare .badState)) := by
  unfold ringRelease
  cases hr : r.rip <;> cases hg : r.rg <;> simp

/-- The wrap step, or nothing (R132). -/
theorem wrapRead_cases (r : Ring) :
    (r.read = r.last ∧ r.write < r.read ∧ wrapRead r = { r with read := 0 }) ∨
    (¬ (r.read = r.last ∧ r.write < r.read) ∧ wrapRead r = r) := by
  unfold wrapRead
  split
  · next h => exact .inl ⟨h.1, h.2, rfl⟩
  · next h => exact .inr ⟨h, rfl⟩

/-! ## Each operation keeps the invariants of R42 -/

/-- The ring after reset is legal (R42, R260). -/
theorem reset_ringInv (n : Nat) : RingInv n (Ring.reset n) where
  cursors_le := by simp [Ring.reset]
  inverted_ok := by simp [Ring.reset]
  full_last := by simp [Ring.reset]
  no_write_grant := by simp [Ring.reset]
  write_grant := by simp [Ring.reset]
  no_read_grant := by simp [Ring.reset]
  read_grant := by simp [Ring.reset]
  storage_wf := reset_storage_wf n
  storage_in := by simp [Ring.reset, memGet?, cellsGet?]

/-- The invariants do not mention the framed-layer fields or the count of draws. -/
theorem RingInv.other_fields {n : Nat} {r : Ring} (h : RingInv n r) (fw : Option FrameW)
    (fr : Option FrameR) (k : Nat) : RingInv n { r with fw := fw, fr := fr, drawn := k } where
  cursors_le := h.cursors_le
  inverted_ok := h.inverted_ok
  full_last := h.full_last
  no_write_grant := h.no_write_grant
  write_grant := h.write_grant
  no_read_grant := h.no_read_grant
  read_grant := h.read_grant
  storage_wf := h.storage_wf
  storage_in := h.storage_in

/-- Storing a byte at an existing offset keeps the invariants. -/
theorem RingInv.set_byte {n : Nat} {r : Ring} (h : RingInv n r) {off : Nat} (v : Byte) (ho : off < n) :
    RingInv n { r with buf := memSet r.buf off v } where
  cursors_le := h.cursors_le
  inverted_ok := h.inverted_ok
  full_last := h.full_last
  no_write_grant := h.no_write_grant
  write_grant := h.write_grant
  no_read_grant := h.no_read_grant
  read_grant := h.read_grant
  storage_wf := memSet_wf off v h.storage_wf
  storage_in k hk := by
    show memGet? (memSet r.buf off v) k = none
    rw [memGet?_set_other _ _ (by omega)]
    exact h.storage_in k hk

/-- Storing bytes at existing offsets keeps the invariants. -/
theorem RingInv.set_bytes {n : Nat} {r : Ring} (h : RingInv n r) {a : Nat} (vs : List Byte)
    (ho : a + vs.length ≤ n) : RingInv n { r with buf := memSetBytes r.buf a vs } where
  cursors_le := h.cursors_le
  inverted_ok := h.inverted_ok
  full_last := h.full_last
  no_write_grant := h.no_write_grant
  write_grant := h.write_grant
  no_read_grant := h.no_read_grant
  read_grant := h.read_grant
  storage_wf := memSetBytes_wf a vs h.storage_wf
  storage_in k hk := by
    show memGet? (memSetBytes r.buf a vs) k = none
    rw [memGet?_setBytes_outside _ _ _ _ (by omega)]
    exact h.storage_in k hk

theorem RingInv.grantW {n : Nat} {r : Ring} (h : RingInv n r) (sz : Nat) :
    RingInv n (ringGrantW n sz r).1 := by
  rcases ringGrantW_cases n sz r with ⟨-, e⟩ | ⟨-, -, e⟩ | ⟨st, hw, hp, e⟩ <;> rw [e]
  · exact h
  · exact h
  · have hc := h.cursors_le
    have hp := placeGrant_cases hp
    exact
      { cursors_le := ⟨hc.1, hc.2.1, hc.2.2.1, by simp only [setWriteGrant_reserve]; omega⟩
        inverted_ok := h.inverted_ok
        full_last := h.full_last
        no_write_grant := by simp
        write_grant := fun _ => ⟨⟨st, sz⟩, rfl, rfl, by
          simp only [setWriteGrant_reserve, setWriteGrant_write, setWriteGrant_read]
          rcases hp with ⟨h1, h2, rfl⟩ | ⟨h1, h2, rfl⟩ | ⟨h1, -, h2, rfl⟩
          · exact .inl ⟨rfl, fun _ => h2⟩
          · exact .inl ⟨rfl, fun _ => by omega⟩
          · exact .inr ⟨rfl, h1, by omega⟩⟩
        no_read_grant := h.no_read_grant
        read_grant := h.read_grant
        storage_wf := h.storage_wf
        storage_in := h.storage_in }

theorem RingInv.commit {n : Nat} {r : Ring} (h : RingInv n r) (used : Nat) :
    RingInv n (ringCommit n used r).1 := by
  rcases ringCommit_cases n used r with ⟨g, hw, hg, e⟩ | ⟨-, e⟩ <;> rw [e]
  · obtain ⟨g', hg', hres, hpl⟩ := h.write_grant hw
    obtain rfl : g = g' := by simpa [hg] using hg'
    have hc := h.cursors_le
    have hi := h.inverted_ok
    have hf := h.full_last
    have hr := h.read_grant
    have hu : min used g.len ≤ g.len := Nat.min_le_right ..
    revert hu
    generalize min used g.len = u
    intro hu
    by_cases h0 : u = 0
    · simp only [advanceWrite, h0, if_true]
      exact
        { cursors_le := ⟨hc.1, hc.2.1, hc.2.2.1, hc.2.1⟩
          inverted_ok := hi
          full_last := hf
          no_write_grant := fun _ => ⟨rfl, rfl⟩
          write_grant := by simp
          no_read_grant := h.no_read_grant
          read_grant := hr
          storage_wf := h.storage_wf
          storage_in := h.storage_in }
    · simp only [advanceWrite, h0, if_false]
      exact
        { cursors_le := by
            refine ⟨hc.1, ?_, ?_, ?_⟩ <;> simp only [clearWriteGrant] <;> (try split_ifs) <;> omega
          inverted_ok := by
            simp only [clearWriteGrant]
            intro hlt
            split_ifs <;> omega
          full_last := by
            simp only [clearWriteGrant]
            intro heq
            split_ifs <;> omega
          no_write_grant := fun _ => ⟨rfl, rfl⟩
          write_grant := by simp
          no_read_grant := h.no_read_grant
          read_grant := by
            simp only [clearWriteGrant]
            intro hrip
            obtain ⟨gr, h1, h2, h3, h4, h5⟩ := hr hrip
            refine ⟨gr, h1, h2, h3, fun hlt => ?_, fun hle => ?_⟩
            · split_ifs <;> omega
            · omega
          storage_wf := h.storage_wf
          storage_in := h.storage_in }
  · exact h

theorem RingInv.wrap {n : Nat} {r : Ring} (h : RingInv n r) (hr : r.rip = false) :
    RingInv n (wrapRead r) := by
  rcases wrapRead_cases r with ⟨h1, h2, e⟩ | ⟨-, e⟩ <;> rw [e]
  · have hc := h.cursors_le
    exact
      { cursors_le := ⟨Nat.zero_le _, hc.2⟩
        inverted_ok := by simp
        full_last := h.full_last
        no_write_grant := h.no_write_grant
        write_grant := fun hw => by
          obtain ⟨g, h3, h4, h5⟩ := h.write_grant hw
          refine ⟨g, h3, h4, .inl ⟨?_, ?_⟩⟩
          · show g.start = r.write
            omega
          · simp
        no_read_grant := h.no_read_grant
        read_grant := by simp [hr]
        storage_wf := h.storage_wf
        storage_in := h.storage_in }
  · exact h

/-- After the wrap step an inverted ring has upper data left (R132, R133). -/
theorem wrapRead_extent {n : Nat} {r : Ring} (h : RingInv n r) :
    (wrapRead r).write < (wrapRead r).read → (wrapRead r).read < (wrapRead r).last := by
  have hi := h.inverted_ok
  rcases wrapRead_cases r with ⟨h1, h2, e⟩ | ⟨h1, e⟩ <;> rw [e]
  · simp
  · intro hlt
    have := hi hlt
    omega

theorem RingInv.read {n : Nat} {r : Ring} (h : RingInv n r) : RingInv n (ringRead r).1 := by
  rcases ringRead_cases r with ⟨-, e⟩ | ⟨hr, -, e⟩ | ⟨hr, h1, e⟩ <;> rw [e]
  · exact h
  · exact h.wrap hr
  · have hw := h.wrap hr
    exact
      { cursors_le := hw.cursors_le
        inverted_ok := hw.inverted_ok
        full_last := hw.full_last
        no_write_grant := hw.no_write_grant
        write_grant := hw.write_grant
        no_read_grant := by simp
        read_grant := fun _ => by
          refine ⟨_, rfl, rfl, h1, ?_, ?_⟩ <;> simp only [setReadGrant, readExtent]
          · intro hlt
            have := hw.inverted_ok hlt
            simp only [hlt, if_true]
            omega
          · intro hle
            have : ¬ (wrapRead r).write < (wrapRead r).read := by omega
            simp only [this, if_false]
            omega
        storage_wf := hw.storage_wf
        storage_in := hw.storage_in }

theorem RingInv.release {n : Nat} {r : Ring} (h : RingInv n r) (used : Nat) :
    RingInv n (ringRelease used r).1 := by
  rcases ringRelease_cases used r with ⟨g, hr, hg, e⟩ | ⟨-, e⟩ <;> rw [e]
  · obtain ⟨g', hg', hs, hl, h4, h5⟩ := h.read_grant hr
    obtain rfl : g = g' := by simpa [hg] using hg'
    have hc := h.cursors_le
    have hi := h.inverted_ok
    have hu : min used g.len ≤ g.len := Nat.min_le_right ..
    revert hu
    generalize min used g.len = u
    intro hu
    have key : (r.write < r.read → r.read + u ≤ r.last) ∧ (r.read ≤ r.write → r.read + u ≤ r.write) :=
      ⟨fun x => by have := h4 x; omega, fun x => by have := h5 x; omega⟩
    exact
      { cursors_le := by
          refine ⟨?_, hc.2⟩
          show r.read + u ≤ n
          by_cases hlt : r.write < r.read
          · have := key.1 hlt; omega
          · have := key.2 (by omega); omega
        inverted_ok := by
          show r.write < r.read + u → r.read + u ≤ r.last ∧ 1 ≤ r.write
          intro hlt
          by_cases hlt' : r.write < r.read
          · exact ⟨key.1 hlt', (hi hlt').2⟩
          · have := key.2 (by omega); omega
        full_last := h.full_last
        no_write_grant := h.no_write_grant
        write_grant := fun hw => by
          obtain ⟨gw, h6, h7, h8⟩ := h.write_grant hw
          refine ⟨gw, h6, h7, ?_⟩
          rcases h8 with ⟨h8, h9⟩ | ⟨h8, h9, h10⟩
          · refine .inl ⟨h8, ?_⟩
            show r.write < r.read + u → r.reserve < r.read + u
            intro hlt
            by_cases hlt' : r.write < r.read
            · have := h9 hlt'; omega
            · have := key.2 (by omega); omega
          · refine .inr ⟨h8, ?_, ?_⟩
            · exact key.2 h9
            · show r.reserve < r.read + u
              omega
        no_read_grant := fun _ => rfl
        read_grant := by simp
        storage_wf := h.storage_wf
        storage_in := h.storage_in }
  · exact h

/-- A ring without a read grant whose unread data is not empty lets `READ` succeed (R148). -/
theorem readExtent_pos {n : Nat} {r : Ring} (h : RingInv n r) (ha : 0 < avail r) :
    1 ≤ readExtent (wrapRead r) := by
  have hx := wrapRead_extent h
  have hi := h.inverted_ok
  unfold avail at ha
  rcases wrapRead_cases r with ⟨h1, h2, e⟩ | ⟨h1, e⟩ <;> rw [e] at hx ⊢ <;> simp only [readExtent]
  · have := hi h2
    simp only [Nat.not_lt_zero, if_false]
    omega
  · by_cases hlt : r.write < r.read
    · have := hx hlt; simp only [hlt, if_true]; omega
    · simp only [hlt, if_false] at ha ⊢; omega

end Sys2Proof.Machine
end

