-- ==== Sys2Proof/Laws/Ops.lean ====
section
/-! SUPPORT. What each operation of the framed ring, the Pipe and the ports can do, said once (41_framed.md, 42_pipe.md,
R90). -/

namespace Sys2Proof.Machine

/-! ## The framed ring -/

/-- `FGRANT` answers a failure and changes nothing, or makes the raw grant and the framed fields (R152). -/
theorem frameGrant_cases (cfg : Config) (maxSz : Nat) (r : Ring) :
    (∃ st, st ≠ Status.ok ∧ (st = .insufficientSize ∨ st = .grantInProgress) ∧
      frameGrant cfg maxSz r = (r, bare st)) ∨
    (∃ st, hdrInRange cfg.hdrMode maxSz = true ∧ r.wip = false ∧
      placeGrant cfg.n (maxSz + hdrSize cfg.hdrMode maxSz) r = some st ∧
      frameGrant cfg maxSz r =
        ({ setWriteGrant st (maxSz + hdrSize cfg.hdrMode maxSz) r with
            fw := some ⟨hdrSize cfg.hdrMode maxSz, 0⟩ },
          ⟨.ok, st + hdrSize cfg.hdrMode maxSz, maxSz⟩)) := by
  unfold frameGrant
  cases hr : hdrInRange cfg.hdrMode maxSz
  · exact .inl ⟨.insufficientSize, by simp, by simp, by simp⟩
  · rcases ringGrantW_cases cfg.n (maxSz + hdrSize cfg.hdrMode maxSz) r with
      ⟨-, e⟩ | ⟨-, -, e⟩ | ⟨st, hw, hp, e⟩
    · exact .inl ⟨.grantInProgress, by simp, by simp, by simp [e]⟩
    · exact .inl ⟨.insufficientSize, by simp, by simp, by simp [e]⟩
    · exact .inr ⟨st, rfl, hw, hp, by simp [e]⟩

/-- A header write succeeds inside the storage and is a fault past its end (R11, R63). -/
theorem memWrite_cases (cap a : Nat) (vs : List Byte) (r : Ring) :
    (a + vs.length ≤ cap ∧ memWrite cap a vs r = .ok { r with buf := memSetBytes r.buf a vs }) ∨
    (cap < a + vs.length ∧ memWrite cap a vs r = .error .accessOutsideGrant) := by
  unfold memWrite
  by_cases h : a + vs.length ≤ cap
  · exact .inl ⟨h, by simp [h]⟩
  · exact .inr ⟨by omega, by simp [h]⟩

/-- `FCOMMIT` finds no framed grant, or writes the header and commits it with the payload (R155, R156). -/
theorem frameCommit_cases (cfg : Config) (used : Nat) (r : Ring) :
    ((r.wip = false ∨ r.wg = none ∨ r.fw = none) ∧ frameCommit cfg used r = .ok (r, bare .badState)) ∨
    (∃ g f, r.wip = true ∧ r.wg = some g ∧ r.fw = some f ∧
      ((cfg.n < g.start + (hdrEnc cfg.hdrMode f.hdrLen (min used (g.len - f.hdrLen))).length ∧
          frameCommit cfg used r = .error .accessOutsideGrant) ∨
       (g.start + (hdrEnc cfg.hdrMode f.hdrLen (min used (g.len - f.hdrLen))).length ≤ cfg.n ∧
          frameCommit cfg used r = .ok (ringCommit cfg.n (f.hdrLen + min used (g.len - f.hdrLen))
            { r with
              buf := memSetBytes r.buf g.start (hdrEnc cfg.hdrMode f.hdrLen (min used (g.len - f.hdrLen)))
              fw := none })))) := by
  unfold frameCommit
  cases hw : r.wip
  · exact .inl (by simp)
  · cases hg : r.wg with
    | none => exact .inl (by simp)
    | some g =>
      cases hf : r.fw with
      | none => exact .inl (by simp)
      | some f =>
        refine .inr ⟨g, f, rfl, rfl, rfl, ?_⟩
        rcases memWrite_cases cfg.n g.start (hdrEnc cfg.hdrMode f.hdrLen (min used (g.len - f.hdrLen))) r with
          ⟨h1, h2⟩ | ⟨h1, h2⟩
        · exact .inr ⟨h1, by simp [h2, hw, hg]⟩
        · exact .inl ⟨h1, by simp [h2]⟩

/-- `FTO_COMMIT` stores the amount, or finds no framed grant (R158). -/
theorem frameToCommit_cases (amt : Nat) (r : Ring) :
    ((r.wip = false ∨ r.fw = none) ∧ frameToCommit amt r = (r, bare .badState)) ∨
    (∃ f, r.wip = true ∧ r.fw = some f ∧
      frameToCommit amt r = ({ r with fw := some ⟨f.hdrLen, amt⟩ }, bare .ok)) := by
  unfold frameToCommit
  cases hw : r.wip <;> cases hf : r.fw <;> simp

/-- `FDROP_W` finds no framed grant, drops it, or commits the stored amount (R159). -/
theorem frameDropW_cases (cfg : Config) (r : Ring) :
    ((r.wip = false ∨ r.fw = none) ∧ frameDropW cfg r = .ok (r, bare .badState)) ∨
    (∃ f, r.wip = true ∧ r.fw = some f ∧ f.toCommit = 0 ∧
      frameDropW cfg r = .ok (ringCommit cfg.n 0 { r with fw := none })) ∨
    (∃ f, r.wip = true ∧ r.fw = some f ∧ f.toCommit ≠ 0 ∧
      frameDropW cfg r = frameCommit cfg f.toCommit r) := by
  unfold frameDropW
  cases hw : r.wip
  · exact .inl (by simp)
  · cases hf : r.fw with
    | none => exact .inl (by simp)
    | some f => by_cases h0 : f.toCommit = 0 <;> simp [h0]

/-- `FRELEASE` releases the whole grant, or finds none (R164). -/
theorem frameRelease_cases (r : Ring) :
    ((r.rip = false ∨ r.rg = none) ∧ frameRelease r = (r, bare .badState)) ∨
    (∃ g, r.rip = true ∧ r.rg = some g ∧ frameRelease r = ringRelease g.len { r with fr := none }) := by
  unfold frameRelease
  cases hr : r.rip <;> cases hg : r.rg <;> simp

/-- `FAUTO_RELEASE` stores the choice, or finds no framed grant (R165). -/
theorem frameAutoRelease_cases (b : Bool) (r : Ring) :
    ((r.rip = false ∨ r.fr = none) ∧ frameAutoRelease b r = (r, bare .badState)) ∨
    (∃ f, r.rip = true ∧ r.fr = some f ∧
      frameAutoRelease b r = ({ r with fr := some ⟨f.hdrLen, b⟩ }, bare .ok)) := by
  unfold frameAutoRelease
  cases hr : r.rip <;> cases hf : r.fr <;> simp

/-- `FDROP_R` finds no framed grant, releases the frame, or leaves it (R166). -/
theorem frameDropR_cases (r : Ring) :
    ((r.rip = false ∨ r.fr = none) ∧ frameDropR r = (r, bare .badState)) ∨
    (∃ f, r.rip = true ∧ r.fr = some f ∧ f.autoRelease = true ∧ frameDropR r = frameRelease r) ∨
    (∃ f, r.rip = true ∧ r.fr = some f ∧ f.autoRelease = false ∧
      frameDropR r = ringRelease 0 { r with fr := none }) := by
  unfold frameDropR
  cases hr : r.rip
  · exact .inl (by simp)
  · cases hf : r.fr with
    | none => exact .inl (by simp)
    | some f => cases ha : f.autoRelease <;> simp [ha]

/-- A header read inside the storage, byte by byte (R11, R63). -/
theorem memRead_cases (cap : Nat) (free : Nat → Byte) (a n : Nat) (r : Ring) :
    (a + n ≤ cap ∧ memRead cap free a n r = .ok (readBytes free n a r)) ∨
    (cap < a + n ∧ memRead cap free a n r = .error .accessOutsideGrant) := by
  unfold memRead
  by_cases h : a + n ≤ cap
  · exact .inl ⟨h, by simp [h]⟩
  · exact .inr ⟨by omega, by simp [h]⟩

/-- When `FREAD` meets a header whose bytes are written, it narrows the grant to that frame or reports a corrupt one
(R160, R161, R163). -/
theorem narrowToFrame_written {cfg : Config} {free : Nat → Byte} {start len h p : Nat} {r : Ring}
    (hd : headerAt cfg.hdrMode r.buf start = some (h, p)) (hl : h ≤ len) (hn : start + h ≤ cfg.n) :
    narrowToFrame cfg free start len r =
      if len < h + p then .error .corruptFrame
      else .ok ({ r with rg := some ⟨start, h + p⟩, fr := some ⟨h, false⟩ }, ⟨.ok, start + h, p⟩) := by
  obtain ⟨b0, bs, hb, rfl, h1, h8, hbs, rfl⟩ := headerAt_some hd
  have e1 : memRead cfg.n free start 1 r = .ok (r, [b0]) := by
    rw [memRead, if_pos (by omega), readBytes_written free 1 start r [b0] (by simp [writtenBytes, hb])]
  have e2 : memRead cfg.n free start (hdrSizeOf cfg.hdrMode b0) r = .ok (r, bs) := by
    rw [memRead, if_pos hn, readBytes_written _ _ _ _ _ hbs]
  have hc : ¬ (8 < hdrSizeOf cfg.hdrMode b0 ∨ len < hdrSizeOf cfg.hdrMode b0) := by omega
  unfold narrowToFrame
  simp only [e1, List.headD_cons, if_neg hc, e2]
  rfl

/-- Whatever `FREAD` reads, it changes only the read grant, its framed fields and the count of draws. -/
theorem narrowToFrame_ok {cfg : Config} {free : Nat → Byte} {start len : Nat} {r r' : Ring} {a : Resp}
    (h : narrowToFrame cfg free start len r = .ok (r', a)) :
    ∃ hl p k, hl + p ≤ len ∧ 1 ≤ hl ∧ a = ⟨.ok, start + hl, p⟩ ∧
      r' = { r with rg := some ⟨start, hl + p⟩, fr := some ⟨hl, false⟩, drawn := k } := by
  unfold narrowToFrame at h
  rcases memRead_cases cfg.n free start 1 r with ⟨-, e1⟩ | ⟨-, e1⟩ <;> rw [e1] at h
  · obtain ⟨k₁, hk₁⟩ := readBytes_frame free 1 start r
    simp only at h
    split at h
    · simp at h
    · next hc =>
      rcases memRead_cases cfg.n free start
          (hdrSizeOf cfg.hdrMode ((readBytes free 1 start r).2.headD 0)) (readBytes free 1 start r).1 with
        ⟨-, e2⟩ | ⟨-, e2⟩ <;> rw [e2] at h
      · obtain ⟨k₂, hk₂⟩ := readBytes_frame free
          (hdrSizeOf cfg.hdrMode ((readBytes free 1 start r).2.headD 0)) start (readBytes free 1 start r).1
        simp only at h
        split at h
        · simp at h
        · next hc2 =>
          simp only [Except.ok.injEq, Prod.mk.injEq] at h
          obtain ⟨h1, h2⟩ := h
          refine ⟨_, _, k₂, Nat.le_of_not_lt hc2, hdrSizeOf_pos _ _, h2.symm, ?_⟩
          rw [← h1, hk₂, hk₁]
      · simp at h
  · simp at h

/-- `FREAD` passes on what `READ` answers, or narrows the grant that `READ` made (R160). -/
theorem frameRead_cases (cfg : Config) (free : Nat → Byte) (r : Ring) :
    (r.rip = true ∧ frameRead cfg free r = .ok (r, bare .grantInProgress)) ∨
    (r.rip = false ∧ readExtent (wrapRead r) = 0 ∧
      frameRead cfg free r = .ok (wrapRead r, bare .empty)) ∨
    (r.rip = false ∧ 1 ≤ readExtent (wrapRead r) ∧
      frameRead cfg free r = narrowToFrame cfg free (wrapRead r).read (readExtent (wrapRead r))
        (setReadGrant (wrapRead r).read (readExtent (wrapRead r)) (wrapRead r))) := by
  unfold frameRead
  rcases ringRead_cases r with ⟨h, e⟩ | ⟨h, h1, e⟩ | ⟨h, h1, e⟩
  · exact .inl ⟨h, by simp [e]⟩
  · exact .inr (.inl ⟨h, h1, by simp [e]⟩)
  · exact .inr (.inr ⟨h, h1, by simp [e]⟩)

/-! ## Ports -/

/-- A ring or framed command answers `ILLEGAL_CMD` away from its port; at it, it answers what its operation answers, or
faults with it (R90). -/
theorem onRing_cases (l : Level) (k : PortKind) (s : State) (op : Ring → Except Fault (Ring × Resp)) :
    (¬ (s.cfg.level = l ∧ portKind s.cur = k) ∧ onRing l k s op = .next (answer s (bare .illegalCmd))) ∨
    (s.cfg.level = l ∧ portKind s.cur = k ∧
      ((∃ r a, op s.p0.ring = .ok (r, a) ∧
          onRing l k s op = .next (answer { s with p0 := { s.p0 with ring := r } } a)) ∨
       (∃ e, op s.p0.ring = .error e ∧ onRing l k s op = .fault e))) := by
  unfold onRing
  by_cases h : s.cfg.level = l ∧ portKind s.cur = k
  · refine .inr ⟨h.1, h.2, ?_⟩
    cases ho : op s.p0.ring with
    | ok x => exact .inl ⟨x.1, x.2, rfl, by simp [h]⟩
    | error e => exact .inr ⟨e, rfl, by simp [h]⟩
  · exact .inl ⟨h, by simp [h]⟩

/-- A Pipe command answers `ILLEGAL_CMD` away from a Pipe port of the instance; at one, it answers what its operation
answers, or faults with it (R90). -/
theorem onPipe_cases (s : State) (op : PipeId → Ctx → Except Fault (State × Resp)) :
    ((∀ id c, s.cur = .pipe id c → hasPort s.cfg.level s.cur = false) ∧
      onPipe s op = .next (answer s (bare .illegalCmd))) ∨
    (∃ id c, s.cur = .pipe id c ∧ hasPort s.cfg.level s.cur = true ∧
      ((∃ t a, op id c = .ok (t, a) ∧ onPipe s op = .next (answer t a)) ∨
       (∃ e, op id c = .error e ∧ onPipe s op = .fault e))) := by
  unfold onPipe
  cases hc : s.cur with
  | pipe id c =>
    cases hp : hasPort s.cfg.level (.pipe id c) with
    | false =>
      refine .inl ⟨fun id' c' h => ?_, by simp⟩
      rfl
    | true =>
      refine .inr ⟨id, c, rfl, rfl, ?_⟩
      cases ho : op id c with
      | ok x => exact .inl ⟨x.1, x.2, rfl, by simp [ho]⟩
      | error e => exact .inr ⟨e, rfl, by simp [ho]⟩
  | producer c => exact .inl ⟨by simp, rfl⟩
  | consumer c => exact .inl ⟨by simp, rfl⟩
  | dp => exact .inl ⟨by simp, rfl⟩

/-- A DataPipes command answers `ILLEGAL_CMD` away from the `DP` port; at it, it does what its operation does (R90). -/
theorem onDp_cases (s : State) (op : Except Fault State) :
    (¬ (s.cfg.level = .datapipes ∧ s.cur = .dp) ∧ onDp s op = .next (answer s (bare .illegalCmd))) ∨
    (s.cfg.level = .datapipes ∧ s.cur = .dp ∧
      ((∃ t, op = .ok t ∧ onDp s op = .next t) ∨ (∃ e, op = .error e ∧ onDp s op = .fault e))) := by
  unfold onDp
  by_cases h : s.cfg.level = .datapipes ∧ s.cur = .dp
  · refine .inr ⟨h.1, h.2, ?_⟩
    cases op with
    | ok t => exact .inl ⟨t, rfl, by simp [h]⟩
    | error e => exact .inr ⟨e, rfl, by simp [h]⟩
  · exact .inl ⟨h, by simp [h]⟩

/-- A Pipe port of the instance belongs to a Pipe that the instance has. -/
theorem hasPort_pipe {l : Level} {id : PipeId} {c : Ctx} (h : hasPort l (.pipe id c) = true) :
    levelHasPipes l = true := by
  cases l <;> cases id <;> simp_all [hasPort, levelHasPipes]

end Sys2Proof.Machine
end

