-- ==== Sys2Proof/Laws/PerInstr.lean ====
section
/-! SUPPORT. What holds of each command as syntax, one lemma per constructor: the fields of its command word (R91 to
R93). -/

namespace Sys2Proof.Laws

open Sys2Proof.Machine

/-- An assembled word as a number (R91). -/
theorem assembleWord_toNat (opcode imm : Nat) :
    (assembleWord opcode imm).toNat = opcode % 2 ^ 8 * 2 ^ 24 + imm % 2 ^ 24 := by
  have e := BitVec.toNat_append (BitVec.ofNat 8 opcode) (BitVec.ofNat 24 imm)
  have l : (BitVec.ofNat 24 imm).toNat < 2 ^ 24 := BitVec.isLt _
  rw [← Nat.shiftLeft_add_eq_or_of_lt l, Nat.shiftLeft_eq, BitVec.toNat_ofNat, BitVec.toNat_ofNat] at e
  exact e

/-- The opcode field of an assembled word (R91). -/
theorem opcodeField_assemble {opcode imm : Nat} (h : opcode < 256) :
    opcodeField (assembleWord opcode imm) = opcode := by
  rw [opcodeField, BitVec.extractLsb'_toNat, assembleWord_toNat, Nat.shiftRight_eq_div_pow]
  omega

/-- The operand field of an assembled word (R91). -/
theorem imm24Field_assemble {opcode imm : Nat} (h : imm < 2 ^ 24) :
    imm24Field (assembleWord opcode imm) = imm := by
  rw [imm24Field, BitVec.extractLsb'_toNat, assembleWord_toNat, Nat.shiftRight_eq_div_pow]
  omega

/-- The word of a well-formed command carries the command's opcode in bits 31:24 and its operand in bits 23:0. -/
def EncodedFields.Statement (i : Instr) : Prop :=
  i.WellFormed → opcodeField (encode i) = i.opcode ∧ imm24Field (encode i) = i.imm

/-- It does if its operand fits the 24 bits of the field. -/
theorem encodedFields_of_imm {i : Instr} (h : i.imm < 2 ^ 24) :
    opcodeField (encode i) = i.opcode ∧ imm24Field (encode i) = i.imm :=
  ⟨opcodeField_assemble (by cases i <;> simp [Instr.opcode]), imm24Field_assemble h⟩

theorem EncodedFields.grantW (sz : Nat) : EncodedFields.Statement (.grantW sz) :=
  fun h => encodedFields_of_imm (i := .grantW sz) h
theorem EncodedFields.commit (used : Nat) : EncodedFields.Statement (.commit used) :=
  fun h => encodedFields_of_imm (i := .commit used) h
theorem EncodedFields.read : EncodedFields.Statement .read :=
  fun _ => encodedFields_of_imm (i := .read) (by decide)
theorem EncodedFields.release (used : Nat) : EncodedFields.Statement (.release used) :=
  fun h => encodedFields_of_imm (i := .release used) h
theorem EncodedFields.fgrant (maxSz : Nat) : EncodedFields.Statement (.fgrant maxSz) :=
  fun h => encodedFields_of_imm (i := .fgrant maxSz) h
theorem EncodedFields.fcommit (used : Nat) : EncodedFields.Statement (.fcommit used) :=
  fun h => encodedFields_of_imm (i := .fcommit used) h
theorem EncodedFields.ftoCommit (amt : Nat) : EncodedFields.Statement (.ftoCommit amt) :=
  fun h => encodedFields_of_imm (i := .ftoCommit amt) h
theorem EncodedFields.fdropW : EncodedFields.Statement .fdropW :=
  fun _ => encodedFields_of_imm (i := .fdropW) (by decide)
theorem EncodedFields.fread : EncodedFields.Statement .fread :=
  fun _ => encodedFields_of_imm (i := .fread) (by decide)
theorem EncodedFields.frelease : EncodedFields.Statement .frelease :=
  fun _ => encodedFields_of_imm (i := .frelease) (by decide)
theorem EncodedFields.fautoRelease (b : Bool) : EncodedFields.Statement (.fautoRelease b) :=
  fun _ => encodedFields_of_imm (i := .fautoRelease b) (by cases b <;> decide)
theorem EncodedFields.fdropR : EncodedFields.Statement .fdropR :=
  fun _ => encodedFields_of_imm (i := .fdropR) (by decide)
theorem EncodedFields.init : EncodedFields.Statement .init :=
  fun _ => encodedFields_of_imm (i := .init) (by decide)
theorem EncodedFields.stageW (maxSize : Nat) : EncodedFields.Statement (.stageW maxSize) :=
  fun h => encodedFields_of_imm (i := .stageW maxSize) h
theorem EncodedFields.stageR : EncodedFields.Statement .stageR :=
  fun _ => encodedFields_of_imm (i := .stageR) (by decide)
theorem EncodedFields.claimW : EncodedFields.Statement .claimW :=
  fun _ => encodedFields_of_imm (i := .claimW) (by decide)
theorem EncodedFields.claimR : EncodedFields.Statement .claimR :=
  fun _ => encodedFields_of_imm (i := .claimR) (by decide)
theorem EncodedFields.finalizeW (committedLen : Nat) : EncodedFields.Statement (.finalizeW committedLen) :=
  fun h => encodedFields_of_imm (i := .finalizeW committedLen) h
theorem EncodedFields.finalizeR : EncodedFields.Statement .finalizeR :=
  fun _ => encodedFields_of_imm (i := .finalizeR) (by decide)
theorem EncodedFields.abortW : EncodedFields.Statement .abortW :=
  fun _ => encodedFields_of_imm (i := .abortW) (by decide)
theorem EncodedFields.abortR : EncodedFields.Statement .abortR :=
  fun _ => encodedFields_of_imm (i := .abortR) (by decide)
theorem EncodedFields.queryW : EncodedFields.Statement .queryW :=
  fun _ => encodedFields_of_imm (i := .queryW) (by decide)
theorem EncodedFields.queryR : EncodedFields.Statement .queryR :=
  fun _ => encodedFields_of_imm (i := .queryR) (by decide)
theorem EncodedFields.dpInit : EncodedFields.Statement .dpInit :=
  fun _ => encodedFields_of_imm (i := .dpInit) (by decide)
theorem EncodedFields.idleStep : EncodedFields.Statement .idleStep :=
  fun _ => encodedFields_of_imm (i := .idleStep) (by decide)

end Sys2Proof.Laws
end

