-- ==== Sys2Proof/Laws/Pipe.lean ====
section
/-! SUPPORT. What each operation of a Pipe, each staging attempt and each byte access can do, said once (42_pipe.md,
43_datapipes.md, R69). -/

namespace Sys2Proof.Machine

/-- `INIT` on a Pipe: refused once initialised, else every register at its reset value (R182, R183). -/
theorem pipeInit_cases (cfg : Config) (p : Pipe) :
    (p.inited = true ∧ pipeInit cfg p = (p, bare .notInit)) ∨
    (p.inited = false ∧ pipeInit cfg p =
      ({ Pipe.reset cfg.n with
          ring := { Ring.reset cfg.n with buf := p.ring.buf, drawn := p.ring.drawn }
          inited := true }, bare .ok)) := by
  unfold pipeInit
  cases hi : p.inited <;> simp

/-- `STAGE_W`: a status of its own, a failure of `FGRANT`, or a staged grant (R184 to R186). -/
theorem pipeStageW_cases (cfg : Config) (m : Nat) (p : Pipe) :
    (p.inited = false ∧ pipeStageW cfg m p = (p, bare .notInit)) ∨
    (p.inited = true ∧ p.wrState ≠ .idle ∧ pipeStageW cfg m p = (p, bare .noopStaged)) ∨
    (∃ st, p.inited = true ∧ p.wrState = .idle ∧ (st = .insufficientSize ∨ st = .grantInProgress) ∧
      frameGrant cfg m p.ring = (p.ring, bare st) ∧ pipeStageW cfg m p = (p, bare st)) ∨
    (∃ r a, p.inited = true ∧ p.wrState = .idle ∧ frameGrant cfg m p.ring = (r, a) ∧ a.status = .ok ∧
      pipeStageW cfg m p =
        ({ p with ring := r, wrSlot := true, wrPtr := a.ptr, wrLen := a.len, wrState := .grantReady },
          ⟨.ok, a.ptr, a.len⟩)) := by
  unfold pipeStageW
  cases hi : p.inited
  · exact .inl ⟨rfl, rfl⟩
  · by_cases hs : p.wrState = .idle
    · rcases frameGrant_cases cfg m p.ring with ⟨st, hne, hor, e⟩ | ⟨st, -, -, -, e⟩
      · exact .inr (.inr (.inl ⟨st, rfl, hs, hor, e, by simp [hs, e, hne]; cases p; simp_all⟩))
      · exact .inr (.inr (.inr ⟨_, _, rfl, hs, e, rfl, by simp [hs, e]⟩))
    · exact .inr (.inl ⟨rfl, hs, by simp [hs]⟩)

/-- `STAGE_R`: a status of its own, what `FREAD` answers, its fault, or a staged frame (R186 to R188). -/
theorem pipeStageR_cases (cfg : Config) (free : Nat → Byte) (p : Pipe) :
    (p.inited = false ∧ pipeStageR cfg free p = .ok (p, bare .notInit)) ∨
    (p.inited = true ∧ p.rdState ≠ .idle ∧ pipeStageR cfg free p = .ok (p, bare .noopStaged)) ∨
    (∃ e, p.inited = true ∧ p.rdState = .idle ∧ frameRead cfg free p.ring = .error e ∧
      pipeStageR cfg free p = .error e) ∨
    (∃ r a, p.inited = true ∧ p.rdState = .idle ∧ frameRead cfg free p.ring = .ok (r, a) ∧ a.status ≠ .ok ∧
      pipeStageR cfg free p = .ok ({ p with ring := r }, a)) ∨
    (∃ r a, p.inited = true ∧ p.rdState = .idle ∧ frameRead cfg free p.ring = .ok (r, a) ∧ a.status = .ok ∧
      pipeStageR cfg free p =
        .ok ({ p with ring := r, rdSlot := true, rdPtr := a.ptr, rdLen := a.len, rdState := .grantReady },
          ⟨.ok, a.ptr, a.len⟩)) := by
  unfold pipeStageR
  cases hi : p.inited
  · exact .inl ⟨rfl, rfl⟩
  · by_cases hs : p.rdState = .idle
    · cases e : frameRead cfg free p.ring with
      | error f => exact .inr (.inr (.inl ⟨f, rfl, hs, rfl, by simp [hs]⟩))
      | ok x =>
        obtain ⟨r, a⟩ := x
        by_cases ha : a.status = .ok
        · exact .inr (.inr (.inr (.inr ⟨r, a, rfl, hs, rfl, ha, by simp [hs, ha]⟩)))
        · exact .inr (.inr (.inr (.inl ⟨r, a, rfl, hs, rfl, ha, by simp [hs, ha]⟩)))
    · exact .inr (.inl ⟨rfl, hs, by simp [hs]⟩)

/-- `CLAIM_W`: a status of its own, or the claim of the staged grant (R189, R191). -/
theorem pipeClaimW_cases (c : Ctx) (p : Pipe) :
    (p.inited = false ∧ pipeClaimW c p = (p, bare .notInit)) ∨
    (p.inited = true ∧ p.wrState ≠ .grantReady ∧ pipeClaimW c p = (p, bare .notReady)) ∨
    (p.inited = true ∧ p.wrState = .grantReady ∧
      pipeClaimW c p = ({ p with wrState := .grantBusy, wrClaim := some c }, ⟨.ok, p.wrPtr, p.wrLen⟩)) := by
  unfold pipeClaimW
  cases hi : p.inited
  · exact .inl ⟨rfl, rfl⟩
  · by_cases hs : p.wrState = .grantReady
    · exact .inr (.inr ⟨rfl, hs, by simp [hs]⟩)
    · exact .inr (.inl ⟨rfl, hs, by simp [hs]⟩)

/-- `CLAIM_R`: a status of its own, or the claim of the staged frame (R190, R191). -/
theorem pipeClaimR_cases (c : Ctx) (p : Pipe) :
    (p.inited = false ∧ pipeClaimR c p = (p, bare .notInit)) ∨
    (p.inited = true ∧ p.rdState ≠ .grantReady ∧ pipeClaimR c p = (p, bare .notReady)) ∨
    (p.inited = true ∧ p.rdState = .grantReady ∧
      pipeClaimR c p = ({ p with rdState := .grantBusy, rdClaim := some c }, ⟨.ok, p.rdPtr, p.rdLen⟩)) := by
  unfold pipeClaimR
  cases hi : p.inited
  · exact .inl ⟨rfl, rfl⟩
  · by_cases hs : p.rdState = .grantReady
    · exact .inr (.inr ⟨rfl, hs, by simp [hs]⟩)
    · exact .inr (.inl ⟨rfl, hs, by simp [hs]⟩)

/-- `FINALIZE_W`: a status of its own, the fault of `FCOMMIT`, or its commit with the slot emptied (R192, R195). -/
theorem pipeFinalizeW_cases (cfg : Config) (n : Nat) (p : Pipe) :
    (p.inited = false ∧ pipeFinalizeW cfg n p = .ok (p, bare .notInit)) ∨
    (p.inited = true ∧ p.wrState ≠ .grantBusy ∧ pipeFinalizeW cfg n p = .ok (p, bare .badState)) ∨
    (∃ e, p.inited = true ∧ p.wrState = .grantBusy ∧ frameCommit cfg n p.ring = .error e ∧
      pipeFinalizeW cfg n p = .error e) ∨
    (∃ r a, p.inited = true ∧ p.wrState = .grantBusy ∧ frameCommit cfg n p.ring = .ok (r, a) ∧
      pipeFinalizeW cfg n p =
        .ok ({ p with ring := r, wrSlot := false, wrState := .idle, wrClaim := none }, bare .ok)) := by
  unfold pipeFinalizeW
  cases hi : p.inited
  · exact .inl ⟨rfl, rfl⟩
  · by_cases hs : p.wrState = .grantBusy
    · cases e : frameCommit cfg n p.ring with
      | error f => exact .inr (.inr (.inl ⟨f, rfl, hs, rfl, by simp [hs]⟩))
      | ok x => exact .inr (.inr (.inr ⟨x.1, x.2, rfl, hs, rfl, by simp [hs]⟩))
    · exact .inr (.inl ⟨rfl, hs, by simp [hs]⟩)

/-- `FINALIZE_R`: a status of its own, or the release of the frame with the slot emptied (R194, R195). -/
theorem pipeFinalizeR_cases (p : Pipe) :
    (p.inited = false ∧ pipeFinalizeR p = (p, bare .notInit)) ∨
    (p.inited = true ∧ p.rdState ≠ .grantBusy ∧ pipeFinalizeR p = (p, bare .badState)) ∨
    (p.inited = true ∧ p.rdState = .grantBusy ∧ pipeFinalizeR p =
      ({ p with ring := (frameRelease p.ring).1, rdSlot := false, rdState := .idle, rdClaim := none },
        bare .ok)) := by
  unfold pipeFinalizeR
  cases hi : p.inited
  · exact .inl ⟨rfl, rfl⟩
  · by_cases hs : p.rdState = .grantBusy
    · exact .inr (.inr ⟨rfl, hs, by simp [hs]⟩)
    · exact .inr (.inl ⟨rfl, hs, by simp [hs]⟩)

/-- `ABORT_W`: a status of its own, the fault of `FDROP_W`, or its drop with the slot emptied (R196, R198). -/
theorem pipeAbortW_cases (cfg : Config) (p : Pipe) :
    (p.inited = false ∧ pipeAbortW cfg p = .ok (p, bare .notInit)) ∨
    (p.inited = true ∧ p.wrState ≠ .grantReady ∧ pipeAbortW cfg p = .ok (p, bare .badState)) ∨
    (∃ e, p.inited = true ∧ p.wrState = .grantReady ∧
      frameDropW cfg (frameToCommit 0 p.ring).1 = .error e ∧ pipeAbortW cfg p = .error e) ∨
    (∃ r a, p.inited = true ∧ p.wrState = .grantReady ∧
      frameDropW cfg (frameToCommit 0 p.ring).1 = .ok (r, a) ∧
      pipeAbortW cfg p = .ok ({ p with ring := r, wrSlot := false, wrState := .idle }, bare .ok)) := by
  unfold pipeAbortW
  cases hi : p.inited
  · exact .inl ⟨rfl, rfl⟩
  · by_cases hs : p.wrState = .grantReady
    · cases e : frameDropW cfg (frameToCommit 0 p.ring).1 with
      | error f => exact .inr (.inr (.inl ⟨f, rfl, hs, rfl, by simp [hs]⟩))
      | ok x => exact .inr (.inr (.inr ⟨x.1, x.2, rfl, hs, rfl, by simp [hs]⟩))
    · exact .inr (.inl ⟨rfl, hs, by simp [hs]⟩)

/-- `ABORT_R`: a status of its own, or the frame given back with the slot emptied (R197, R198). -/
theorem pipeAbortR_cases (p : Pipe) :
    (p.inited = false ∧ pipeAbortR p = (p, bare .notInit)) ∨
    (p.inited = true ∧ p.rdState ≠ .grantReady ∧ pipeAbortR p = (p, bare .badState)) ∨
    (p.inited = true ∧ p.rdState = .grantReady ∧ pipeAbortR p =
      ({ p with ring := (frameDropR (frameAutoRelease false p.ring).1).1, rdSlot := false,
                rdState := .idle }, bare .ok)) := by
  unfold pipeAbortR
  cases hi : p.inited
  · exact .inl ⟨rfl, rfl⟩
  · by_cases hs : p.rdState = .grantReady
    · exact .inr (.inr ⟨rfl, hs, by simp [hs]⟩)
    · exact .inr (.inl ⟨rfl, hs, by simp [hs]⟩)

/-! ## Staging with its event (R224) -/

/-- Staging a write grant emits its event exactly if it answers `OK`. -/
theorem stageWOn_cases (id : PipeId) (m : Nat) (s : State) :
    ((pipeStageW s.cfg m (getPipe s id)).2.status = .ok ∧
      stageWOn id m s =
        (emit (setPipe s id (pipeStageW s.cfg m (getPipe s id)).1)
          ⟨id, .w, (pipeStageW s.cfg m (getPipe s id)).2.ptr, (pipeStageW s.cfg m (getPipe s id)).2.len⟩,
          (pipeStageW s.cfg m (getPipe s id)).2)) ∨
    ((pipeStageW s.cfg m (getPipe s id)).2.status ≠ .ok ∧
      stageWOn id m s =
        (setPipe s id (pipeStageW s.cfg m (getPipe s id)).1, (pipeStageW s.cfg m (getPipe s id)).2)) := by
  unfold stageWOn
  by_cases h : (pipeStageW s.cfg m (getPipe s id)).2.status = .ok
  · exact .inl ⟨h, by simp [h]⟩
  · exact .inr ⟨h, by simp [h]⟩

/-- Staging a frame faults as `FREAD` does, or emits its event exactly if it answers `OK`. -/
theorem stageROn_cases (id : PipeId) (s : State) :
    (∃ e, pipeStageR s.cfg (Config.freeByte id) (getPipe s id) = .error e ∧ stageROn id s = .error e) ∨
    (∃ p a, pipeStageR s.cfg (Config.freeByte id) (getPipe s id) = .ok (p, a) ∧ a.status = .ok ∧
      stageROn id s = .ok (emit (setPipe s id p) ⟨id, .r, a.ptr, a.len⟩, a)) ∨
    (∃ p a, pipeStageR s.cfg (Config.freeByte id) (getPipe s id) = .ok (p, a) ∧ a.status ≠ .ok ∧
      stageROn id s = .ok (setPipe s id p, a)) := by
  unfold stageROn
  cases h : pipeStageR s.cfg (Config.freeByte id) (getPipe s id) with
  | error e => exact .inl ⟨e, rfl, rfl⟩
  | ok x =>
    obtain ⟨p, a⟩ := x
    by_cases ha : a.status = .ok
    · exact .inr (.inl ⟨p, a, rfl, ha, by simp [ha]⟩)
    · exact .inr (.inr ⟨p, a, rfl, ha, by simp [ha]⟩)

/-- Staging reads no port and writes neither port nor response. -/
theorem stageWOn_port (id : PipeId) (m : Nat) (s : State) (p : Port) :
    stageWOn id m { s with cur := p } = ({ (stageWOn id m s).1 with cur := p }, (stageWOn id m s).2) ∧
    (stageWOn id m s).1.cur = s.cur ∧ (stageWOn id m s).1.resp = s.resp := by
  cases id
  · by_cases h : (pipeStageW s.cfg m s.p0).2.status = .ok <;> simp [stageWOn, getPipe, setPipe, emit, h]
  · by_cases h : (pipeStageW s.cfg m s.p1).2.status = .ok <;> simp [stageWOn, getPipe, setPipe, emit, h]

/-- Staging a frame reads no port. -/
theorem stageROn_port (id : PipeId) (s : State) (p : Port) :
    stageROn id { s with cur := p } = match stageROn id s with
      | .ok (t, a) => .ok ({ t with cur := p }, a)
      | .error e => .error e := by
  have key : ∀ x : Except Fault (Pipe × Resp), pipeStageR s.cfg (Config.freeByte id) (getPipe s id) = x →
      stageROn id { s with cur := p } = match stageROn id s with
        | .ok (t, a) => .ok ({ t with cur := p }, a)
        | .error e => .error e := by
    intro x hx
    have hx' : pipeStageR ({ s with cur := p } : State).cfg (Config.freeByte id) (getPipe { s with cur := p } id) = x := by
      cases id <;> exact hx
    unfold stageROn
    rw [hx, hx']
    rcases x with e | ⟨q, a⟩
    · rfl
    · by_cases h : a.status = .ok <;> cases id <;> simp [h, setPipe, emit]
  exact key _ rfl

/-- Staging a frame writes neither port nor response. -/
theorem stageROn_frame {id : PipeId} {s t : State} {a : Resp} (h : stageROn id s = .ok (t, a)) :
    t.cur = s.cur ∧ t.resp = s.resp := by
  rcases stageROn_cases id s with ⟨e, -, x⟩ | ⟨q, b, -, -, x⟩ | ⟨q, b, -, -, x⟩ <;>
    (rw [x] at h; cases h)
  all_goals cases id <;> exact ⟨rfl, rfl⟩

/-! ## Byte accesses (R65, R69) -/

/-- A byte write stores the byte, or is a stray access. -/
theorem bufWrite_cases (a : Agent) (off : Nat) (v : Byte) (s : State) :
    (mayWrite s a off = true ∧ bufWrite a off v s = .next (setRing s (agentPipe a)
      { (getPipe s (agentPipe a)).ring with buf := memSet (getPipe s (agentPipe a)).ring.buf off v })) ∨
    (mayWrite s a off = false ∧ bufWrite a off v s = .fault .accessOutsideGrant) := by
  unfold bufWrite
  cases h : mayWrite s a off <;> simp

/-- A byte read returns the byte, changing at most the count of draws, or is a stray access. -/
theorem bufRead_cases (a : Agent) (off : Nat) (s : State) :
    (∃ k v, mayRead s a off = true ∧ bufRead a off s = .next
      { setRing s (agentPipe a) { (getPipe s (agentPipe a)).ring with drawn := k } with
        rdata := some ⟨a, off, v⟩ }) ∨
    (mayRead s a off = false ∧ bufRead a off s = .fault .accessOutsideGrant) := by
  unfold bufRead
  cases h : mayRead s a off
  · exact .inr ⟨rfl, rfl⟩
  · obtain ⟨k, hk⟩ := readByte_frame (Config.freeByte (agentPipe a)) off (getPipe s (agentPipe a)).ring
    exact .inl ⟨k, (readByte (Config.freeByte (agentPipe a)) off (getPipe s (agentPipe a)).ring).2, rfl,
      by simp [hk]⟩

end Sys2Proof.Machine
end

