-- ==== Sys2Proof/Laws/Unread.lean ====
section
/-! SUPPORT. The unread data of a ring (R24): what a write grant, a byte access and each finishing command do to it. -/

namespace Sys2Proof.Machine

/-- Which offsets hold unread bytes (R24). -/
theorem mem_unreadOffsets {r : Ring} {k : Nat} :
    k ∈ unreadOffsets r ↔
      (r.write < r.read ∧ ((r.read ≤ k ∧ k < r.last) ∨ k < r.write)) ∨
      (r.read ≤ r.write ∧ r.read ≤ k ∧ k < r.write) := by
  unfold unreadOffsets
  split
  · simp only [List.mem_append, List.mem_range'_1]
    omega
  · simp only [List.mem_range'_1]
    omega

/-- No byte of the outstanding write grant is unread (R42, R64). -/
theorem RingInv.grant_not_unread {n : Nat} {r : Ring} (h : RingInv n r) {g : Grant} (hw : r.wip = true)
    (hg : r.wg = some g) {k : Nat} (hk : Within g.start g.len k) : k ∉ unreadOffsets r := by
  obtain ⟨g', hg', hr, hp⟩ := h.write_grant hw
  obtain rfl : g = g' := by simpa [hg] using hg'
  have := h.cursors_le
  have := h.inverted_ok
  rw [mem_unreadOffsets]
  unfold Within at hk
  omega

/-- Every byte of the outstanding read grant is unread (R42). -/
theorem RingInv.grant_unread {n : Nat} {r : Ring} (h : RingInv n r) {g : Grant} (hr : r.rip = true)
    (hg : r.rg = some g) {k : Nat} (hk : Within g.start g.len k) : k ∈ unreadOffsets r := by
  obtain ⟨g', hg', hs, h1, h4, h5⟩ := h.read_grant hr
  obtain rfl : g = g' := by simpa [hg] using hg'
  rw [mem_unreadOffsets]
  unfold Within at hk
  by_cases hlt : r.write < r.read
  · have := h4 hlt
    omega
  · have := h5 (by omega)
    omega

/-- The unread frames depend only on the cursors and the unread bytes. -/
theorem UnreadFrames.congr {mode : HdrMode} {r r' : Ring} {fs : List (List (Option Byte))}
    (h : UnreadFrames mode r fs) (h1 : r'.write = r.write) (h2 : r'.read = r.read) (h3 : r'.last = r.last)
    (hm : ∀ k ∈ unreadOffsets r, memGet? r'.buf k = memGet? r.buf k) : UnreadFrames mode r' fs := by
  unfold UnreadFrames at h ⊢
  rw [h1, h2, h3]
  by_cases hlt : r.write < r.read
  · simp only [hlt, if_true] at h ⊢
    obtain ⟨f₁, f₂, rfl, hf₁, hf₂⟩ := h
    exact ⟨f₁, f₂, rfl,
      hf₁.congr fun k a b => hm k (mem_unreadOffsets.2 (.inl ⟨hlt, .inl ⟨a, b⟩⟩)),
      hf₂.congr fun k _ b => hm k (mem_unreadOffsets.2 (.inl ⟨hlt, .inr b⟩))⟩
  · simp only [hlt, if_false] at h ⊢
    exact h.congr fun k a b => hm k (mem_unreadOffsets.2 (.inr ⟨by omega, a, b⟩))

/-- The wrap step leaves the unread frames as they are (R132). -/
theorem UnreadFrames.wrap {mode : HdrMode} {r : Ring} {fs : List (List (Option Byte))}
    (h : UnreadFrames mode r fs) : UnreadFrames mode (wrapRead r) fs := by
  rcases wrapRead_cases r with ⟨h1, h2, e⟩ | ⟨-, e⟩ <;> rw [e]
  · unfold UnreadFrames at h ⊢
    simp only [h2, if_true] at h
    obtain ⟨f₁, f₂, rfl, hf₁, hf₂⟩ := h
    rw [h1] at hf₁
    simp [hf₁.empty, hf₂]
  · exact h

/-- What a `READ` finds in a legal framed ring: the oldest frame, whole (R162). -/
theorem UnreadFrames.first {mode : HdrMode} {n : Nat} {r : Ring} {fs : List (List (Option Byte))}
    (h : UnreadFrames mode r fs) (hi : RingInv n r) (he : 1 ≤ readExtent (wrapRead r)) :
    ∃ hl p more, headerAt mode r.buf (wrapRead r).read = some (hl, p) ∧ hl + p ≤ readExtent (wrapRead r) ∧
      fs = bytesAt r.buf (List.range' ((wrapRead r).read + hl) p) :: more := by
  have h' := h.wrap
  have hb : (wrapRead r).buf = r.buf := by rcases wrapRead_cases r with ⟨-, -, e⟩ | ⟨-, e⟩ <;> rw [e]
  have hx := wrapRead_extent hi
  unfold UnreadFrames at h'
  rw [hb] at h'
  generalize wrapRead r = q at *
  unfold readExtent at he ⊢
  by_cases hlt : q.write < q.read
  · simp only [hlt, if_true] at h' he ⊢
    obtain ⟨f₁, f₂, rfl, hf₁, -⟩ := h'
    obtain ⟨hl, p, fs', ha, hle, -, rfl⟩ := hf₁.first (hx hlt)
    exact ⟨hl, p, fs' ++ f₂, ha, by omega, rfl⟩
  · simp only [hlt, if_false] at h' he ⊢
    obtain ⟨hl, p, fs', ha, hle, -, rfl⟩ := h'.first (by omega)
    exact ⟨hl, p, fs', ha, by omega, rfl⟩

/-- Releasing the frame of the read grant removes the oldest frame (R164). -/
theorem UnreadFrames.release {mode : HdrMode} {n : Nat} {r r' : Ring} {fs : List (List (Option Byte))}
    (h : UnreadFrames mode r fs) (hi : RingInv n r) {g : Grant} {hl : Nat} (hr : r.rip = true)
    (hg : r.rg = some g) (hle : hl ≤ g.len) (hd : headerAt mode r.buf g.start = some (hl, g.len - hl))
    (e1 : r'.read = r.read + g.len) (e2 : r'.buf = r.buf) (e3 : r'.write = r.write) (e4 : r'.last = r.last) :
    ∃ first more, fs = first :: more ∧ UnreadFrames mode r' more := by
  obtain ⟨g', hg', hs, h1, h4, h5⟩ := hi.read_grant hr
  obtain rfl : g = g' := by simpa [hg] using hg'
  have hend : r.read + hl + (g.len - hl) = r.read + g.len := by omega
  rw [hs] at hd
  unfold UnreadFrames at h ⊢
  rw [e1, e2, e3, e4]
  by_cases hlt : r.write < r.read
  · have := h4 hlt
    simp only [hlt, if_true] at h
    obtain ⟨f₁, f₂, rfl, hf₁, hf₂⟩ := h
    obtain ⟨hl', p, fs', ha, -, hc, rfl⟩ := hf₁.first (by omega)
    obtain ⟨rfl, rfl⟩ : _ ∧ _ := by simpa [hd] using ha
    have hlt' : r.write < r.read + g.len := by omega
    simp only [hlt', if_true]
    rw [hend] at hc
    exact ⟨_, fs' ++ f₂, rfl, fs', f₂, rfl, hc, hf₂⟩
  · have := h5 (by omega)
    simp only [hlt, if_false] at h
    obtain ⟨hl', p, fs', ha, -, hc, rfl⟩ := h.first (by omega)
    obtain ⟨rfl, rfl⟩ : _ ∧ _ := by simpa [hd] using ha
    have hlt' : ¬ r.write < r.read + g.len := by omega
    simp only [hlt', if_false]
    rw [hend] at hc
    exact ⟨_, fs', rfl, hc⟩

end Sys2Proof.Machine
end

