-- ==== Sys2Proof/Tests/Slice0.lean ====
section
/-! SUPPORT. The model's own tests. Expected values are transcribed from 95_test_vectors.md and
96_test_vectors_traces.md (named per test) or worked out by hand from the rule named. The `witness_` theorems show, for
each obligation with hypotheses, concrete states and operands that meet them. -/

namespace Sys2Proof.Tests

open Sys2Proof Sys2Proof.Machine

/-! ## Ill-formed terms are refused (R93) -/

theorem test_wf_grantW : (Instr.grantW 16777216).wellFormed = false := by decide
theorem test_wf_commit : (Instr.commit 16777216).wellFormed = false := by decide
theorem test_wf_release : (Instr.release 16777216).wellFormed = false := by decide
theorem test_wf_fgrant : (Instr.fgrant 16777216).wellFormed = false := by decide
theorem test_wf_fcommit : (Instr.fcommit 16777216).wellFormed = false := by decide
theorem test_wf_ftoCommit : (Instr.ftoCommit 16777216).wellFormed = false := by decide
theorem test_wf_stageW : (Instr.stageW 16777216).wellFormed = false := by decide
theorem test_wf_finalizeW : (Instr.finalizeW 16777216).wellFormed = false := by decide
theorem test_wf_largest : (Instr.grantW 16777215).wellFormed = true := by decide

/-! ## Decoding (section 2.1 of 95_test_vectors.md) -/

theorem test_decode_ring :
    decode 0x10FFFFFF = .ok (.grantW 16777215) ∧ decode 0x11000005 = .ok (.commit 5) ∧
    decode 0x14000000 = .ok .read ∧ decode 0x1500000B = .ok (.release 11) := by decide

theorem test_decode_framed :
    decode 0x20000080 = .ok (.fgrant 128) ∧ decode 0x21000080 = .ok (.fcommit 128) ∧
    decode 0x22000003 = .ok (.ftoCommit 3) ∧ decode 0x23000000 = .ok .fdropW ∧
    decode 0x24000000 = .ok .fread ∧ decode 0x25000000 = .ok .frelease ∧
    decode 0x26000000 = .ok (.fautoRelease false) ∧ decode 0x26000001 = .ok (.fautoRelease true) ∧
    decode 0x27000000 = .ok .fdropR := by decide

theorem test_decode_pipe :
    decode 0x30000000 = .ok .init ∧ decode 0x31000100 = .ok (.stageW 256) ∧
    decode 0x32000000 = .ok .stageR ∧ decode 0x33000000 = .ok .claimW ∧ decode 0x34000000 = .ok .claimR ∧
    decode 0x35000028 = .ok (.finalizeW 40) ∧ decode 0x36000000 = .ok .finalizeR ∧
    decode 0x37000000 = .ok .abortW ∧ decode 0x38000000 = .ok .abortR ∧ decode 0x39000000 = .ok .queryW ∧
    decode 0x3A000000 = .ok .queryR := by decide

theorem test_decode_datapipes :
    decode 0x40000000 = .ok .dpInit ∧ decode 0x41000000 = .ok .idleStep := by decide

theorem test_decode_illegal :
    decode 0x00000000 = .error .reservedLayer ∧ decode 0x12000000 = .error .reservedFunc ∧
    decode 0x13000000 = .error .reservedFunc ∧ decode 0x16000000 = .error .reservedFunc ∧
    decode 0x14000001 = .error .operandNotZero ∧ decode 0x28000000 = .error .reservedFunc ∧
    decode 0x26000002 = .error .operandNotBoolean ∧ decode 0x3B000000 = .error .reservedFunc ∧
    decode 0x30000001 = .error .operandNotZero ∧ decode 0x42000000 = .error .reservedFunc ∧
    decode 0x50000000 = .error .reservedLayer ∧ decode 0xFFFFFFFF = .error .reservedLayer := by decide

theorem test_encode :
    encode (.grantW 10) = 0x1000000A ∧ encode (.fautoRelease true) = 0x26000001 ∧
    encode (.finalizeW 40) = 0x35000028 ∧ encode .idleStep = 0x41000000 := by decide

theorem test_rows_decode : opcodeRows.all (fun row => (decode row.2).toBool) = true := by decide

theorem test_decode_table_word :
    decodeTableWord 32 0x15000063 = some (.release 99) ∧ decodeTableWord 32 0x3B000000 = none := by decide

/-! ## Response words and headers (sections 2.1 and 2.2 of 95_test_vectors.md, S9) -/

theorem test_response_words :
    respWord ⟨.ok, 260, 256⟩ = 0x0000000104000100 ∧ respWord ⟨.ok, 7, 0⟩ = 0x0000000007000000 ∧
    respWord (bare .insufficientSize) = 0x0001000000000000 ∧
    respWord (bare .grantInProgress) = 0x0002000000000000 ∧ respWord (bare .empty) = 0x0003000000000000 ∧
    respWord (bare .notReady) = 0x0004000000000000 ∧ respWord (bare .badState) = 0x0005000000000000 ∧
    respWord (bare .illegalCmd) = 0x0006000000000000 ∧ respWord (bare .notInit) = 0x0007000000000000 ∧
    respWord (bare .noopStaged) = 0x0008000000000000 := by decide

theorem test_fixed2_headers :
    hdrEnc .fixed2 2 300 = [0x2C, 0x01] ∧ hdrEnc .fixed2 2 65535 = [0xFF, 0xFF] ∧
    hdrValue .fixed2 [0x34, 0x12] = 4660 := by decide

theorem test_varint_headers :
    hdrEnc .varint 1 127 = [0xFF] ∧ hdrEnc .varint 2 300 = [0xB2, 0x04] ∧
    hdrEnc .varint 3 16384 = [0x04, 0x00, 0x02] ∧ hdrEnc .varint 4 16777215 = [0xF8, 0xFF, 0xFF, 0x0F] ∧
    hdrSizeOf .varint 0x16 = 2 ∧ hdrValue .varint [0x16, 0x00] = 5 ∧ hdrSizeOf .varint 0 = 9 := by decide

theorem test_header_sizes :
    [0, 1, 127, 128, 16383, 16384, 2097151, 2097152, 16777215].map (hdrSize .varint) =
      [1, 1, 1, 2, 2, 3, 3, 4, 4] ∧ hdrInRange .fixed2 65536 = false := by decide

/-! ## Small states -/

/-- An instance of a level, with a small storage, after reset, about to run a command at a port. -/
def instAt (l : Level) (n : Nat) (p : Port) : State :=
  { State.resetOf ⟨l, n, .fixed2, 256, .any⟩ with cur := p }

/-- The same with the ring of `P0` given. -/
def withRing (r : Ring) (s : State) : State := { s with p0 := { s.p0 with ring := r } }

/-- A ring with the given cursors and no grant. -/
def cursors (n write read last : Nat) : Ring :=
  { Ring.reset n with write := write, read := read, last := last, reserve := write }

/-- A ring of 64 bytes that holds one `FIXED2` frame of 3 bytes at 0, with a write grant of a header and 10 bytes at 5
(`w`) and the frame granted (`r`). -/
def frameRing (w r : Bool) : Ring :=
  { Ring.reset 64 with
    write := 5
    reserve := if w then 17 else 5
    wip := w
    wg := if w then some ⟨5, 12⟩ else none
    fw := if w then some ⟨2, 0⟩ else none
    rip := r
    rg := if r then some ⟨0, 5⟩ else none
    fr := if r then some ⟨2, false⟩ else none
    buf := ⟨[(0, 3), (1, 0), (2, 17), (3, 34), (4, 51)]⟩ }

/-- The frame that ring holds. -/
def oneFrame : List (Option Byte) := [some 17, some 34, some 51]

/-- An initialised Pipe on that ring with the given tags, claimed by the `HP` context where `GRANT_BUSY`. -/
def framePipe (w r : Tag) : Pipe :=
  { ring := frameRing (w != .idle) (r != .idle), wrState := w, rdState := r, wrSlot := w != .idle,
    rdSlot := r != .idle, wrPtr := 7, wrLen := 10, rdPtr := 2, rdLen := 3, inited := true,
    wrClaim := if w = .grantBusy then some .hp else none,
    rdClaim := if r = .grantBusy then some .hp else none }

/-- A framed instance on that ring. -/
def framedAt (w r : Bool) (p : Port) : State := withRing (frameRing w r) (instAt .framed 64 p)

/-- A `PIPE` instance whose Pipe is that Pipe. -/
def pipeAt (w r : Tag) (p : Port) : State := { instAt .pipe 64 p with p0 := framePipe w r }

/-- A `DATAPIPES` instance of two such Pipes that stages 10 bytes at a time. -/
def dataAt (w r : Tag) (p : Port) : State :=
  { State.resetOf ⟨.datapipes, 64, .fixed2, 10, .any⟩ with
    p0 := framePipe w r, p1 := framePipe w r, cur := p }

/-- The outcome is a next state that passes a check. -/
def nextIs (o : Host.Outcome State Fault Refusal) (ok : State → Bool) : Bool :=
  match o with
  | .next t => ok t
  | _ => false

/-- The outcome is the given fault. -/
def faultIs (o : Host.Outcome State Fault Refusal) (f : Fault) : Bool :=
  match o with
  | .fault g => g == f
  | _ => false

/-- The response word. -/
def said (t : State) : Option RespWord := t.resp.map (·.2)

/-! ## One step of each command -/

-- 95 section 2.3, GRANT_W: write = read = 10, sz = 8: wrapped.
theorem test_grantW_wraps :
    nextIs (exec (.grantW 8) (withRing (cursors 16 10 10 16) (instAt .ring 16 (.producer .lp))))
      (fun t => said t == some 0x8 && t.p0.ring.reserve == 8 && t.p0.ring.wg == some ⟨0, 8⟩) = true := by
  decide

-- 95 section 2.3, GRANT_W: write = 3, read = 8, sz = 5: 3 + 5 < 8 is false.
theorem test_grantW_strict :
    nextIs (exec (.grantW 5) (withRing (cursors 16 3 8 12) (instAt .ring 16 (.producer .lp))))
      (fun t => said t == some 0x0001000000000000 && t.p0.ring.wip == false) = true := by decide

-- 96, T1 row 6: COMMIT 5 of the wrapped grant.
theorem test_commit_wrapped :
    nextIs (exec (.commit 5) (withRing (setWriteGrant 0 8 (cursors 16 10 10 16))
        (instAt .ring 16 (.producer .lp))))
      (fun t => t.p0.ring == cursors 16 5 10 10) = true := by decide

-- 96, T3 row 6: COMMIT 9 of a grant of 4 is clamped.
theorem test_commit_clamped :
    nextIs (exec (.commit 9) (withRing (setWriteGrant 0 4 (cursors 16 0 0 16))
        (instAt .ring 16 (.producer .lp))))
      (fun t => t.p0.ring == cursors 16 4 0 16) = true := by decide

-- 95 section 2.3, READ: write = 5, read = last = 10: the wrap step.
theorem test_read_wraps :
    nextIs (exec .read (withRing (cursors 16 5 10 10) (instAt .ring 16 (.consumer .hp))))
      (fun t => said t == some 0x5 && t.p0.ring.read == 0 && t.p0.ring.rg == some ⟨0, 5⟩) = true := by decide

-- 95 section 2.3, READ: write = read = last = 16: EMPTY, no wrap step.
theorem test_read_empty :
    nextIs (exec .read (withRing (cursors 16 16 16 16) (instAt .ring 16 (.consumer .hp))))
      (fun t => said t == some 0x0003000000000000 && t.p0.ring.read == 16) = true := by decide

-- 96, T3 row 11: RELEASE 2 of 4.
theorem test_release_part :
    nextIs (exec (.release 2) (withRing (setReadGrant 0 4 (cursors 16 4 0 16))
        (instAt .ring 16 (.consumer .hp))))
      (fun t => t.p0.ring == cursors 16 4 2 16) = true := by decide

-- 95, P2 row 4: FGRANT 300 behind a frame.
theorem test_fgrant :
    nextIs (exec (.fgrant 300) (withRing (cursors 1000 7 0 1000) (instAt .framed 1000 (.producer .lp))))
      (fun t => said t == some 0x000000000900012C && t.p0.ring.wg == some ⟨7, 302⟩) = true := by decide

-- R155, R156: header 04 00 at 5, payload of 4 bytes at 7, write = 11.
theorem test_fcommit :
    nextIs (exec (.fcommit 4) (framedAt true false (.producer .lp)))
      (fun t => t.p0.ring.write == 11 && memGet? t.p0.ring.buf 5 == some 4 &&
        memGet? t.p0.ring.buf 6 == some 0 && memGet? t.p0.ring.buf 7 == none &&
        t.p0.ring.fw == none) = true := by decide

-- R158: the amount is stored as given.
theorem test_ftoCommit :
    nextIs (exec (.ftoCommit 500) (framedAt true false (.producer .lp)))
      (fun t => t.p0.ring.fw == some ⟨2, 500⟩ && t.p0.ring.write == 5) = true := by decide

-- 95, P2 row 9: a drop with to_commit = 0 publishes nothing.
theorem test_fdropW :
    nextIs (exec .fdropW (framedAt true false (.producer .lp)))
      (fun t => t.p0.ring == frameRing false false) = true := by decide

-- R160: the frame of 3 bytes at offset 2.
theorem test_fread :
    nextIs (exec .fread (framedAt false false (.consumer .hp)))
      (fun t => said t == some 0x0000000002000003 && t.p0.ring == frameRing false true) = true := by decide

-- 95 section 2.7, last row: VARINT first byte 00.
theorem test_fread_corrupt :
    faultIs (exec .fread { framedAt false false (.consumer .hp) with
        cfg := ⟨.framed, 64, .varint, 256, .any⟩
        p0 := { Pipe.reset 64 with
          ring := { cursors 64 4 0 64 with buf := ⟨[(0, 0)]⟩ } } }) .corruptFrame = true := by decide

-- R164: the whole frame is released.
theorem test_frelease :
    nextIs (exec .frelease (framedAt false true (.consumer .hp)))
      (fun t => t.p0.ring == { frameRing false false with read := 5 }) = true := by decide

-- 95, P2 row 14.
theorem test_fautoRelease :
    nextIs (exec (.fautoRelease true) (framedAt false true (.consumer .hp)))
      (fun t => t.p0.ring.fr == some ⟨2, true⟩ && t.p0.ring.rip) = true := by decide

-- 95, P2 row 12: the frame stays.
theorem test_fdropR :
    nextIs (exec .fdropR (framedAt false true (.consumer .hp)))
      (fun t => t.p0.ring == frameRing false false) = true := by decide

-- 95, S2 row 2 and P4 row 2.
theorem test_init :
    nextIs (exec .init (instAt .pipe 64 (.pipe .p0 .lp)))
      (fun t => said t == some 0 && t.p0.inited) = true ∧
    nextIs (exec .init (pipeAt .idle .idle (.pipe .p0 .lp)))
      (fun t => said t == some 0x0007000000000000) = true := by decide

-- R184: header and 20 bytes behind the frame, with the event.
theorem test_stageW :
    nextIs (exec (.stageW 20) (pipeAt .idle .idle (.pipe .p0 .lp)))
      (fun t => said t == some 0x0000000007000014 && t.p0.wrState == .grantReady &&
        t.events == [⟨.p0, .w, 7, 20⟩]) = true := by decide

-- 95, S2 row 8: STAGE_W while GRANT_BUSY is a no-op.
theorem test_stageW_noop :
    nextIs (exec (.stageW 20) (pipeAt .grantBusy .idle (.pipe .p0 .lp)))
      (fun t => said t == some 0x0008000000000000 && t.events == []) = true := by decide

-- R187: the frame is staged, with the event.
theorem test_stageR :
    nextIs (exec .stageR (pipeAt .idle .idle (.pipe .p0 .lp)))
      (fun t => said t == some 0x0000000002000003 && t.p0.rdState == .grantReady &&
        t.events == [⟨.p0, .r, 2, 3⟩]) = true := by decide

-- 95 section 2.5: CLAIM_W in GRANT_READY and in IDLE.
theorem test_claimW :
    nextIs (exec .claimW (pipeAt .grantReady .idle (.pipe .p0 .hp)))
      (fun t => said t == some 0x000000000700000A && t.p0 == framePipe .grantBusy .idle) = true ∧
    nextIs (exec .claimW (pipeAt .idle .idle (.pipe .p0 .hp)))
      (fun t => said t == some 0x0004000000000000) = true := by decide

theorem test_claimR :
    nextIs (exec .claimR (pipeAt .idle .grantReady (.pipe .p0 .hp)))
      (fun t => said t == some 0x0000000002000003 && t.p0 == framePipe .idle .grantBusy) = true := by decide

-- R192: FINALIZE_W 4 writes header 04 00 at 5 and empties the slot.
theorem test_finalizeW :
    nextIs (exec (.finalizeW 4) (pipeAt .grantBusy .idle (.pipe .p0 .hp)))
      (fun t => t.p0.ring.write == 11 && memGet? t.p0.ring.buf 5 == some 4 && t.p0.wrState == .idle &&
        t.p0.wrSlot == false && t.p0.wrPtr == 7) = true := by decide

-- 95 section 2.5: FINALIZE_W in GRANT_READY.
theorem test_finalizeW_unclaimed :
    nextIs (exec (.finalizeW 4) (pipeAt .grantReady .idle (.pipe .p0 .hp)))
      (fun t => said t == some 0x0005000000000000 && t.p0 == framePipe .grantReady .idle) = true := by decide

theorem test_finalizeR :
    nextIs (exec .finalizeR (pipeAt .idle .grantBusy (.pipe .p0 .hp)))
      (fun t => t.p0.ring.read == 5 && t.p0.rdState == .idle && t.p0.rdSlot == false) = true := by decide

-- 95 section 2.5: ABORT_W in GRANT_READY discards the grant, in GRANT_BUSY it is refused.
theorem test_abortW :
    nextIs (exec .abortW (pipeAt .grantReady .idle (.pipe .p0 .lp)))
      (fun t => t.p0 == framePipe .idle .idle) = true ∧
    nextIs (exec .abortW (pipeAt .grantBusy .idle (.pipe .p0 .lp)))
      (fun t => said t == some 0x0005000000000000) = true := by decide

-- 95, P4 row 17: the frame stays.
theorem test_abortR :
    nextIs (exec .abortR (pipeAt .idle .grantReady (.pipe .p0 .lp)))
      (fun t => t.p0 == framePipe .idle .idle) = true := by decide

-- 95 section 2.5: QUERY_W in GRANT_BUSY; QUERY_R in IDLE.
theorem test_queries :
    nextIs (exec .queryW (pipeAt .grantBusy .idle (.pipe .p0 .lp)))
      (fun t => said t == some 0x000000000700000A) = true ∧
    nextIs (exec .queryR (pipeAt .idle .idle (.pipe .p0 .lp)))
      (fun t => said t == some 0x0004000000000000) = true := by decide

-- 95, P5 rows 2 and 3.
theorem test_dpInit :
    nextIs (exec .dpInit (instAt .datapipes 64 .dp))
      (fun t => said t == some 0 && t.p0.inited && t.p1.inited) = true ∧
    nextIs (exec .dpInit (dataAt .idle .idle .dp))
      (fun t => said t == some 0x0007000000000000) = true := by decide

-- R223: the first of the four steps stages P0's write direction and answers nothing yet.
theorem test_idleStep :
    nextIs (exec .idleStep (dataAt .idle .idle .dp))
      (fun t => t.resp == none && t.idle == some ⟨.p0r, 1⟩ && t.events == [⟨.p0, .w, 7, 10⟩]) = true := by
  decide

-- R223: the fourth step answers the number of successful attempts.
theorem test_idleStep_last :
    nextIs (step { dataAt .idle .idle .dp with idle := some ⟨.p1r, 2⟩, inputs := [.resume] })
      (fun t => said t == some 3 && t.idle == none && t.events == [⟨.p1, .r, 2, 3⟩]) = true := by decide

/-! ## Steps of the agents (section 2.7 of 95_test_vectors.md) -/

-- A byte one past the grant.
theorem test_write_past_grant :
    faultIs (step { withRing (setWriteGrant 0 4 (cursors 16 0 0 16)) (instAt .ring 16 (.producer .lp)) with
        prodBy := some .lp, inputs := [.bufWrite (.port (.producer .lp)) 4 0xAA] }) .accessOutsideGrant = true := by
  decide

-- A DMA access to a staged grant that is not yet claimed.
theorem test_dma_before_claim :
    faultIs (step { pipeAt .grantReady .idle (.pipe .p0 .lp) with
        inputs := [.bufWrite (.dma .p0 .w) 7 0xAA] }) .accessOutsideGrant = true := by decide

-- A DMA access to the claimed grant stores the byte.
theorem test_dma_writes :
    nextIs (step { pipeAt .grantBusy .idle (.pipe .p0 .lp) with inputs := [.bufWrite (.dma .p0 .w) 7 0xAA] })
      (fun t => memGet? t.p0.ring.buf 7 == some 0xAA) = true := by decide

/-- A loop inside its `IDLE_STEP`, before its last attempt, on one core. -/
def insideIdle (handlers : Nat) (a : Action) : State :=
  { dataAt .idle .idle .dp with
    cfg := ⟨.datapipes, 64, .fixed2, 10, .singleCorePriority⟩, idle := some ⟨.p1r, 2⟩, handlers := handlers,
    inputs := [a] }

-- R241, R242: inside its IDLE_STEP the one loop does nothing else, a handler may step.
theorem test_loop_goes_on :
    actionEnabled (insideIdle 0 (.cmd (.pipe .p0 .lp) 0x39000000)) (.cmd (.pipe .p0 .lp) 0x39000000) = false ∧
    nextIs (step (insideIdle 0 (.cmd (.pipe .p0 .lp) 0x39000000))) (fun _ => true) = false ∧
    nextIs (step (insideIdle 1 (.cmd (.pipe .p0 .hp) 0x39000000)))
      (fun t => said t == some 0x0004000000000000) = true ∧
    nextIs (step (insideIdle 0 .resume)) (fun t => said t == some 3) = true := by decide

-- R241: handlers nest; R224: the oldest event is taken.
theorem test_handlers_and_events :
    nextIs (step { dataAt .idle .idle .dp with handlers := 1, inputs := [.handlerStart] })
      (fun t => t.handlers == 2) = true ∧
    nextIs (step { dataAt .idle .idle .dp with
        events := [⟨.p0, .w, 2, 9⟩, ⟨.p1, .r, 2, 3⟩], inputs := [.takeEvent] })
      (fun t => t.events == [⟨.p1, .r, 2, 3⟩]) = true := by decide

-- 95 section 2.1: an illegal word at the DP port.
theorem test_illegal_word :
    nextIs (step { instAt .datapipes 64 .dp with inputs := [.cmd .dp 0x50000000] })
      (fun t => said t == some 0x0006000000000000) = true := by decide

-- The host's placement: the command is the next step's, from reset (R122, R260).
theorem test_withFetchWord :
    nextIs (step (State.reset.withFetchWord 32 0x1000000A))
      (fun t => said t == some 0xA && t.p0.ring.reserve == 10) = true := by decide

/-! ## Legal states for the witnesses -/

theorem cursors_inv {write read last : Nat} (h : read ≤ 16 ∧ write ≤ 16 ∧ last ≤ 16)
    (h1 : write < read → read ≤ last ∧ 1 ≤ write) (h2 : write = 16 → last = 16) :
    RingInv 16 (cursors 16 write read last) where
  cursors_le := ⟨h.1, h.2.1, h.2.2, h.2.1⟩
  inverted_ok := h1
  full_last := h2
  no_write_grant := fun _ => ⟨rfl, rfl⟩
  write_grant := nofun
  no_read_grant := fun _ => rfl
  read_grant := nofun
  storage_wf := List.Pairwise.nil
  storage_in := fun _ _ => rfl

theorem frameRing_inv (w r : Bool) : RingInv 64 (frameRing w r) where
  cursors_le := by cases w <;> cases r <;> decide
  inverted_ok := fun h => absurd h (by simp [frameRing, Ring.reset])
  full_last := fun h => absurd h (by simp [frameRing])
  no_write_grant := by cases w <;> simp [frameRing]
  write_grant := by cases w <;> simp [frameRing, Ring.reset]
  no_read_grant := by cases r <;> simp [frameRing]
  read_grant := by cases r <;> simp [frameRing, Ring.reset]
  storage_wf := by simp [frameRing, Memory.wf]
  storage_in := fun off h => by
    have : 0 ≠ off ∧ 1 ≠ off ∧ 2 ≠ off ∧ 3 ≠ off ∧ 4 ≠ off := by omega
    simp [frameRing, memGet?, cellsGet?, this]

theorem frameRing_frames (w r : Bool) : UnreadFrames .fixed2 (frameRing w r) [oneFrame] :=
  Frames.frame (h := 2) (p := 3) (by rfl) (by show 0 + 2 + 3 ≤ 5; decide) (Frames.done _)

theorem frameRing_framed (w r : Bool) : FramedInv .fixed2 (frameRing w r) where
  unread_frames := ⟨_, frameRing_frames w r⟩
  no_frame_write := by cases w <;> simp [frameRing]
  frame_write := by
    cases w
    · nofun
    · exact fun _ => ⟨⟨5, 12⟩, ⟨2, 0⟩, rfl, rfl, by decide, rfl, by decide⟩
  no_frame_read := by cases r <;> simp [frameRing]
  frame_read := by
    cases r
    · nofun
    · exact fun _ => ⟨⟨0, 5⟩, ⟨2, false⟩, rfl, rfl, by decide, rfl⟩

theorem framePipe_inv (w r : Tag) : PipeInv (framePipe w r) where
  write_slot := by cases w <;> cases r <;> decide
  write_flag := by cases w <;> cases r <;> decide
  read_slot := by cases w <;> cases r <;> decide
  read_flag := by cases w <;> cases r <;> decide
  write_region := by
    intro h
    exact ⟨⟨5, 12⟩, ⟨2, 0⟩, by cases w <;> first | rfl | exact absurd rfl h,
      by cases w <;> first | rfl | exact absurd rfl h, rfl, rfl⟩
  read_region := by
    intro h
    exact ⟨⟨0, 5⟩, ⟨2, false⟩, by cases r <;> first | rfl | exact absurd rfl h,
      by cases r <;> first | rfl | exact absurd rfl h, rfl, rfl⟩
  write_claim := by cases w <;> cases r <;> decide
  read_claim := by cases w <;> cases r <;> decide
  before_init := nofun

theorem freshRing_framed (n : Nat) : FramedInv .fixed2 (Ring.reset n) where
  unread_frames := ⟨[], Frames.done 0⟩
  no_frame_write := fun _ => rfl
  frame_write := nofun
  no_frame_read := fun _ => rfl
  frame_read := nofun

theorem freshPipe_inv (n : Nat) : PipeInv (Pipe.reset n) := by
  constructor <;> simp [Pipe.reset, Ring.reset]

/-- A legal `RING` instance on a legal ring of 16 bytes. -/
theorem ringAt_legal {r : Ring} (h : RingInv 16 r) (p : Port) : StateInv (withRing r (instAt .ring 16 p)) where
  config_wf := by show 1 ≤ 16 ∧ 16 ≤ 2 ^ 24 - 1 ∧ 256 < 2 ^ 24; decide
  ring0 := h
  ring1 := reset_ringInv 16
  framed0 := fun h => absurd rfl h
  framed1 := fun h => absurd rfl h
  pipe0 := nofun
  pipe1 := nofun
  idle_run := nofun

theorem framedAt_legal (w r : Bool) (p : Port) : StateInv (framedAt w r p) where
  config_wf := by show 1 ≤ 64 ∧ 64 ≤ 2 ^ 24 - 1 ∧ 256 < 2 ^ 24; decide
  ring0 := frameRing_inv w r
  ring1 := reset_ringInv 64
  framed0 := fun _ => frameRing_framed w r
  framed1 := fun _ => freshRing_framed 64
  pipe0 := nofun
  pipe1 := nofun
  idle_run := nofun

theorem pipeAt_legal (w r : Tag) (p : Port) : StateInv (pipeAt w r p) where
  config_wf := by show 1 ≤ 64 ∧ 64 ≤ 2 ^ 24 - 1 ∧ 256 < 2 ^ 24; decide
  ring0 := frameRing_inv _ _
  ring1 := reset_ringInv 64
  framed0 := fun _ => frameRing_framed _ _
  framed1 := fun _ => freshRing_framed 64
  pipe0 := fun _ => framePipe_inv w r
  pipe1 := fun _ => freshPipe_inv 64
  idle_run := nofun

theorem dataAt_legal (w r : Tag) (p : Port) : StateInv (dataAt w r p) where
  config_wf := by show 1 ≤ 64 ∧ 64 ≤ 2 ^ 24 - 1 ∧ 10 < 2 ^ 24; decide
  ring0 := frameRing_inv _ _
  ring1 := frameRing_inv _ _
  framed0 := fun _ => frameRing_framed _ _
  framed1 := fun _ => frameRing_framed _ _
  pipe0 := fun _ => framePipe_inv w r
  pipe1 := fun _ => framePipe_inv w r
  idle_run := nofun

/-- The drop choices are free in a legal state: a write grant to be committed, a frame to be released. -/
theorem dropChoices_legal (p : Port) : StateInv (withRing
    { frameRing true true with fw := some ⟨2, 7⟩, fr := some ⟨2, true⟩ } (instAt .framed 64 p)) :=
  { framedAt_legal true true p with
    pipe0 := nofun
    ring0 := { frameRing_inv true true with }
    framed0 := fun _ => { frameRing_framed true true with
      no_frame_write := nofun
      frame_write := fun _ => ⟨⟨5, 12⟩, ⟨2, 7⟩, rfl, rfl, by decide, rfl, by decide⟩
      no_frame_read := nofun
      frame_read := fun _ => ⟨⟨0, 5⟩, ⟨2, true⟩, rfl, rfl, by decide, rfl⟩ } }

/-- Legality does not depend on the schedule. -/
theorem legal_inputs {s : State} (h : StateInv s) (acts : List Action) : StateInv { s with inputs := acts } :=
  { h with }

/-- A `RING` instance with the given cursors and no grant. -/
def ringAt (write read last : Nat) (p : Port) : State := withRing (cursors 16 write read last) (instAt .ring 16 p)

/-- The same with a write grant. -/
def writingAt (write read last start len : Nat) : State :=
  withRing (setWriteGrant start len (cursors 16 write read last)) (instAt .ring 16 (.producer .lp))

/-- The same with a read grant. -/
def readingAt (write read last start len : Nat) : State :=
  withRing (setReadGrant start len (cursors 16 write read last)) (instAt .ring 16 (.consumer .hp))

theorem prod_ring (r : Ring) : AtProducer .ring (withRing r (instAt .ring 16 (.producer .lp))) := ⟨rfl, .lp, rfl⟩
theorem cons_ring (r : Ring) : AtConsumer .ring (withRing r (instAt .ring 16 (.consumer .hp))) := ⟨rfl, .hp, rfl⟩
theorem prod_framed (w r : Bool) : AtProducer .framed (framedAt w r (.producer .lp)) := ⟨rfl, .lp, rfl⟩
theorem cons_framed (w r : Bool) : AtConsumer .framed (framedAt w r (.consumer .hp)) := ⟨rfl, .hp, rfl⟩
theorem at_pipe (w r : Tag) (c : Ctx) : AtPipe .p0 c (pipeAt w r (.pipe .p0 c)) := ⟨rfl, .inr ⟨rfl, rfl⟩⟩
theorem at_data_pipe (w r : Tag) (c : Ctx) : AtPipe .p1 c (dataAt w r (.pipe .p1 c)) := ⟨rfl, .inl rfl⟩

/-! ## Witnesses: encodings and steps -/

theorem witness_DecodeOfEncode : (Instr.finalizeW 16777215).WellFormed ∧ (Instr.fautoRelease true).WellFormed := by
  decide

theorem witness_EncodeOfDecode : decode 0x35FFFFFF = .ok (.finalizeW 16777215) := by decide

/-- The encoding clause of every per-command statement: each opcode is some word's, and a format `Z` opcode stands before
a zero and before a non-zero operand. -/
theorem witness_EncodedC_EncodedZ :
    opcodeRows.map (fun row => opcodeField row.2) =
      [0x10, 0x11, 0x14, 0x15, 0x20, 0x21, 0x22, 0x23, 0x24, 0x25, 0x26, 0x27, 0x30, 0x31, 0x32, 0x33, 0x34,
       0x35, 0x36, 0x37, 0x38, 0x39, 0x3A, 0x40, 0x41] ∧
    opcodeField 0x14000001 = 0x14 ∧ imm24Field 0x14000001 = 1 ∧ imm24Field 0x14000000 = 0 ∧
    opcodeField 0x26000002 = 0x26 ∧ imm24Field 0x26000002 = 2 ∧ imm24Field 0x10FFFFFF = 16777215 := by decide

theorem witness_ResponseWordLayout :
    (Resp.mk .ok 16777215 16777215).ptr < 2 ^ 24 ∧ (Resp.mk .ok 16777215 16777215).len < 2 ^ 24 := by decide

theorem witness_StepRunsDecodedCommand :
    let s := { instAt .ring 16 .dp with inputs := [.cmd (.producer .lp) 0x1000000A], prodBy := some .lp }
    canArrive (.producer .lp) 0x1000000A s ∧ decode 0x1000000A = .ok (.grantW 10) :=
  ⟨⟨rfl, rfl, nofun, fun c h => by cases h; exact .inr rfl, nofun⟩, by decide⟩

theorem witness_StepRunsDecodedCommand_dp :
    let s := { instAt .datapipes 64 .dp with inputs := [.cmd .dp 0x41000000] }
    canArrive .dp 0x41000000 s ∧ decode 0x41000000 = .ok .idleStep :=
  ⟨⟨rfl, rfl, fun _ => rfl, nofun, nofun⟩, by decide⟩

theorem witness_IllegalWordAnswered :
    let s := { instAt .framed 16 .dp with inputs := [.cmd (.consumer .hp) 0x26000002] }
    canArrive (.consumer .hp) 0x26000002 s ∧ ¬ MatchesRow 0x26000002 :=
  ⟨⟨rfl, rfl, nofun, nofun, fun c h => .inl rfl⟩, by unfold MatchesRow; decide⟩

theorem witness_WrongPortAnswersIllegal :
    let s := instAt .framed 16 (.producer .lp)
    acceptedAt s.cfg.level s.cur (.grantW 4) = false := by decide

theorem witness_FailureChangesNothing :
    let s := ringAt 0 0 16 (.consumer .hp)
    StateInv s ∧ s.resp = none ∧ ∃ t w, exec (.release 1) s = .next t ∧ t.resp = some (s.cur, w) ∧
      respStatus w = 5 :=
  ⟨ringAt_legal (cursors_inv (by decide) (by decide) (by decide)) _, rfl, _, _, rfl, rfl, by decide⟩

/-- Each kind of step of each context, with and without a handler, with and without an `IDLE_STEP`. -/
theorem witness_HandlersHoldBackTheLoop (h : Nat) (run : Option IdleRun) (c : Ctx) (sched : Sched) :
    let s (a : Action) : State := { State.resetOf ⟨.datapipes, 64, .fixed2, 256, sched⟩ with
      handlers := h, idle := run, inputs := [a] }
    (s .resume).cfg.sched = sched ∧ (s .resume).handlers = h ∧ (s .resume).idle = run ∧ TakenBy .lp .resume ∧
    TakenBy c (.cmd (.pipe .p0 c) 0x39000000) ∧ TakenBy c (.bufWrite (.port (.pipe .p0 c)) 7 0) ∧
    TakenBy c (.bufRead (.port (.pipe .p0 c)) 7) ∧
    (s (.bufWrite (.dma .p0 .w) 7 0)).inputs = [.bufWrite (.dma .p0 .w) 7 0] ∧
    (s (.bufRead (.dma .p0 .r) 7)).inputs = [.bufRead (.dma .p0 .r) 7] ∧
    (s .handlerStart).inputs = [.handlerStart] ∧ (s .handlerEnd).inputs = [.handlerEnd] :=
  ⟨rfl, rfl, rfl, .inl ⟨rfl, rfl⟩, .inr (.inl ⟨_, _, rfl, rfl⟩), .inr (.inr (.inl ⟨_, _, _, rfl, rfl⟩)),
    .inr (.inr (.inr ⟨_, _, rfl, rfl⟩)), rfl, rfl, rfl, rfl⟩

theorem witness_SecondContextFaults :
    let s := { instAt .ring 16 .dp with
      prodBy := some .lp, consBy := some .lp, inputs := [.cmd (.producer .hp) 0x10000001] }
    let u := { s with inputs := [.cmd (.consumer .hp) 0x14000000] }
    s.cfg.sched = .any ∧ s.cfg.level = .ring ∧ s.prodBy = some .lp ∧ u.consBy = some .lp ∧ Ctx.hp ≠ .lp := by
  decide

/-! ## Witnesses: the ring commands -/

/-- A command and a step that answer, for a ring and for Pipes. -/
theorem witness_ParametersAreConstant :
    (∃ t, exec (.grantW 8) (ringAt 10 10 16 (.producer .lp)) = .next t) ∧
    ∃ t, step { dataAt .idle .idle .dp with inputs := [.cmd .dp 0x41000000] } = .next t :=
  ⟨⟨_, rfl⟩, _, rfl⟩

theorem witness_GrantWReserves :
    AtProducer .ring (writingAt 0 0 16 0 4) ∧ (writingAt 0 0 16 0 4).p0.ring.wip = true ∧
    AtProducer .ring (ringAt 5 5 16 (.producer .lp)) ∧ (ringAt 5 5 16 (.producer .lp)).p0.ring.wip = false ∧
    (¬ ∃ start, Placed 16 12 (cursors 16 5 5 16) start) ∧ Placed 16 11 (cursors 16 5 5 16) 5 ∧
    Placed 16 9 (cursors 16 10 10 16) 0 ∧ Placed 16 4 (cursors 16 3 8 12) 3 := by
  refine ⟨prod_ring _, rfl, prod_ring _, rfl, ?_, ?_, ?_, ?_⟩ <;> simp [Placed, cursors]

theorem witness_CommitPublishes :
    AtProducer .ring (ringAt 0 0 16 (.producer .lp)) ∧ (ringAt 0 0 16 (.producer .lp)).p0.ring.wip = false ∧
    AtProducer .ring (writingAt 10 10 16 0 8) ∧ (writingAt 10 10 16 0 8).p0.ring.wip = true ∧
    (writingAt 10 10 16 0 8).p0.ring.wg = some ⟨0, 8⟩ ∧ min 0 8 = 0 ∧ min 9 8 ≠ 0 :=
  ⟨prod_ring _, rfl, prod_ring _, rfl, rfl, rfl, by decide⟩

theorem witness_ReadGrantsUnread :
    AtConsumer .ring (readingAt 4 0 16 0 4) ∧ (readingAt 4 0 16 0 4).p0.ring.rip = true ∧
    AtConsumer .ring (ringAt 16 16 16 (.consumer .hp)) ∧
    (ringAt 16 16 16 (.consumer .hp)).p0.ring.rip = false ∧ readLen (cursors 16 16 16 16) = 0 ∧
    readLen (cursors 16 5 10 10) ≠ 0 ∧ readLen (cursors 16 5 8 12) ≠ 0 :=
  ⟨cons_ring _, rfl, cons_ring _, rfl, by decide, by decide, by decide⟩

theorem witness_ReleaseFrees :
    AtConsumer .ring (ringAt 0 0 16 (.consumer .hp)) ∧ (ringAt 0 0 16 (.consumer .hp)).p0.ring.rip = false ∧
    AtConsumer .ring (readingAt 4 0 16 0 4) ∧ (readingAt 4 0 16 0 4).p0.ring.rip = true ∧
    (readingAt 4 0 16 0 4).p0.ring.rg = some ⟨0, 4⟩ :=
  ⟨cons_ring _, rfl, cons_ring _, rfl, rfl⟩

/-- The largest size that fits, and one more: an inverted ring (`8 - 3 - 1 = 4`). -/
theorem witness_GrantsFitFreeSpace :
    let s := ringAt 3 8 12 (.producer .lp)
    StateInv s ∧ AtProducer .ring s ∧ s.p0.ring.wip = false ∧ s.p0.ring.write < s.p0.ring.read ∧
    s.p0.ring.read - s.p0.ring.write - 1 < 5 ∧ 4 ≤ s.p0.ring.read - s.p0.ring.write - 1 :=
  ⟨ringAt_legal (cursors_inv (by decide) (by decide) (by decide)) _, prod_ring _, rfl, by decide, by decide,
    by decide⟩

/-- An empty ring for the write grant, wrapped; one whose upper data is exhausted for the read grant. -/
theorem witness_DroppedGrantsLeaveNoTrace :
    let s := ringAt 10 10 16 (.producer .lp)
    let u := ringAt 5 10 10 (.consumer .hp)
    StateInv s ∧ s.cfg.level = .ring ∧ s.p0.ring.wip = false ∧
    StateInv u ∧ u.cfg.level = .ring ∧ u.p0.ring.rip = false ∧ 0 < avail u.p0.ring :=
  ⟨ringAt_legal (cursors_inv (by decide) (by decide) (by decide)) _, rfl, rfl,
    ringAt_legal (cursors_inv (by decide) (by decide) (by decide)) _, rfl, rfl, by decide⟩

theorem witness_RingConservation :
    (Config.mk .ring 1 .fixed2 256 .any).WellFormed ∧ (Config.mk .ring 16777215 .fixed2 256 .any).WellFormed := by
  decide

/-- A commit of a wrapped grant, and a release of part of a grant. -/
theorem witness_UnreadBytesAreAQueue :
    StateInv (withRing (ringGrantW 16 8 (cursors 16 10 10 16)).1 (instAt .ring 16 (.producer .lp))) ∧
    (ringGrantW 16 8 (cursors 16 10 10 16)).1.wg = some ⟨0, 8⟩ ∧
    StateInv (withRing (ringRead (cursors 16 5 10 10)).1 (instAt .ring 16 (.consumer .hp))) ∧
    (ringRead (cursors 16 5 10 10)).1.rg = some ⟨0, 5⟩ ∧
    (∃ t, exec (.commit 5) (withRing (ringGrantW 16 8 (cursors 16 10 10 16)).1
      (instAt .ring 16 (.producer .lp))) = .next t) ∧
    (∃ t, exec (.release 2) (withRing (ringRead (cursors 16 5 10 10)).1
      (instAt .ring 16 (.consumer .hp))) = .next t) :=
  ⟨ringAt_legal ((cursors_inv (by decide) (by decide) (by decide)).grantW 8) _, by decide,
    ringAt_legal (cursors_inv (by decide) (by decide) (by decide)).read _, by decide, ⟨_, rfl⟩, ⟨_, rfl⟩⟩

theorem witness_RingMakesProgress :
    let s := ringAt 5 10 10 (.consumer .hp)
    let u := ringAt 10 10 16 (.producer .lp)
    StateInv s ∧ s.p0.ring.wip = false ∧ s.p0.ring.rip = false ∧ 0 < avail s.p0.ring ∧
    StateInv u ∧ avail u.p0.ring = 0 ∧ u.p0.ring.write + 6 ≤ u.cfg.n ∧ 9 < u.p0.ring.read ∧
    (u.cfg.n < u.p0.ring.write + 10 ∧ u.p0.ring.read ≤ 10) ∧ 7 ≤ (u.cfg.n - 1) / 2 :=
  ⟨ringAt_legal (cursors_inv (by decide) (by decide) (by decide)) _, rfl, rfl, by decide,
    ringAt_legal (cursors_inv (by decide) (by decide) (by decide)) _, by decide, by decide, by decide, by decide,
    by decide⟩

/-! ## Witnesses: headers and framed commands -/

theorem witness_HeaderRoundTrip :
    HeaderCarries .fixed2 2 65535 ∧ HeaderCarries .varint 1 127 ∧ HeaderCarries .varint 8 (2 ^ 56 - 1) := by
  simp [HeaderCarries]

theorem witness_HeaderSizeTable :
    (127 < 2 ^ 7) ∧ (2 ^ 7 ≤ 16383 ∧ 16383 < 2 ^ 14) ∧ (2 ^ 14 ≤ 2097151 ∧ 2097151 < 2 ^ 21) ∧
    (2 ^ 21 ≤ 16777215 ∧ 16777215 < 2 ^ 28) := by decide

/-- Clauses: the range test, a grant in flight, no room (49 + 2 bytes, where 59 - 8 remain), room for the largest. -/
theorem witness_FgrantReservesFrame :
    let s := framedAt false false (.producer .lp)
    AtProducer .framed s ∧ s.cfg.hdrMode = .fixed2 ∧ 65535 < 65536 ∧ s.p0.ring.wip = false ∧
    AtProducer .framed (framedAt true false (.producer .lp)) ∧
    (framedAt true false (.producer .lp)).p0.ring.wip = true ∧
    (¬ ∃ start, Placed s.cfg.n (58 + hdrSize s.cfg.hdrMode 58) s.p0.ring start) ∧
    Placed s.cfg.n (57 + hdrSize s.cfg.hdrMode 57) s.p0.ring 5 := by
  refine ⟨prod_framed _ _, rfl, by decide, rfl, prod_framed _ _, rfl, ?_, ?_⟩
  · rintro ⟨start, h⟩
    change Placed 64 60 (frameRing false false) start at h
    simp [Placed, frameRing, Ring.reset] at h
  · change Placed 64 59 (frameRing false false) 5
    simp [Placed, frameRing, Ring.reset]

theorem witness_FcommitPublishesFrame :
    let s := framedAt true false (.producer .lp)
    AtProducer .framed (framedAt false false (.producer .lp)) ∧
    (framedAt false false (.producer .lp)).p0.ring.wip = false ∧
    AtProducer .framed s ∧ s.p0.ring.wip = true ∧ s.p0.ring.wg = some ⟨5, 12⟩ ∧ s.p0.ring.fw = some ⟨2, 0⟩ ∧
    2 ≤ 12 ∧ 5 + 12 ≤ s.cfg.n ∧ HeaderCarries s.cfg.hdrMode 2 (min 11 (12 - 2)) :=
  ⟨prod_framed _ _, rfl, prod_framed _ _, rfl, rfl, rfl, by decide, by decide, rfl, by decide⟩

theorem witness_FtoCommitStoresAmount :
    AtProducer .framed (framedAt false true (.producer .lp)) ∧
    (framedAt false true (.producer .lp)).p0.ring.wip = false ∧
    AtProducer .framed (framedAt true true (.producer .lp)) ∧
    (framedAt true true (.producer .lp)).p0.ring.wip = true ∧
    (framedAt true true (.producer .lp)).p0.ring.wg = some ⟨5, 12⟩ ∧
    (framedAt true true (.producer .lp)).p0.ring.fw = some ⟨2, 0⟩ :=
  ⟨prod_framed _ _, rfl, prod_framed _ _, rfl, rfl, rfl⟩

/-- The amount a drop commits is 0, and is not. -/
theorem witness_FdropWDropsOrCommits :
    let s := framedAt true false (.producer .lp)
    let u := withRing { frameRing true false with fw := some ⟨2, 7⟩ } (instAt .framed 64 (.producer .lp))
    AtProducer .framed s ∧ s.p0.ring.wip = true ∧ s.p0.ring.wg = some ⟨5, 12⟩ ∧ s.p0.ring.fw = some ⟨2, 0⟩ ∧
    AtProducer .framed u ∧ u.p0.ring.wip = true ∧ u.p0.ring.fw = some ⟨2, 7⟩ ∧
    (framedAt false false (.producer .lp)).p0.ring.wip = false :=
  ⟨prod_framed _ _, rfl, rfl, rfl, ⟨rfl, .lp, rfl⟩, rfl, rfl, rfl⟩

theorem witness_FreadReturnsFrame :
    let s := framedAt true false (.consumer .hp)
    AtConsumer .framed (framedAt true true (.consumer .hp)) ∧
    (framedAt true true (.consumer .hp)).p0.ring.rip = true ∧
    AtConsumer .framed (instAt .framed 64 (.consumer .hp)) ∧ readLen (Ring.reset 64) = 0 ∧
    AtConsumer .framed s ∧ s.p0.ring.rip = false ∧
    headerAt s.cfg.hdrMode s.p0.ring.buf (readFrom s.p0.ring) = some (2, 3) ∧ 2 + 3 ≤ readLen s.p0.ring ∧
    readFrom s.p0.ring + readLen s.p0.ring ≤ s.cfg.n :=
  ⟨cons_framed _ _, rfl, ⟨rfl, .hp, rfl⟩, by decide, cons_framed _ _, rfl, rfl, by decide, by decide⟩

/-- A `VARINT` first byte `0x00`; a header of 2 bytes in a grant of 1; a frame of 5 bytes in a grant of 4. -/
theorem witness_FreadReportsCorruptFrame :
    let s : State := { instAt .framed 64 (.consumer .hp) with
      cfg := ⟨.framed, 64, .varint, 256, .any⟩
      p0 := { Pipe.reset 64 with ring := { cursors 64 4 0 64 with buf := ⟨[(0, 0)]⟩ } } }
    let u := withRing { frameRing false false with write := 1, reserve := 1 } (instAt .framed 64 (.consumer .hp))
    let v := withRing { frameRing false false with write := 4, reserve := 4 } (instAt .framed 64 (.consumer .hp))
    (AtConsumer .framed s ∧ s.p0.ring.rip = false ∧ 1 ≤ readLen s.p0.ring ∧
      readFrom s.p0.ring + readLen s.p0.ring ≤ s.cfg.n ∧ s.cfg.hdrMode = .varint ∧
      memGet? s.p0.ring.buf (readFrom s.p0.ring) = some 0) ∧
    (AtConsumer .framed u ∧ u.p0.ring.rip = false ∧ 1 ≤ readLen u.p0.ring ∧
      memGet? u.p0.ring.buf (readFrom u.p0.ring) = some 3 ∧ readLen u.p0.ring < hdrSizeOf u.cfg.hdrMode 3) ∧
    (AtConsumer .framed v ∧ v.p0.ring.rip = false ∧ 2 ≤ readLen v.p0.ring ∧
      headerAt v.cfg.hdrMode v.p0.ring.buf (readFrom v.p0.ring) = some (2, 3) ∧ readLen v.p0.ring < 2 + 3) :=
  ⟨⟨⟨rfl, .hp, rfl⟩, rfl, by decide, by decide, rfl, rfl⟩, ⟨⟨rfl, .hp, rfl⟩, rfl, by decide, rfl, by decide⟩,
    ⟨rfl, .hp, rfl⟩, rfl, by decide, rfl, by decide⟩

/-- For `FreleaseFreesFrame`, `FautoReleaseStoresChoice` and `FdropRKeepsOrReleases`: no frame granted, a frame granted, one to
be released on a drop. -/
theorem witness_consumer_commands :
    let s := framedAt false true (.consumer .hp)
    let u := withRing { frameRing false true with fr := some ⟨2, true⟩ } (instAt .framed 64 (.consumer .hp))
    AtConsumer .framed (framedAt false false (.consumer .hp)) ∧
    (framedAt false false (.consumer .hp)).p0.ring.rip = false ∧
    AtConsumer .framed s ∧ s.p0.ring.rip = true ∧ s.p0.ring.rg = some ⟨0, 5⟩ ∧ s.p0.ring.fr = some ⟨2, false⟩ ∧
    AtConsumer .framed u ∧ u.p0.ring.rip = true ∧ u.p0.ring.fr = some ⟨2, true⟩ :=
  ⟨cons_framed _ _, rfl, cons_framed _ _, rfl, rfl, rfl, ⟨rfl, .hp, rfl⟩, rfl, rfl⟩

/-- An empty ring of 64 bytes, with the largest frame that fits. -/
theorem witness_FrameRoundTrip :
    let s := instAt .framed 64 (.producer .lp)
    StateInv s ∧ s.cfg.level = .framed ∧ s.p0.ring.wip = false ∧ s.p0.ring.rip = false ∧
    s.p0.ring.read = s.p0.ring.write ∧ 62 ≤ 65535 ∧
    Placed s.cfg.n (62 + hdrSize s.cfg.hdrMode 62) s.p0.ring 0 := by
  refine ⟨⟨?_, reset_ringInv 64, reset_ringInv 64, fun _ => freshRing_framed 64, fun _ => freshRing_framed 64,
    nofun, nofun, nofun⟩, rfl, rfl, rfl, rfl, by decide, ?_⟩
  · show 1 ≤ 64 ∧ 64 ≤ 2 ^ 24 - 1 ∧ 256 < 2 ^ 24
    decide
  · change Placed 64 64 (Ring.reset 64) 0
    simp [Placed, Ring.reset]

theorem witness_FramesAreAQueue (w r : Bool) (p : Port) :
    StateInv (framedAt w r p) ∧ (framedAt w r p).cfg.level = .framed ∧
    UnreadFrames .fixed2 (framedAt w r p).p0.ring [oneFrame] ∧ (framedAt w r p).p0.ring.rip = r ∧
    (framedAt w r p).p0.ring.wip = w ∧ (framedAt true r p).p0.ring.wg = some ⟨5, 12⟩ ∧
    (framedAt true r p).p0.ring.fw = some ⟨2, 0⟩ :=
  ⟨framedAt_legal w r p, rfl, frameRing_frames w r, rfl, rfl, rfl, rfl⟩

/-- A committing `FDROP_W`, a releasing `FDROP_R`. -/
theorem witness_FramesAreAQueue_drops (p : Port) :
    let s := withRing { frameRing true true with fw := some ⟨2, 7⟩, fr := some ⟨2, true⟩ } (instAt .framed 64 p)
    StateInv s ∧ UnreadFrames .fixed2 s.p0.ring [oneFrame] ∧ s.p0.ring.wip = true ∧ s.p0.ring.wg = some ⟨5, 12⟩ ∧
    s.p0.ring.fw = some ⟨2, 7⟩ ∧ s.p0.ring.rip = true ∧ s.p0.ring.fr = some ⟨2, true⟩ :=
  ⟨dropChoices_legal p, frameRing_frames true true, rfl, rfl, rfl, rfl, rfl⟩

/-- A Pipe that holds a frame, for each pair of tags. -/
theorem witness_FramesAreAQueue_pipe (w r : Tag) (c : Ctx) :
    let s := dataAt w r (.pipe .p1 c)
    StateInv s ∧ AtPipe .p1 c s ∧ s.p1.inited = true ∧ UnreadFrames .fixed2 s.p1.ring [oneFrame] ∧
    s.p1.wrState = w ∧ s.p1.rdState = r :=
  ⟨dataAt_legal w r _, at_data_pipe w r c, rfl, frameRing_frames _ _, rfl, rfl⟩

/-! ## Witnesses: Pipes, DataPipes, byte accesses -/

theorem witness_InitMakesPipeReady :
    AtPipe .p0 .lp (instAt .pipe 64 (.pipe .p0 .lp)) ∧
    (getPipe (instAt .pipe 64 (.pipe .p0 .lp)) .p0).inited = false ∧
    AtPipe .p1 .hp (instAt .datapipes 64 (.pipe .p1 .hp)) ∧
    (getPipe (instAt .datapipes 64 (.pipe .p1 .hp)) .p1).inited = false ∧ isPipeCommand .claimR = true :=
  ⟨⟨rfl, .inr ⟨rfl, rfl⟩⟩, rfl, ⟨rfl, .inl rfl⟩, rfl, rfl⟩

/-- For `StageWStagesGrant` to `QueriesAnswer`, `NotInitBeforeInit`, `PipeTransitionFunction` and
`DirectionsAreIndependent`: each pair of tags of an initialised Pipe, at each port. Pipes that are not initialised stand in
`witness_InitMakesPipeReady`. -/
theorem witness_pipe_commands (w r : Tag) (c : Ctx) :
    AtPipe .p0 c (pipeAt w r (.pipe .p0 c)) ∧ AtPipe .p1 c (dataAt w r (.pipe .p1 c)) ∧
    (getPipe (pipeAt w r (.pipe .p0 c)) .p0).inited = true ∧
    (getPipe (dataAt w r (.pipe .p1 c)) .p1).inited = true ∧
    (getPipe (pipeAt w r (.pipe .p0 c)) .p0).wrState = w ∧ (getPipe (pipeAt w r (.pipe .p0 c)) .p0).rdState = r :=
  ⟨at_pipe w r c, at_data_pipe w r c, rfl, rfl, rfl, rfl⟩

/-- No room for 58 bytes, room for 57; `FIXED2` cannot express 65536. -/
theorem witness_StageWStagesGrant :
    let p := getPipe (pipeAt .idle .idle (.pipe .p0 .lp)) .p0
    p.wrState = .idle ∧ p.ring.wip = false ∧ 65535 < 65536 ∧ (¬ ∃ start, Placed 64 (58 + 2) p.ring start) ∧
    57 ≤ 65535 ∧ Placed 64 (57 + 2) p.ring 5 := by
  refine ⟨rfl, rfl, by decide, ?_, by decide, ?_⟩ <;>
    simp [Placed, pipeAt, framePipe, frameRing, Ring.reset]

/-- A frame; no data; a header of 2 bytes where 1 is left; a frame of 5 bytes where 4 are left; a `VARINT` first byte
`0x00`. -/
theorem witness_StageRStagesFrame :
    let p := getPipe (pipeAt .idle .idle (.pipe .p0 .lp)) .p0
    p.rdState = .idle ∧ p.ring.rip = false ∧ headerAt .fixed2 p.ring.buf (readFrom p.ring) = some (2, 3) ∧
    2 + 3 ≤ readLen p.ring ∧ readFrom p.ring + readLen p.ring ≤ 64 ∧ readLen { p.ring with read := 5 } = 0 ∧
    memGet? p.ring.buf (readFrom p.ring) = some 3 ∧ readLen { p.ring with write := 1 } < hdrSizeOf .fixed2 3 ∧
    readLen { p.ring with write := 4 } < 2 + 3 ∧ 8 < hdrSizeOf .varint 0 ∧ StateInv (pipeAt .idle .idle (.pipe .p0 .lp)) :=
  ⟨rfl, rfl, rfl, by decide, by decide, by decide, rfl, by decide, by decide, by decide, pipeAt_legal _ _ _⟩

/-- For `FinalizeWCommitsFrame` and `FinalizeRReleasesFrame`: both directions claimed. -/
theorem witness_FinalizeWCommitsFrame :
    let p := getPipe (pipeAt .grantBusy .grantBusy (.pipe .p0 .hp)) .p0
    p.wrState = .grantBusy ∧ p.ring.wip = true ∧ p.ring.wg = some ⟨5, 12⟩ ∧ p.ring.fw = some ⟨2, 0⟩ ∧
    2 ≤ 12 ∧ 5 + 12 ≤ 64 ∧ HeaderCarries .fixed2 2 (min 256 (12 - 2)) ∧
    p.rdState = .grantBusy ∧ p.ring.rip = true ∧ p.ring.rg = some ⟨0, 5⟩ :=
  ⟨rfl, rfl, rfl, rfl, by decide, by decide, ⟨rfl, by decide⟩, rfl, rfl, rfl⟩

/-- For `AbortWDiscardsGrant` and `AbortRKeepsFrame`. -/
theorem witness_aborts :
    let p := getPipe (pipeAt .grantReady .grantReady (.pipe .p0 .lp)) .p0
    p.wrState = .grantReady ∧ p.ring.wip = true ∧ p.ring.wg = some ⟨5, 12⟩ ∧ p.ring.fw = some ⟨2, 0⟩ ∧
    p.rdState = .grantReady ∧ p.ring.rip = true ∧ p.ring.rg = some ⟨0, 5⟩ ∧ p.ring.fr = some ⟨2, false⟩ :=
  ⟨rfl, rfl, rfl, rfl, rfl, rfl, rfl, rfl⟩

theorem witness_PipeTransitionFunction :
    ∃ t w, exec .claimW (pipeAt .grantReady .idle (.pipe .p0 .hp)) = .next t ∧ t.resp = some (.pipe .p0 .hp, w) :=
  ⟨_, _, rfl, rfl⟩

theorem witness_DirectionsAreIndependent :
    ∃ t, exec .stageR (pipeAt .grantBusy .idle (.pipe .p0 .lp)) = .next t ∧
      t.p0.wrState = .grantBusy ∧ t.p0.rdState = .grantReady :=
  ⟨_, rfl, rfl, rfl⟩

/-- The largest frame that an empty Pipe of 64 bytes holds. -/
theorem witness_PipeEndToEnd :
    let s := { instAt .pipe 64 (.pipe .p0 .lp) with p0 := { Pipe.reset 64 with inited := true } }
    StateInv s ∧ HasPipe s.cfg.level .p0 ∧ s.p0.inited = true ∧ s.p0.wrState = .idle ∧ s.p0.rdState = .idle ∧
    s.p0.ring.read = s.p0.ring.write ∧ 62 ≤ 65535 ∧ 0 ≤ 62 ∧
    Placed s.cfg.n (62 + hdrSize s.cfg.hdrMode 62) s.p0.ring 0 := by
  refine ⟨⟨?_, reset_ringInv 64, reset_ringInv 64, fun _ => freshRing_framed 64, fun _ => freshRing_framed 64, fun _ => ?_,
    fun _ => freshPipe_inv 64, nofun⟩, .inr ⟨rfl, rfl⟩, rfl, rfl, rfl, rfl, by decide, by decide, ?_⟩
  · show 1 ≤ 64 ∧ 64 ≤ 2 ^ 24 - 1 ∧ 256 < 2 ^ 24
    decide
  · constructor <;> simp [Pipe.reset, Ring.reset]
  · change Placed 64 64 (Ring.reset 64) 0
    simp [Placed, Ring.reset]

/-- For `DpInitInitialisesBoth` and `IdleStepStarts`: Pipes initialised and not. -/
theorem witness_AtDp (w r : Tag) : AtDp (dataAt w r .dp) ∧ AtDp (instAt .datapipes 64 .dp) := ⟨⟨rfl, rfl⟩, rfl, rfl⟩

/-- Neither Pipe initialised; the write direction of `P0` staged before; room for a grant; none for one of 58 bytes;
`FIXED2` cannot express 65536. -/
theorem witness_IdleStepStarts :
    (instAt .datapipes 64 .dp).p0.inited = false ∧ (dataAt .grantReady .idle .dp).p0.inited = true ∧
    (dataAt .grantReady .idle .dp).p0.wrState ≠ .idle ∧ 65535 < 65536 ∧
    (let s := dataAt .idle .idle .dp
     s.p0.wrState = .idle ∧ s.p0.ring.wip = false ∧ s.cfg.stageMax ≤ 65535 ∧
      Placed s.cfg.n (s.cfg.stageMax + hdrSize s.cfg.hdrMode s.cfg.stageMax) s.p0.ring 5 ∧
      ¬ ∃ start, Placed s.cfg.n (58 + hdrSize s.cfg.hdrMode 58) s.p0.ring start) := by
  refine ⟨rfl, rfl, by decide, by decide, rfl, rfl, by decide, ?_, ?_⟩
  · change Placed 64 12 (frameRing false false) 5
    simp [Placed, frameRing, Ring.reset]
  · rintro ⟨start, h⟩
    change Placed 64 60 (frameRing false false) start at h
    simp [Placed, frameRing, Ring.reset] at h

theorem witness_IdleStepTakesFourSteps :
    let s := { dataAt .idle .grantBusy .dp with inputs := [.cmd .dp 0x41000000, .resume, .resume, .resume] }
    StateInv s ∧ s.cfg.level = .datapipes ∧ s.idle = none ∧ s.cfg.sched = .any ∧
    s.p0.inited = true ∧ s.p1.inited = true ∧ AtDp s :=
  ⟨legal_inputs (dataAt_legal .idle .grantBusy .dp) _, rfl, rfl, rfl, rfl, rfl, rfl, rfl⟩

/-- Each attempt comes out, by `resume` and before a waiting command, and the read of a corrupt frame faults. -/
theorem witness_IdleStepTakesFourSteps_turns :
    (∀ k : Attempt, nextIs (step { dataAt .idle .idle .dp with idle := some ⟨k, 0⟩, inputs := [.resume] })
      (fun t => t.events.length == 1) = true) ∧
    (∀ k : Attempt, nextIs (step { dataAt .idle .idle .dp with
        idle := some ⟨k, 0⟩, inputs := [.cmd .dp 0x41000000] }) (fun t => t.inputs.length == 1) = true) ∧
    faultIs (step { dataAt .idle .idle .dp with
      p0 := { framePipe .idle .idle with ring := { frameRing false false with write := 4, reserve := 4 } }
      idle := some ⟨.p0r, 0⟩, inputs := [.resume] }) .corruptFrame = true :=
  ⟨by intro k; cases k <;> decide, by intro k; cases k <;> decide, by decide⟩

theorem witness_EventsExactlyOnStaging :
    (∃ t, exec (.stageW 20) (pipeAt .idle .idle (.pipe .p0 .lp)) = .next t) ∧
    (∃ t, exec .stageR (pipeAt .idle .idle (.pipe .p0 .lp)) = .next t) ∧
    (∃ t, exec .claimW (pipeAt .grantReady .idle (.pipe .p0 .hp)) = .next t) ∧
    (let s : State := { dataAt .idle .idle .dp with
      events := [⟨.p0, .w, 2, 9⟩, ⟨.p1, .r, 2, 3⟩], inputs := [.takeEvent] }
     s.inputs = [.takeEvent] ∧ s.events = [⟨.p0, .w, 2, 9⟩, ⟨.p1, .r, 2, 3⟩]) ∧
    (dataAt .idle .idle .dp).events = [] :=
  ⟨⟨_, rfl⟩, ⟨_, rfl⟩, ⟨_, rfl⟩, ⟨rfl, rfl⟩, rfl⟩

/-- The first and the last byte of a claimed write grant, and the byte after it. -/
theorem witness_ByteWritesObeyOwnership :
    let s : State := pipeAt .grantBusy .idle (.pipe .p0 .lp)
    WriteAdmitted s (.dma .p0 .w) 7 ∧ WriteAdmitted s (.port (.pipe .p0 .hp)) 16 ∧
    ¬ WriteAdmitted s (.dma .p0 .w) 17 ∧ actionEnabled s (.bufWrite (.dma .p0 .w) 7 0) = true := by
  simp [WriteAdmitted, HasPipe, BusyWrite, Within, pipeAt, framePipe, instAt, State.resetOf, actionEnabled,
    actionCtx?]

/-- The first and the last byte of a claimed frame, and a byte of its header. -/
theorem witness_ByteReadsObeyOwnership :
    let s : State := pipeAt .idle .grantBusy (.pipe .p0 .lp)
    ReadAdmitted s (.dma .p0 .r) 2 ∧ memGet? s.p0.ring.buf 2 = some 17 ∧
    ReadAdmitted s (.port (.pipe .p0 .hp)) 4 ∧ ¬ ReadAdmitted s (.dma .p0 .r) 1 ∧
    ReadAdmitted (pipeAt .grantBusy .idle (.pipe .p0 .lp)) (.dma .p0 .w) 7 ∧
    memGet? (pipeAt .grantBusy .idle (.pipe .p0 .lp)).p0.ring.buf 7 = none := by
  simp [ReadAdmitted, HasPipe, BusyRead, BusyWrite, Within, pipeAt, framePipe, instAt, State.resetOf, frameRing,
    memGet?, cellsGet?]

theorem witness_BlockStoresOnlyHeaders :
    let s := framedAt true false (.producer .lp)
    StateInv s ∧ ∃ t, exec (.fcommit 4) s = .next t ∧ memGet? (getPipe t .p0).ring.buf 5 ≠ memGet? s.p0.ring.buf 5 :=
  ⟨framedAt_legal _ _ _, _, rfl, by decide⟩

theorem witness_ByteWritesSpareUnreadData :
    let s := pipeAt .grantBusy .idle (.pipe .p0 .lp)
    StateInv s ∧ ∃ t, bufWrite (.dma .p0 .w) 16 0xAA s = .next t :=
  ⟨pipeAt_legal _ _ _, _, rfl⟩

theorem witness_ResetIsLegal : Config.reference.WellFormed ∧ (Config.mk .framed 1 .varint 0 .any).WellFormed := by
  decide

theorem witness_StepKeepsStateLegal :
    let s := { dataAt .grantBusy .idle .dp with inputs := [.bufWrite (.dma .p1 .w) 7 0xAA] }
    StateInv s ∧ ∃ t, step s = .next t ∧ memGet? t.p1.ring.buf 7 = some 0xAA :=
  ⟨legal_inputs (dataAt_legal .grantBusy .idle .dp) _, _, rfl, rfl⟩

/-- For `EveryCommandAnswers` and `NoStepMeetsCorruptFrame`: legal states for each pair of tags, at each port. -/
theorem witness_legal_states (w r : Tag) (p : Port) : StateInv (pipeAt w r p) ∧ StateInv (dataAt w r p) :=
  ⟨pipeAt_legal w r p, dataAt_legal w r p⟩

end Sys2Proof.Tests
end

section
/-! PROOF. A command word that its port can take now is the command that the step runs (R12, R70, R90). -/

namespace Sys2Proof.Machine

/-- No other context drives a port that is free or already this context's (R77). -/
theorem drivenByOther_eq_false_iff (owner : Option Ctx) (c : Ctx) :
    drivenByOther owner c = false ↔ owner = none ∨ owner = some c := by
  cases owner <;> simp [drivenByOther]

/-- A word at a port that no other context drives is delivered in the state that records the port and its driver
(R77). -/
theorem acceptWord_startStep {p : Port} {s : State} (w : Word) (rest : List Action)
    (hprod : ∀ c, p = .producer c → s.prodBy = none ∨ s.prodBy = some c)
    (hcons : ∀ c, p = .consumer c → s.consBy = none ∨ s.consBy = some c) :
    acceptWord p w (startStep s rest) = deliver w (arrived p rest s) := by
  cases p with
  | producer c =>
    have free : drivenByOther (startStep s rest).prodBy c = false :=
      (drivenByOther_eq_false_iff _ _).mpr (hprod c rfl)
    rw [acceptWord, free]; rfl
  | consumer c =>
    have free : drivenByOther (startStep s rest).consBy c = false :=
      (drivenByOther_eq_false_iff _ _).mpr (hcons c rfl)
    rw [acceptWord, free]; rfl
  | pipe id c => rfl
  | dp => rfl

/-- Taking a command word that can arrive now is delivering it in the state `arrived` (R90). -/
theorem fetch_of_canArrive {s : State} {p : Port} {w : Word} {rest : List Action}
    (hs : s.inputs = .cmd p w :: rest) (h : canArrive p w s) : fetch s = deliver w (arrived p rest s) := by
  obtain ⟨hport, henabled, hidle, hprod, hcons⟩ := h
  rw [fetch_command hs henabled]
  obtain ⟨hno, -⟩ | ⟨run, -, hdp, hrun, -⟩ | ⟨-, -, haccept⟩ := fetchCommand_cases p w rest s
  · exact absurd hport (by simp [hno])
  · exact absurd (hidle hdp) (by simp [hrun])
  · rw [haccept, acceptWord_startStep w rest hprod hcons]

/-- A word of a row is a command to run (R100). -/
theorem deliver_of_decode_ok {w : Word} {i : Instr} (hd : decode w = .ok i) (s : State) :
    deliver w s = .run i s := by
  simp [deliver, hd]

/-- Settles O6: the word that can arrive is delivered, and a delivered word that decodes is run. -/
theorem stepRunsDecodedCommand : Obligations.StepRunsDecodedCommand := by
  intro s p w rest i hs harrive hd
  have hfetch : fetch s = .run i (arrived p rest s) := by
    rw [fetch_of_canArrive hs harrive, deliver_of_decode_ok hd]
  rw [step, hfetch]

end Sys2Proof.Machine
end

section
/-! PROOF. A stored frame header decodes to what was stored (R103 to R107), for every header size that can carry the
payload length. -/

namespace Sys2Proof.Machine

/-! ## Little-endian bytes and trailing zeros (R10, R11) -/

theorem leBytes_length (n v : Nat) : (leBytes n v).length = n := by
  induction n generalizing v with
  | zero => rfl
  | succ n ih => simp [leBytes, ih]

/-- Decoding encoded bytes gives the number, as far as the bytes hold it (R11). -/
theorem unle_leBytes (n v : Nat) : unle (leBytes n v) = v % 256 ^ n := by
  induction n generalizing v with
  | zero => simp [leBytes, unle, Nat.mod_one]
  | succ n ih =>
    rw [leBytes, unle, ih, BitVec.toNat_ofNat, pow_succ' 256 n, Nat.mod_mul]

/-- An odd number shifted left by `i` ends in `i` zero bits. -/
theorem trailingZeros_shifted_odd {i k : Nat} (p : Nat) (h : i < k) : trailingZeros k ((2 * p + 1) * 2 ^ i) = i := by
  induction k generalizing i with
  | zero => omega
  | succ k ih =>
    cases i with
    | zero => simp [trailingZeros]
    | succ i =>
      have hv : (2 * p + 1) * 2 ^ (i + 1) = 2 * ((2 * p + 1) * 2 ^ i) := by ring
      rw [trailingZeros, hv, if_neg (by omega), Nat.mul_div_cancel_left _ (by decide), ih (by omega), Nat.add_comm]

/-- The lowest `k` bits decide how many of them are trailing zeros. -/
theorem trailingZeros_mod (k v : Nat) : trailingZeros k (v % 2 ^ k) = trailingZeros k v := by
  induction k generalizing v with
  | zero => rfl
  | succ k ih =>
    have hodd : v % 2 ^ (k + 1) % 2 = v % 2 := Nat.mod_mod_of_dvd v (Dvd.intro_left (2 ^ k) rfl)
    have hhalf : v % 2 ^ (k + 1) / 2 = v / 2 % 2 ^ k := by rw [Nat.pow_succ', Nat.mod_mul_right_div_self]
    rw [trailingZeros, trailingZeros, hodd, hhalf, ih]

/-! ## The header (R103 to R107) -/

/-- A header size that is chosen for a payload carries every shorter one (R151). -/
theorem HeaderCarries.mono {mode : HdrMode} {h p q : Nat} (hc : HeaderCarries mode h q) (hpq : p ≤ q) :
    HeaderCarries mode h p := by
  cases mode with
  | fixed2 => exact ⟨hc.1, hpq.trans hc.2⟩
  | varint => exact ⟨hc.1, hc.2.1, hpq.trans_lt hc.2.2⟩

/-- No header is empty, and none is longer than eight bytes (R103, R104, R108). -/
theorem HeaderCarries.size {mode : HdrMode} {h p : Nat} (hc : HeaderCarries mode h p) : 1 ≤ h ∧ h ≤ 8 := by
  cases mode with
  | fixed2 => simp [hc.1]
  | varint => exact ⟨hc.1, hc.2.1⟩

/-- The header size chosen at grant time carries the granted payload length, if that fits a ring (R104, R151). -/
theorem hdrSize_carries {mode : HdrMode} {m : Nat} (hr : hdrInRange mode m = true) (hm : m < 2 ^ 24) :
    HeaderCarries mode (hdrSize mode m) m := by
  cases mode with
  | fixed2 => exact ⟨rfl, by simpa [hdrInRange] using hr⟩
  | varint =>
    have hlog : m.log2 < 24 := by
      rcases Nat.eq_zero_or_pos m with rfl | hpos
      · decide
      · exact (Nat.log2_lt (by omega)).2 hm
    have hpow : m < 2 ^ (7 * (m.log2 / 7 + 1)) := by
      calc m < 2 ^ (m.log2 + 1) := Nat.lt_log2_self
        _ ≤ 2 ^ (7 * (m.log2 / 7 + 1)) := Nat.pow_le_pow_right (by decide) (by omega)
    simp only [HeaderCarries, hdrSize, varintHdrLen]
    omega

/-- The encoder writes as many bytes as the header's size (R103, R105). -/
theorem hdrEnc_length {mode : HdrMode} {h p : Nat} (hc : HeaderCarries mode h p) : (hdrEnc mode h p).length = h := by
  cases mode with
  | fixed2 => simp [hdrEnc, leBytes_length, hc.1]
  | varint => simp [hdrEnc, leBytes_length]

/-- The first byte of an encoded header tells its size (R103, R106). -/
theorem hdrSizeOf_hdrEnc {mode : HdrMode} {h p : Nat} (hc : HeaderCarries mode h p) :
    hdrSizeOf mode ((hdrEnc mode h p).headD 0) = h := by
  cases mode with
  | fixed2 => exact hc.1.symm
  | varint =>
    obtain ⟨i, rfl⟩ : ∃ i, h = i + 1 := ⟨h - 1, by have := hc.1; omega⟩
    have hi : i < 8 := hc.2.1
    have hzeros : trailingZeros 8 ((2 * p + 1) * 2 ^ i % 2 ^ 8) = i := by
      rw [trailingZeros_mod, trailingZeros_shifted_odd p hi]
    simp only [hdrEnc, leBytes, Nat.add_sub_cancel, List.headD_cons, hdrSizeOf, ctz8, BitVec.toNat_ofNat, hzeros]

/-- The bytes of an encoded header tell the payload length (R103, R107). -/
theorem hdrValue_hdrEnc {mode : HdrMode} {h p : Nat} (hc : HeaderCarries mode h p) :
    hdrValue mode (hdrEnc mode h p) = p := by
  cases mode with
  | fixed2 =>
    have hp : p < 256 ^ 2 := by have := hc.2; omega
    rw [hdrValue, hdrEnc, unle_leBytes, Nat.mod_eq_of_lt hp]
  | varint =>
    obtain ⟨i, rfl⟩ : ∃ i, h = i + 1 := ⟨h - 1, by have := hc.1; omega⟩
    have hp : 2 * p + 1 < 2 ^ (7 * (i + 1) + 1) := by have := hc.2.2; rw [Nat.pow_succ]; omega
    have hfits : (2 * p + 1) * 2 ^ i < 256 ^ (i + 1) := by
      calc (2 * p + 1) * 2 ^ i < 2 ^ (7 * (i + 1) + 1) * 2 ^ i := Nat.mul_lt_mul_of_pos_right hp (by positivity)
        _ = 2 ^ (8 * (i + 1)) := by rw [← Nat.pow_add]; congr 1; omega
        _ = 256 ^ (i + 1) := by rw [Nat.pow_mul]
    simp only [hdrValue, hdrEnc, leBytes_length, unle_leBytes, Nat.add_sub_cancel]
    rw [Nat.mod_eq_of_lt hfits, Nat.pow_succ', Nat.mul_div_mul_right _ _ (by positivity)]
    omega

/-- A header just stored stands where it was stored (R156). -/
theorem headerAt_setBytes {mode : HdrMode} {h p : Nat} (m : Memory) (a : Nat) (hc : HeaderCarries mode h p) :
    headerAt mode (memSetBytes m a (hdrEnc mode h p)) a = some (h, p) := by
  have hlen := hdrEnc_length hc
  have hsize := hdrSizeOf_hdrEnc hc
  have hvalue := hdrValue_hdrEnc hc
  generalize hdrEnc mode h p = bs at *
  have hbytes : writtenBytes (memSetBytes m a bs) a h = some bs := by rw [← hlen]; exact writtenBytes_setBytes m a bs
  cases bs with
  | nil => have := hc.size; simp at hlen; omega
  | cons b0 rest =>
    rw [List.headD_cons] at hsize
    have hfirst : memGet? (memSetBytes m a (b0 :: rest)) a = some b0 := by
      simpa using memGet?_setBytes_inside m a 0 (b0 :: rest) (by simp)
    have := headerAt_of_bytes (mode := mode) hfirst (by rw [hsize]; exact hc.size.2) (by rw [hsize]; exact hbytes)
    rw [this, hsize, hvalue]

end Sys2Proof.Machine
end

section
/-! PROOF. Every command of the framed ring keeps a legal framed ring legal (R42, R162): those of the writing side leave
the reading side's fields alone and the other way round, and a commit puts one whole frame behind the unread ones. -/

namespace Sys2Proof.Machine

/-! ## The two sides of a ring (R21) -/

/-- A framed ring within the invariants of R42 and R162. -/
structure LegalFramed (cfg : Config) (r : Ring) : Prop where
  ring : RingInv cfg.n r
  framed : FramedInv cfg.hdrMode r

/-- The flag and descriptors of the writing side are the same. -/
structure SameWriter (r r' : Ring) : Prop where
  wip : r'.wip = r.wip
  wg : r'.wg = r.wg
  fw : r'.fw = r.fw

/-- The flag and descriptors of the reading side are the same. -/
structure SameReader (r r' : Ring) : Prop where
  rip : r'.rip = r.rip
  rg : r'.rg = r.rg
  fr : r'.fr = r.fr

/-- What is left after a command of the writing side that leaves no grant behind. -/
structure WriteFinished (cfg : Config) (r r' : Ring) : Prop where
  legal : LegalFramed cfg r'
  wip : r'.wip = false
  reader : SameReader r r'

/-- What is left after a command of the reading side that leaves no grant behind. -/
structure ReadFinished (cfg : Config) (r r' : Ring) : Prop where
  legal : LegalFramed cfg r'
  rip : r'.rip = false
  writer : SameWriter r r'

theorem SameWriter.refl (r : Ring) : SameWriter r r := ⟨rfl, rfl, rfl⟩
theorem SameReader.refl (r : Ring) : SameReader r r := ⟨rfl, rfl, rfl⟩

theorem SameWriter.trans {r₁ r₂ r₃ : Ring} (h : SameWriter r₁ r₂) (h' : SameWriter r₂ r₃) : SameWriter r₁ r₃ :=
  ⟨h'.wip.trans h.wip, h'.wg.trans h.wg, h'.fw.trans h.fw⟩

theorem SameReader.trans {r₁ r₂ r₃ : Ring} (h : SameReader r₁ r₂) (h' : SameReader r₂ r₃) : SameReader r₁ r₃ :=
  ⟨h'.rip.trans h.rip, h'.rg.trans h.rg, h'.fr.trans h.fr⟩

theorem wrapRead_sameWriter (r : Ring) : SameWriter r (wrapRead r) := by
  rcases wrapRead_cases r with ⟨-, -, e⟩ | ⟨-, e⟩ <;> rw [e] <;> exact ⟨rfl, rfl, rfl⟩

theorem wrapRead_sameReader (r : Ring) : SameReader r (wrapRead r) := by
  rcases wrapRead_cases r with ⟨-, -, e⟩ | ⟨-, e⟩ <;> rw [e] <;> exact ⟨rfl, rfl, rfl⟩

theorem wrapRead_buf (r : Ring) : (wrapRead r).buf = r.buf := by
  rcases wrapRead_cases r with ⟨-, -, e⟩ | ⟨-, e⟩ <;> rw [e]

/-- A step of the writing side that leaves the unread bytes alone keeps the framed invariants if it keeps its own. -/
theorem FramedInv.of_writer {mode : HdrMode} {n : Nat} {r r' : Ring} (h : FramedInv mode r) (hi : RingInv n r)
    (hs : SameReader r r') (hm : ∀ k ∈ unreadOffsets r, memGet? r'.buf k = memGet? r.buf k)
    (hu : ∃ fs, UnreadFrames mode r' fs) (hoff : r'.wip = false → r'.fw = none)
    (hon : r'.wip = true → ∃ g f, r'.wg = some g ∧ r'.fw = some f ∧ f.hdrLen ≤ g.len ∧
      HeaderCarries mode f.hdrLen (g.len - f.hdrLen)) : FramedInv mode r' where
  unread_frames := hu
  no_frame_write := hoff
  frame_write := hon
  no_frame_read := by rw [hs.rip, hs.fr]; exact h.no_frame_read
  frame_read := by
    rw [hs.rip, hs.rg, hs.fr]
    intro hr
    obtain ⟨g, f, hg, hf, hle, hd⟩ := h.frame_read hr
    refine ⟨g, f, hg, hf, hle, headerAt_congr hd fun k hk hk' => hm k ?_⟩
    exact hi.grant_unread hr hg ⟨hk, by omega⟩

/-- A step of the reading side keeps the framed invariants if it keeps its own. -/
theorem FramedInv.of_reader {mode : HdrMode} {r r' : Ring} (h : FramedInv mode r) (hs : SameWriter r r')
    (hu : ∃ fs, UnreadFrames mode r' fs) (hoff : r'.rip = false → r'.fr = none)
    (hon : r'.rip = true → ∃ g f, r'.rg = some g ∧ r'.fr = some f ∧ f.hdrLen ≤ g.len ∧
      headerAt mode r'.buf g.start = some (f.hdrLen, g.len - f.hdrLen)) : FramedInv mode r' where
  unread_frames := hu
  no_frame_write := by rw [hs.wip, hs.fw]; exact h.no_frame_write
  frame_write := by rw [hs.wip, hs.wg, hs.fw]; exact h.frame_write
  no_frame_read := hoff
  frame_read := hon

/-! ## Rings without a grant -/

/-- A ring after reset, with any bytes in its storage: no frame is unread and no grant is outstanding (R182, R260). -/
theorem reset_framedInv (mode : HdrMode) (n : Nat) (m : Memory) (k : Nat) :
    FramedInv mode { Ring.reset n with buf := m, drawn := k } where
  unread_frames := ⟨[], Frames.done 0⟩
  no_frame_write := fun _ => rfl
  frame_write := nofun
  no_frame_read := fun _ => rfl
  frame_read := nofun

/-- `INIT` makes the ring of a legal Pipe legal again: the storage keeps its bytes, the registers are those of reset
(R182). -/
theorem RingInv.init {n : Nat} {r : Ring} (h : RingInv n r) :
    RingInv n { Ring.reset n with buf := r.buf, drawn := r.drawn } :=
  { reset_ringInv n with storage_wf := h.storage_wf, storage_in := h.storage_in }

/-! ## Byte accesses (R64, R69) -/

/-- A byte stored outside the unread data keeps a framed ring legal. -/
theorem FramedInv.set_byte {mode : HdrMode} {n : Nat} {r : Ring} (h : FramedInv mode r) (hi : RingInv n r) {off : Nat}
    (v : Byte) (ho : off ∉ unreadOffsets r) : FramedInv mode { r with buf := memSet r.buf off v } := by
  have hm : ∀ k ∈ unreadOffsets r, memGet? (memSet r.buf off v) k = memGet? r.buf k := fun k hk =>
    memGet?_set_other _ _ fun heq => ho (heq ▸ hk)
  obtain ⟨fs, hfs⟩ := h.unread_frames
  exact h.of_writer hi ⟨rfl, rfl, rfl⟩ hm ⟨fs, hfs.congr rfl rfl rfl hm⟩ h.no_frame_write h.frame_write

/-! ## The writing side (R152 to R159) -/

/-- `FGRANT` keeps a framed ring legal: the chosen header carries the granted payload (R151, R152). -/
theorem LegalFramed.grant {cfg : Config} {r : Ring} (h : LegalFramed cfg r) (hc : cfg.WellFormed) (maxSz : Nat) :
    LegalFramed cfg (frameGrant cfg maxSz r).1 := by
  rcases frameGrant_cases cfg maxSz r with ⟨st, -, -, e⟩ | ⟨st, hrange, hw, hp, e⟩ <;> rw [e]
  · exact h
  · have hgrant : RingInv cfg.n (setWriteGrant st (maxSz + hdrSize cfg.hdrMode maxSz) r) := by
      simpa [ringGrantW, hw, hp] using h.ring.grantW (maxSz + hdrSize cfg.hdrMode maxSz)
    have hfits : maxSz < 2 ^ 24 := by
      have := placeGrant_cases hp
      have := h.ring.cursors_le
      have := hc.2.1
      omega
    obtain ⟨fs, hfs⟩ := h.framed.unread_frames
    refine ⟨hgrant.other_fields _ _ _, h.framed.of_writer h.ring ⟨rfl, rfl, rfl⟩ (fun _ _ => rfl)
      ⟨fs, hfs.congr rfl rfl rfl fun _ _ => rfl⟩ nofun fun _ => ⟨_, _, rfl, rfl, ?_, ?_⟩⟩
    · exact Nat.le_add_left _ _
    · simpa using hdrSize_carries hrange hfits

theorem frameGrant_sameReader (cfg : Config) (maxSz : Nat) (r : Ring) : SameReader r (frameGrant cfg maxSz r).1 := by
  rcases frameGrant_cases cfg maxSz r with ⟨st, -, -, e⟩ | ⟨st, -, -, -, e⟩ <;> rw [e] <;> exact ⟨rfl, rfl, rfl⟩

/-- Publishing one frame of `u` bytes from the start of the write grant puts it behind the unread frames, wherever the
grant stands (R128, R156). -/
theorem UnreadFrames.publish {mode : HdrMode} {n u : Nat} {r r' : Ring} {g : Grant}
    {fs : List (List (Option Byte))} {payload : List (Option Byte)} (h : UnreadFrames mode r fs) (hi : RingInv n r)
    (hw : r.wip = true) (hg : r.wg = some g) (h1 : 1 ≤ u) (hu : u ≤ g.len)
    (hframe : Frames mode r'.buf g.start (g.start + u) [payload])
    (hm : ∀ k ∈ unreadOffsets r, memGet? r'.buf k = memGet? r.buf k)
    (ewrite : r'.write = g.start + u) (eread : r'.read = r.read)
    (elast : r'.last = if g.start + u < r.write then r.write else if r.last < g.start + u then n else r.last) :
    UnreadFrames mode r' (fs ++ [payload]) := by
  obtain ⟨g', hg', hres, hplace⟩ := hi.write_grant hw
  obtain rfl : g = g' := by simpa [hg] using hg'
  have hinv := hi.inverted_ok
  have hold : UnreadFrames mode { r with buf := r'.buf } fs := h.congr rfl rfl rfl hm
  unfold UnreadFrames at hold ⊢
  simp only at hold
  rw [ewrite, eread, elast]
  by_cases hlt : r.write < r.read
  · -- inverted: the frame stands behind the lower unread data
    have hstart : g.start = r.write := by omega
    obtain ⟨hreadlast, -⟩ := hinv hlt
    rw [if_pos hlt] at hold
    obtain ⟨f₁, f₂, rfl, hf₁, hf₂⟩ := hold
    rw [if_pos (by omega), if_neg (by omega), if_neg (by omega)]
    exact ⟨f₁, f₂ ++ [payload], by simp, hf₁, hf₂.append (hstart ▸ hframe)⟩
  · rw [if_neg hlt] at hold
    rcases hplace with ⟨hstart, -⟩ | ⟨hstart, -, hbelow⟩
    · -- the frame stands behind the unread data
      rw [if_neg (by omega)]
      rw [hstart] at hframe ⊢
      exact hold.append hframe
    · -- the frame is the first one at the lower end, the marker moves to the end of the upper data
      rw [if_pos (by omega), if_pos (by omega)]
      rw [hstart] at hframe ⊢
      exact ⟨fs, [payload], rfl, hold, hframe⟩

/-- The ring after a frame of header size `h` and payload length `p` has been published in the write grant `g`. -/
def framePublished (cfg : Config) (g : Grant) (h p : Nat) (r : Ring) : Ring :=
  clearWriteGrant (advanceWrite cfg.n g.start (h + p)
    { r with buf := memSetBytes r.buf g.start (hdrEnc cfg.hdrMode h p), fw := none })

/-- In a legal framed ring an `FCOMMIT` of an outstanding grant meets no fault and publishes a frame that the header
carries (R155, R156). -/
theorem LegalFramed.frameCommit_eq {cfg : Config} {r : Ring} (h : LegalFramed cfg r) (used : Nat) (hw : r.wip = true) :
    ∃ g f p, r.wg = some g ∧ r.fw = some f ∧ p = min used (g.len - f.hdrLen) ∧ f.hdrLen + p ≤ g.len ∧
      g.start + f.hdrLen ≤ cfg.n ∧ HeaderCarries cfg.hdrMode f.hdrLen p ∧
      frameCommit cfg used r = .ok (framePublished cfg g f.hdrLen p r, bare .ok) := by
  obtain ⟨g, f, hg, hf, hle, hcarries⟩ := h.framed.frame_write hw
  have hp : HeaderCarries cfg.hdrMode f.hdrLen (min used (g.len - f.hdrLen)) := hcarries.mono (Nat.min_le_right ..)
  have hlen := hdrEnc_length hp
  have hsum : f.hdrLen + min used (g.len - f.hdrLen) ≤ g.len := by omega
  have hend : g.start + f.hdrLen ≤ cfg.n := by
    obtain ⟨g', hg', hres, -⟩ := h.ring.write_grant hw
    obtain rfl : g = g' := by simpa [hg] using hg'
    have := h.ring.cursors_le
    omega
  refine ⟨g, f, _, hg, hf, rfl, hsum, hend, hp, ?_⟩
  rcases frameCommit_cases cfg used r with ⟨hno, -⟩ | ⟨g', f', -, hg', hf', hres⟩
  · simp [hw, hg, hf] at hno
  · obtain rfl : g = g' := by simpa [hg] using hg'
    obtain rfl : f = f' := by simpa [hf] using hf'
    rcases hres with ⟨hpast, -⟩ | ⟨-, e⟩
    · omega
    · rw [e, ringCommit]
      simp only [hw, hg, Nat.min_eq_left hsum, framePublished]

/-- Where the cursors stand after a frame has been published (R126, R129, R156). -/
theorem framePublished_eq (cfg : Config) (g : Grant) {h : Nat} (p : Nat) (r : Ring) (hpos : 1 ≤ h) :
    framePublished cfg g h p r = clearWriteGrant { r with
      last := if g.start + (h + p) < r.write then r.write else if r.last < g.start + (h + p) then cfg.n else r.last
      write := g.start + (h + p)
      reserve := g.start + (h + p)
      buf := memSetBytes r.buf g.start (hdrEnc cfg.hdrMode h p)
      fw := none } := by
  rw [framePublished, advanceWrite, if_neg (by omega)]

/-- Publishing a frame keeps a framed ring legal. -/
theorem LegalFramed.published {cfg : Config} {r : Ring} {g : Grant} {f : FrameW} {p : Nat} (h : LegalFramed cfg r)
    (hw : r.wip = true) (hg : r.wg = some g) (hsum : f.hdrLen + p ≤ g.len) (hend : g.start + f.hdrLen ≤ cfg.n)
    (hp : HeaderCarries cfg.hdrMode f.hdrLen p) : WriteFinished cfg r (framePublished cfg g f.hdrLen p r) := by
  have hlen := hdrEnc_length hp
  have hpos := hp.size.1
  have hring : RingInv cfg.n (framePublished cfg g f.hdrLen p r) := by
    have hstored := (h.ring.set_bytes (hdrEnc cfg.hdrMode f.hdrLen p) (a := g.start) (by omega)).other_fields
      none r.fr r.drawn
    simpa [ringCommit, hw, hg, Nat.min_eq_left hsum, framePublished] using hstored.commit (f.hdrLen + p)
  have hm : ∀ k ∈ unreadOffsets r,
      memGet? (memSetBytes r.buf g.start (hdrEnc cfg.hdrMode f.hdrLen p)) k = memGet? r.buf k := by
    intro k hk
    refine memGet?_setBytes_outside _ _ _ _ ?_
    by_contra hin
    exact h.ring.grant_not_unread hw hg ⟨by omega, by omega⟩ hk
  have hframe : Frames cfg.hdrMode (memSetBytes r.buf g.start (hdrEnc cfg.hdrMode f.hdrLen p)) g.start
      (g.start + (f.hdrLen + p)) [_] :=
    .frame (headerAt_setBytes r.buf g.start hp) (by omega) (by rw [Nat.add_assoc]; exact .done _)
  obtain ⟨fs, hfs⟩ := h.framed.unread_frames
  rw [framePublished_eq cfg g p r hpos] at hring ⊢
  exact ⟨⟨hring, h.framed.of_writer h.ring ⟨rfl, rfl, rfl⟩ hm
    ⟨_, hfs.publish h.ring hw hg (by omega) hsum hframe hm rfl rfl rfl⟩ (fun _ => rfl) nofun⟩, rfl, ⟨rfl, rfl, rfl⟩⟩

/-- `FCOMMIT` leaves a legal framed ring without a write grant (R155, R157). -/
theorem LegalFramed.commit {cfg : Config} {r r' : Ring} {used : Nat} {a : Resp} (h : LegalFramed cfg r)
    (e : frameCommit cfg used r = .ok (r', a)) : WriteFinished cfg r r' := by
  cases hw : r.wip with
  | false =>
    obtain rfl : r = r' := by simp [frameCommit, hw] at e; exact e.1
    exact ⟨h, hw, .refl r⟩
  | true =>
    obtain ⟨g, f, p, hg, -, -, hsum, hend, hp, e'⟩ := h.frameCommit_eq used hw
    obtain rfl : framePublished cfg g f.hdrLen p r = r' := by simp [e'] at e; exact e.1
    exact h.published hw hg hsum hend hp

/-- Dropping a framed write grant without a commit leaves a legal framed ring (R128, R159). -/
theorem LegalFramed.dropGrant {cfg : Config} {r : Ring} (h : LegalFramed cfg r) (hw : r.wip = true) :
    WriteFinished cfg r (ringCommit cfg.n 0 { r with fw := none }).1 := by
  obtain ⟨g, -, hg, -⟩ := h.framed.frame_write hw
  have hring : RingInv cfg.n (ringCommit cfg.n 0 { r with fw := none }).1 :=
    (h.ring.other_fields none r.fr r.drawn).commit 0
  have e : (ringCommit cfg.n 0 { r with fw := none }).1 =
      clearWriteGrant { r with fw := none, reserve := r.write } := by
    simp [ringCommit, hw, hg, advanceWrite]
  rw [e] at hring ⊢
  obtain ⟨fs, hfs⟩ := h.framed.unread_frames
  exact ⟨⟨hring, h.framed.of_writer h.ring ⟨rfl, rfl, rfl⟩ (fun _ _ => rfl)
    ⟨fs, hfs.congr rfl rfl rfl fun _ _ => rfl⟩ (fun _ => rfl) nofun⟩, rfl, ⟨rfl, rfl, rfl⟩⟩

/-- `FTO_COMMIT` keeps a framed ring legal (R158). -/
theorem LegalFramed.toCommit {cfg : Config} {r : Ring} (h : LegalFramed cfg r) (amt : Nat) :
    LegalFramed cfg (frameToCommit amt r).1 := by
  rcases frameToCommit_cases amt r with ⟨-, e⟩ | ⟨f, hw, hf, e⟩ <;> rw [e]
  · exact h
  · obtain ⟨fs, hfs⟩ := h.framed.unread_frames
    obtain ⟨g, f', hg, hf', hle, hcarries⟩ := h.framed.frame_write hw
    obtain rfl : f = f' := by simpa [hf] using hf'
    exact ⟨h.ring.other_fields _ _ _, h.framed.of_writer h.ring ⟨rfl, rfl, rfl⟩ (fun _ _ => rfl)
      ⟨fs, hfs.congr rfl rfl rfl fun _ _ => rfl⟩ (fun hoff => by simp [hw] at hoff)
      fun _ => ⟨g, _, hg, rfl, hle, hcarries⟩⟩

theorem frameToCommit_sameReader (amt : Nat) (r : Ring) : SameReader r (frameToCommit amt r).1 := by
  rcases frameToCommit_cases amt r with ⟨-, e⟩ | ⟨f, -, -, e⟩ <;> rw [e] <;> exact ⟨rfl, rfl, rfl⟩

/-- `FDROP_W` leaves a legal framed ring without a write grant (R159). -/
theorem LegalFramed.dropW {cfg : Config} {r r' : Ring} {a : Resp} (h : LegalFramed cfg r)
    (e : frameDropW cfg r = .ok (r', a)) : WriteFinished cfg r r' := by
  rcases frameDropW_cases cfg r with ⟨hno, e'⟩ | ⟨f, hw, -, -, e'⟩ | ⟨f, -, -, -, e'⟩ <;> rw [e'] at e
  · cases e
    refine ⟨h, ?_, .refl r⟩
    by_contra hw
    obtain ⟨-, f, -, hf, -⟩ := h.framed.frame_write (by simpa using hw)
    simp [hf, hw] at hno
  · have hdrop := h.dropGrant hw
    simp only [Except.ok.injEq] at e
    rwa [e] at hdrop
  · exact h.commit e

/-! ## The reading side (R160 to R166) -/

/-- The wrap step keeps a framed ring legal (R132). -/
theorem LegalFramed.wrap {cfg : Config} {r : Ring} (h : LegalFramed cfg r) (hr : r.rip = false) :
    LegalFramed cfg (wrapRead r) := by
  obtain ⟨fs, hfs⟩ := h.framed.unread_frames
  have hs := wrapRead_sameReader r
  exact ⟨h.ring.wrap hr, h.framed.of_reader (wrapRead_sameWriter r) ⟨fs, hfs.wrap⟩
    (by rw [hs.rip, hs.fr]; exact h.framed.no_frame_read) (by rw [hs.rip, hr]; nofun)⟩

/-- A read grant narrowed to a part of it that is not empty is still one (R161). -/
theorem RingInv.narrow {n len : Nat} {r : Ring} {g : Grant} (h : RingInv n r) (hr : r.rip = true) (hg : r.rg = some g)
    (h1 : 1 ≤ len) (hlen : len ≤ g.len) : RingInv n { r with rg := some ⟨g.start, len⟩ } := by
  obtain ⟨g', hg', hstart, -, hup, hlow⟩ := h.read_grant hr
  obtain rfl : g = g' := by simpa [hg] using hg'
  exact { h with
    no_read_grant := fun hoff => by simp [hr] at hoff
    read_grant := fun _ => ⟨_, rfl, hstart, h1, fun hlt => by have := hup hlt; simp only; omega,
      fun hle => by have := hlow hle; simp only; omega⟩ }

/-- In a legal framed ring `FREAD` meets no fault: it fails and at most takes the wrap step, or it grants the oldest
frame (R160 to R163). -/
theorem LegalFramed.frameRead_eq {cfg : Config} {r : Ring} (h : LegalFramed cfg r) (free : Nat → Byte) :
    (∃ st, st ≠ Status.ok ∧ frameRead cfg free r = .ok (r, bare st)) ∨
    (∃ st, st ≠ Status.ok ∧ r.rip = false ∧ frameRead cfg free r = .ok (wrapRead r, bare st)) ∨
    (∃ hl p, r.rip = false ∧ 1 ≤ hl ∧ hl + p ≤ readExtent (wrapRead r) ∧
      headerAt cfg.hdrMode r.buf (wrapRead r).read = some (hl, p) ∧
      frameRead cfg free r = .ok
        ({ setReadGrant (wrapRead r).read (hl + p) (wrapRead r) with fr := some ⟨hl, false⟩ },
          ⟨.ok, (wrapRead r).read + hl, p⟩)) := by
  rcases frameRead_cases cfg free r with ⟨-, e⟩ | ⟨hr, -, e⟩ | ⟨hr, hext, e⟩
  · exact .inl ⟨_, by simp, e⟩
  · exact .inr (.inl ⟨_, by simp, hr, e⟩)
  · obtain ⟨fs, hfs⟩ := h.framed.unread_frames
    obtain ⟨hl, p, -, hd, hle, -⟩ := hfs.first h.ring hext
    obtain ⟨-, -, -, -, hpos, -⟩ := headerAt_some hd
    refine .inr (.inr ⟨hl, p, hr, hpos, hle, hd, ?_⟩)
    have hinside : (wrapRead r).read + readExtent (wrapRead r) ≤ cfg.n := by
      have hwrap := h.ring.wrap hr
      have := hwrap.cursors_le
      have := hwrap.inverted_ok
      unfold readExtent
      split <;> omega
    have hd' : headerAt cfg.hdrMode (setReadGrant (wrapRead r).read (readExtent (wrapRead r)) (wrapRead r)).buf
        (wrapRead r).read = some (hl, p) := by rw [setReadGrant_buf, wrapRead_buf, hd]
    rw [e, narrowToFrame_written hd' (by omega) (by omega), if_neg (by omega)]
    rfl

/-- Granting the oldest frame keeps a framed ring legal (R161, R162). -/
theorem LegalFramed.granted {cfg : Config} {r : Ring} {hl p : Nat} (h : LegalFramed cfg r) (hr : r.rip = false)
    (hpos : 1 ≤ hl) (hle : hl + p ≤ readExtent (wrapRead r))
    (hd : headerAt cfg.hdrMode r.buf (wrapRead r).read = some (hl, p)) :
    LegalFramed cfg { setReadGrant (wrapRead r).read (hl + p) (wrapRead r) with fr := some ⟨hl, false⟩ } := by
  have hread : RingInv cfg.n (setReadGrant (wrapRead r).read (readExtent (wrapRead r)) (wrapRead r)) := by
    have := h.ring.read
    rwa [ringRead, hr, if_neg (by simp), if_neg (by omega)] at this
  have hwrap := h.wrap hr
  obtain ⟨fs, hfs⟩ := hwrap.framed.unread_frames
  refine ⟨(hread.narrow rfl rfl (by omega) hle).other_fields _ _ _,
    hwrap.framed.of_reader ⟨rfl, rfl, rfl⟩ ⟨fs, hfs.congr rfl rfl rfl fun _ _ => rfl⟩ nofun
      fun _ => ⟨_, _, rfl, rfl, Nat.le_add_right _ _, ?_⟩⟩
  show headerAt cfg.hdrMode (wrapRead r).buf _ = _
  rw [wrapRead_buf, hd, Nat.add_sub_cancel_left]

/-- `FREAD` keeps a framed ring legal (R160). -/
theorem LegalFramed.read {cfg : Config} {free : Nat → Byte} {r r' : Ring} {a : Resp} (h : LegalFramed cfg r)
    (e : frameRead cfg free r = .ok (r', a)) : LegalFramed cfg r' := by
  rcases h.frameRead_eq free with ⟨st, -, e'⟩ | ⟨st, -, hr, e'⟩ | ⟨hl, p, hr, hpos, hle, hd, e'⟩ <;>
    (rw [e'] at e; cases e)
  · exact h
  · exact h.wrap hr
  · exact h.granted hr hpos hle hd

/-- `FREAD` leaves the writing side alone (R160). -/
theorem LegalFramed.read_sameWriter {cfg : Config} {free : Nat → Byte} {r r' : Ring} {a : Resp} (h : LegalFramed cfg r)
    (e : frameRead cfg free r = .ok (r', a)) : SameWriter r r' := by
  have hs := wrapRead_sameWriter r
  rcases h.frameRead_eq free with ⟨st, -, e'⟩ | ⟨st, -, -, e'⟩ | ⟨hl, p, -, -, -, -, e'⟩ <;> (rw [e'] at e; cases e)
  · exact .refl r
  · exact hs
  · exact ⟨hs.wip, hs.wg, hs.fw⟩

/-- A legal framed ring whose read grant ends, with `u` bytes released, is legal if what is left unread is whole
frames. -/
theorem LegalFramed.endRead {cfg : Config} {r : Ring} {g : Grant} (h : LegalFramed cfg r) (hr : r.rip = true)
    (hg : r.rg = some g) (used : Nat)
    (hu : ∃ fs, UnreadFrames cfg.hdrMode { r with read := r.read + min used g.len } fs) :
    ReadFinished cfg r (ringRelease used { r with fr := none }).1 := by
  have hring : RingInv cfg.n (ringRelease used { r with fr := none }).1 :=
    (h.ring.other_fields r.fw none r.drawn).release used
  have e : (ringRelease used { r with fr := none }).1 =
      clearReadGrant { r with fr := none, read := r.read + min used g.len } := by
    simp [ringRelease, hr, hg]
  rw [e] at hring ⊢
  obtain ⟨fs, hfs⟩ := hu
  exact ⟨⟨hring, h.framed.of_reader ⟨rfl, rfl, rfl⟩ ⟨fs, hfs.congr rfl rfl rfl fun _ _ => rfl⟩ (fun _ => rfl) nofun⟩,
    rfl, ⟨rfl, rfl, rfl⟩⟩

/-- `FRELEASE` leaves a legal framed ring without a read grant (R164). -/
theorem LegalFramed.release {cfg : Config} {r : Ring} (h : LegalFramed cfg r) :
    ReadFinished cfg r (frameRelease r).1 := by
  rcases frameRelease_cases r with ⟨hno, e⟩ | ⟨g, hr, hg, e⟩ <;> rw [e]
  · refine ⟨h, ?_, .refl r⟩
    by_contra hr
    obtain ⟨g, -, hg, -⟩ := h.framed.frame_read (by simpa using hr)
    simp [hg, hr] at hno
  · obtain ⟨g', f, hg', -, hle, hd⟩ := h.framed.frame_read hr
    obtain rfl : g = g' := by simpa [hg] using hg'
    obtain ⟨fs, hfs⟩ := h.framed.unread_frames
    obtain ⟨-, more, -, hmore⟩ := hfs.release h.ring hr hg hle hd
      (r' := { r with read := r.read + min g.len g.len }) (by simp) rfl rfl rfl
    exact h.endRead hr hg g.len ⟨more, hmore⟩

/-- `FAUTO_RELEASE` keeps a framed ring legal (R165). -/
theorem LegalFramed.autoRelease {cfg : Config} {r : Ring} (h : LegalFramed cfg r) (b : Bool) :
    LegalFramed cfg (frameAutoRelease b r).1 := by
  rcases frameAutoRelease_cases b r with ⟨-, e⟩ | ⟨f, hr, hf, e⟩ <;> rw [e]
  · exact h
  · obtain ⟨fs, hfs⟩ := h.framed.unread_frames
    obtain ⟨g, f', hg, hf', hle, hd⟩ := h.framed.frame_read hr
    obtain rfl : f = f' := by simpa [hf] using hf'
    exact ⟨h.ring.other_fields _ _ _, h.framed.of_reader ⟨rfl, rfl, rfl⟩
      ⟨fs, hfs.congr rfl rfl rfl fun _ _ => rfl⟩ (fun hoff => by simp [hr] at hoff)
      fun _ => ⟨g, _, hg, rfl, hle, hd⟩⟩

theorem frameAutoRelease_sameWriter (b : Bool) (r : Ring) : SameWriter r (frameAutoRelease b r).1 := by
  rcases frameAutoRelease_cases b r with ⟨-, e⟩ | ⟨f, -, -, e⟩ <;> rw [e] <;> exact ⟨rfl, rfl, rfl⟩

/-- `FDROP_R` leaves a legal framed ring without a read grant (R166). -/
theorem LegalFramed.dropR {cfg : Config} {r : Ring} (h : LegalFramed cfg r) : ReadFinished cfg r (frameDropR r).1 := by
  rcases frameDropR_cases r with ⟨hno, e⟩ | ⟨f, -, -, -, e⟩ | ⟨f, hr, -, -, e⟩ <;> rw [e]
  · refine ⟨h, ?_, .refl r⟩
    by_contra hr
    obtain ⟨-, f, -, hf, -⟩ := h.framed.frame_read (by simpa using hr)
    simp [hf, hr] at hno
  · exact h.release
  · obtain ⟨g, -, hg, -⟩ := h.framed.frame_read hr
    obtain ⟨fs, hfs⟩ := h.framed.unread_frames
    exact h.endRead hr hg 0 ⟨fs, hfs.congr rfl (by simp) rfl fun _ _ => rfl⟩

end Sys2Proof.Machine
end

section
/-! PROOF. Every command of a Pipe keeps a legal Pipe legal (R33, R201): the slot invariants fall into one half for each
direction, and a command of one direction leaves the other half alone (R32). -/

namespace Sys2Proof.Machine

/-! ## The two halves of the slot invariants (R33) -/

/-- The slot invariants of the writing direction. -/
structure WriteSlotInv (p : Pipe) : Prop where
  slot : p.wrState = .idle ↔ p.wrSlot = false
  flag : p.wrState = .idle ↔ p.ring.wip = false
  region : p.wrState ≠ .idle → ∃ g f, p.ring.wg = some g ∧ p.ring.fw = some f ∧
    p.wrPtr = g.start + f.hdrLen ∧ p.wrLen = g.len - f.hdrLen
  claim : p.wrState = .grantBusy ↔ p.wrClaim.isSome = true
  before_init : p.inited = false → p.wrState = .idle

/-- The slot invariants of the reading direction. -/
structure ReadSlotInv (p : Pipe) : Prop where
  slot : p.rdState = .idle ↔ p.rdSlot = false
  flag : p.rdState = .idle ↔ p.ring.rip = false
  region : p.rdState ≠ .idle → ∃ g f, p.ring.rg = some g ∧ p.ring.fr = some f ∧
    p.rdPtr = g.start + f.hdrLen ∧ p.rdLen = g.len - f.hdrLen
  claim : p.rdState = .grantBusy ↔ p.rdClaim.isSome = true
  before_init : p.inited = false → p.rdState = .idle

theorem pipeInv_iff (p : Pipe) : PipeInv p ↔ WriteSlotInv p ∧ ReadSlotInv p where
  mp h := ⟨⟨h.write_slot, h.write_flag, h.write_region, h.write_claim, fun hi => (h.before_init hi).1⟩,
    ⟨h.read_slot, h.read_flag, h.read_region, h.read_claim, fun hi => (h.before_init hi).2⟩⟩
  mpr h := ⟨h.1.slot, h.1.flag, h.2.slot, h.2.flag, h.1.region, h.2.region, h.1.claim, h.2.claim,
    fun hi => ⟨h.1.before_init hi, h.2.before_init hi⟩⟩

/-- A direction in `IDLE`, with no grant, no slot and no claimant, meets its half (R33). -/
theorem WriteSlotInv.of_idle {p : Pipe} (h1 : p.wrState = .idle) (h2 : p.wrSlot = false) (h3 : p.ring.wip = false)
    (h4 : p.wrClaim = none) : WriteSlotInv p := by
  constructor <;> simp [h1, h2, h3, h4]

theorem ReadSlotInv.of_idle {p : Pipe} (h1 : p.rdState = .idle) (h2 : p.rdSlot = false) (h3 : p.ring.rip = false)
    (h4 : p.rdClaim = none) : ReadSlotInv p := by
  constructor <;> simp [h1, h2, h3, h4]

/-- The half of the writing direction does not mention the registers of the reading one (R32). -/
theorem WriteSlotInv.of_reader {p : Pipe} {r : Ring} (h : WriteSlotInv p) (hs : SameWriter p.ring r) (tag : Tag)
    (slot : Bool) (ptr len : Nat) (claim : Option Ctx) :
    WriteSlotInv
      { p with ring := r, rdState := tag, rdSlot := slot, rdPtr := ptr, rdLen := len, rdClaim := claim } where
  slot := h.slot
  flag := by simpa only [hs.wip] using h.flag
  region := by simpa only [hs.wg, hs.fw] using h.region
  claim := h.claim
  before_init := h.before_init

/-- The half of the reading direction does not mention the registers of the writing one (R32). -/
theorem ReadSlotInv.of_writer {p : Pipe} {r : Ring} (h : ReadSlotInv p) (hs : SameReader p.ring r) (tag : Tag)
    (slot : Bool) (ptr len : Nat) (claim : Option Ctx) :
    ReadSlotInv
      { p with ring := r, wrState := tag, wrSlot := slot, wrPtr := ptr, wrLen := len, wrClaim := claim } where
  slot := h.slot
  flag := by simpa only [hs.rip] using h.flag
  region := by simpa only [hs.rg, hs.fr] using h.region
  claim := h.claim
  before_init := h.before_init

/-! ## Legal Pipes -/

/-- A Pipe within the invariants of R42, R162 and R33. -/
structure LegalPipe (cfg : Config) (p : Pipe) : Prop where
  ring : LegalFramed cfg p.ring
  write : WriteSlotInv p
  read : ReadSlotInv p

/-- A Pipe whose registers are those of reset, with any bytes in its storage (R182, R260). -/
theorem freshPipe_pipeInv (n : Nat) (m : Memory) (k : Nat) (b : Bool) :
    PipeInv { Pipe.reset n with ring := { Ring.reset n with buf := m, drawn := k }, inited := b } :=
  (pipeInv_iff _).2 ⟨.of_idle rfl rfl rfl rfl, .of_idle rfl rfl rfl rfl⟩

/-- `INIT` keeps a Pipe legal (R182, R183). -/
theorem LegalPipe.init {cfg : Config} {p : Pipe} (h : LegalPipe cfg p) : LegalPipe cfg (pipeInit cfg p).1 := by
  rcases pipeInit_cases cfg p with ⟨-, e⟩ | ⟨-, e⟩ <;> rw [e]
  · exact h
  · exact ⟨⟨h.ring.ring.init, reset_framedInv _ _ _ _⟩, .of_idle rfl rfl rfl rfl, .of_idle rfl rfl rfl rfl⟩

/-! ## The writing direction (R184, R189, R192, R196) -/

/-- `STAGE_W` keeps a Pipe legal: what it exposes is the payload part of the grant (R184). -/
theorem LegalPipe.stageW {cfg : Config} {p : Pipe} (h : LegalPipe cfg p) (hc : cfg.WellFormed) (m : Nat) :
    LegalPipe cfg (pipeStageW cfg m p).1 := by
  rcases pipeStageW_cases cfg m p with ⟨-, e⟩ | ⟨-, -, e⟩ | ⟨st, -, -, -, -, e⟩ |
      ⟨r, a, hinit, hidle, hgrant, ha, e⟩ <;> rw [e]
  · exact h
  · exact h
  · exact h
  · have hlegal := h.ring.grant hc m
    have hreader := frameGrant_sameReader cfg m p.ring
    have hclaim : p.wrClaim.isSome = false := by
      have := h.write.claim
      simpa [hidle] using this
    rw [hgrant] at hlegal hreader
    refine ⟨hlegal, ?_, h.read.of_writer hreader _ _ _ _ _⟩
    rcases frameGrant_cases cfg m p.ring with ⟨st, hst, -, e'⟩ | ⟨st, -, -, -, e'⟩ <;>
      (rw [hgrant] at e'; obtain ⟨rfl, rfl⟩ : _ ∧ _ := by simpa using e')
    · exact absurd ha hst
    · constructor <;> simp [hclaim, hinit]

/-- `CLAIM_W` keeps a Pipe legal (R189). -/
theorem LegalPipe.claimW {cfg : Config} {p : Pipe} (h : LegalPipe cfg p) (c : Ctx) :
    LegalPipe cfg (pipeClaimW c p).1 := by
  rcases pipeClaimW_cases c p with ⟨-, e⟩ | ⟨-, -, e⟩ | ⟨hinit, hready, e⟩ <;> rw [e]
  · exact h
  · exact h
  · have hslot := h.write.slot
    have hflag := h.write.flag
    have hregion := h.write.region
    simp only [hready] at hslot hflag hregion
    exact ⟨h.ring, ⟨by simpa using hslot, by simpa using hflag, by simpa using hregion, by simp, by simp [hinit]⟩,
      h.read.of_writer (.refl _) _ _ _ _ _⟩

/-- `FINALIZE_W` keeps a Pipe legal: the grant is gone, the slot empty (R192). -/
theorem LegalPipe.finalizeW {cfg : Config} {p q : Pipe} {n : Nat} {a : Resp} (h : LegalPipe cfg p)
    (e : pipeFinalizeW cfg n p = .ok (q, a)) : LegalPipe cfg q := by
  rcases pipeFinalizeW_cases cfg n p with ⟨-, e'⟩ | ⟨-, -, e'⟩ | ⟨f, -, -, -, e'⟩ | ⟨r, b, -, -, hcommit, e'⟩ <;>
    (rw [e'] at e; cases e)
  · exact h
  · exact h
  · have hdone := h.ring.commit hcommit
    exact ⟨hdone.legal, .of_idle rfl rfl hdone.wip rfl, h.read.of_writer hdone.reader _ _ _ _ _⟩

/-- `ABORT_W` keeps a Pipe legal: the grant is gone, the slot empty (R196). -/
theorem LegalPipe.abortW {cfg : Config} {p q : Pipe} {a : Resp} (h : LegalPipe cfg p)
    (e : pipeAbortW cfg p = .ok (q, a)) : LegalPipe cfg q := by
  rcases pipeAbortW_cases cfg p with ⟨-, e'⟩ | ⟨-, -, e'⟩ | ⟨f, -, -, -, e'⟩ | ⟨r, b, -, hready, hdrop, e'⟩ <;>
    (rw [e'] at e; cases e)
  · exact h
  · exact h
  · have hdone := (h.ring.toCommit 0).dropW hdrop
    have hreader := (frameToCommit_sameReader 0 p.ring).trans hdone.reader
    have hclaim : p.wrClaim = none := by
      have := h.write.claim
      simpa [hready] using this
    exact ⟨hdone.legal, .of_idle rfl rfl hdone.wip hclaim, h.read.of_writer hreader _ _ _ _ _⟩

/-! ## The reading direction (R187, R190, R194, R197) -/

/-- `STAGE_R` keeps a Pipe legal: what it exposes is the payload of the oldest frame (R187). -/
theorem LegalPipe.stageR {cfg : Config} {free : Nat → Byte} {p q : Pipe} {a : Resp} (h : LegalPipe cfg p)
    (e : pipeStageR cfg free p = .ok (q, a)) : LegalPipe cfg q := by
  rcases pipeStageR_cases cfg free p with ⟨-, e'⟩ | ⟨-, -, e'⟩ | ⟨f, -, -, -, e'⟩ | ⟨r, b, -, -, hread, hb, e'⟩ |
      ⟨r, b, hinit, hidle, hread, hb, e'⟩ <;> (rw [e'] at e; cases e)
  · exact h
  · exact h
  · -- a failing one has at most taken the wrap step
    have hreader : SameReader p.ring r := by
      rcases h.ring.frameRead_eq free with ⟨st, -, e⟩ | ⟨st, -, -, e⟩ | ⟨hl, k, -, -, -, -, e⟩ <;>
        (rw [hread] at e; cases e)
      · exact .refl _
      · exact wrapRead_sameReader _
      · exact absurd rfl hb
    exact ⟨h.ring.read hread, h.write.of_reader (h.ring.read_sameWriter hread) _ _ _ _ _,
      h.read.of_writer hreader _ _ _ _ _⟩
  · have hclaim : p.rdClaim.isSome = false := by
      have := h.read.claim
      simpa [hidle] using this
    refine ⟨h.ring.read hread, h.write.of_reader (h.ring.read_sameWriter hread) _ _ _ _ _, ?_⟩
    rcases h.ring.frameRead_eq free with ⟨st, hst, e⟩ | ⟨st, hst, -, e⟩ | ⟨hl, k, -, -, -, -, e⟩ <;>
      (rw [hread] at e; cases e)
    · exact absurd hb hst
    · exact absurd hb hst
    · constructor <;> simp [hclaim, hinit]

/-- `CLAIM_R` keeps a Pipe legal (R190). -/
theorem LegalPipe.claimR {cfg : Config} {p : Pipe} (h : LegalPipe cfg p) (c : Ctx) :
    LegalPipe cfg (pipeClaimR c p).1 := by
  rcases pipeClaimR_cases c p with ⟨-, e⟩ | ⟨-, -, e⟩ | ⟨hinit, hready, e⟩ <;> rw [e]
  · exact h
  · exact h
  · have hslot := h.read.slot
    have hflag := h.read.flag
    have hregion := h.read.region
    simp only [hready] at hslot hflag hregion
    exact ⟨h.ring, h.write.of_reader (.refl _) _ _ _ _ _,
      ⟨by simpa using hslot, by simpa using hflag, by simpa using hregion, by simp, by simp [hinit]⟩⟩

/-- `FINALIZE_R` keeps a Pipe legal: the grant is gone, the slot empty (R194). -/
theorem LegalPipe.finalizeR {cfg : Config} {p : Pipe} (h : LegalPipe cfg p) : LegalPipe cfg (pipeFinalizeR p).1 := by
  rcases pipeFinalizeR_cases p with ⟨-, e⟩ | ⟨-, -, e⟩ | ⟨-, -, e⟩ <;> rw [e]
  · exact h
  · exact h
  · have hdone := h.ring.release
    exact ⟨hdone.legal, h.write.of_reader hdone.writer _ _ _ _ _, .of_idle rfl rfl hdone.rip rfl⟩

/-- `ABORT_R` keeps a Pipe legal: the grant is gone, the slot empty (R197). -/
theorem LegalPipe.abortR {cfg : Config} {p : Pipe} (h : LegalPipe cfg p) : LegalPipe cfg (pipeAbortR p).1 := by
  rcases pipeAbortR_cases p with ⟨-, e⟩ | ⟨-, -, e⟩ | ⟨-, hready, e⟩ <;> rw [e]
  · exact h
  · exact h
  · have hdone := (h.ring.autoRelease false).dropR
    have hwriter := (frameAutoRelease_sameWriter false p.ring).trans hdone.writer
    have hclaim : p.rdClaim = none := by
      have := h.read.claim
      simpa [hready] using this
    exact ⟨hdone.legal, h.write.of_reader hwriter _ _ _ _ _, .of_idle rfl rfl hdone.rip hclaim⟩

end Sys2Proof.Machine
end

section
/-! PROOF. What one step of the block can do (R12, R238): run one command, make one staging attempt, make one byte
access, or touch nothing that the invariants speak of. The parameters are constant under it (R29, R41). -/

namespace Sys2Proof.Machine

/-- The parameters, both Pipes and the running `IDLE_STEP` are the same; the schedule, the ports, the outputs and the
handlers may differ. -/
structure SameRegisters (s t : State) : Prop where
  cfg : t.cfg = s.cfg
  p0 : t.p0 = s.p0
  p1 : t.p1 = s.p1
  idle : t.idle = s.idle

/-! ## How a step reaches the block (R90, R242) -/

theorem step_of_done {s : State} {o : Host.Outcome State Fault Refusal} (hf : fetch s = .done o) : step s = o := by
  simp [step, hf]

/-- A delivered word is answered, or it is a command that is run (R99, R100). -/
theorem step_of_deliver {s t u : State} {w : Word} (hf : fetch s = deliver w u) (e : step s = .next t) :
    SameRegisters u t ∨ ∃ i, exec i u = .next t := by
  rw [step, hf, deliver] at e
  cases hd : decode w with
  | ok i => rw [hd] at e; exact .inr ⟨i, e⟩
  | error r => rw [hd] at e; cases e; exact .inl ⟨rfl, rfl, rfl, rfl⟩

/-- The next attempt of a running `IDLE_STEP` is made on the registers as they are (R223). -/
theorem resumeIdle_next {s t : State} {run : IdleRun} {rest : List Action} (e : resumeIdle run rest s = .next t) :
    ∃ u, SameRegisters s u ∧ idleAttempt run.todo run.count u = .ok t := by
  refine ⟨{ startStep s rest with cur := .dp }, ⟨rfl, rfl, rfl, rfl⟩, ?_⟩
  rw [resumeIdle] at e
  cases ha : idleAttempt run.todo run.count { startStep s rest with cur := .dp } with
  | ok v => rw [ha] at e; cases e; rfl
  | error f => rw [ha] at e; cases e

/-- A step on a command word answers it, runs it, or makes the attempt that it waits for (R90, log 6). -/
theorem step_command {s t : State} {p : Port} {w : Word} {rest : List Action} (hs : s.inputs = .cmd p w :: rest)
    (he : actionEnabled s (.cmd p w) = true) (e : step s = .next t) :
    SameRegisters s t ∨ (∃ i u, SameRegisters s u ∧ exec i u = .next t) ∨
    (∃ run u, s.idle = some run ∧ SameRegisters s u ∧ idleAttempt run.todo run.count u = .ok t) := by
  have hfetch := fetch_command hs he
  have hdelivered : ∀ u, SameRegisters s u → fetch s = deliver w u →
      SameRegisters s t ∨ (∃ i u, SameRegisters s u ∧ exec i u = .next t) ∨
      (∃ run u, s.idle = some run ∧ SameRegisters s u ∧ idleAttempt run.todo run.count u = .ok t) := by
    intro u hu hf
    rcases step_of_deliver hf e with ht | ⟨i, hi⟩
    · exact .inl ⟨ht.cfg.trans hu.cfg, ht.p0.trans hu.p0, ht.p1.trans hu.p1, ht.idle.trans hu.idle⟩
    · exact .inr (.inl ⟨i, u, hu, hi⟩)
  rcases fetchCommand_cases p w rest s with ⟨-, hno⟩ | ⟨run, -, -, hrun, hwait⟩ | ⟨-, -, haccept⟩
  · rw [step_of_done (hfetch.trans hno)] at e
    cases e
  · rw [step_of_done (hfetch.trans hwait)] at e
    obtain ⟨u, hu, ha⟩ := resumeIdle_next e
    exact .inr (.inr ⟨run, u, hrun, hu, ha⟩)
  · rw [haccept] at hfetch
    rcases acceptWord_cases p w (startStep s rest) with ⟨c, -, -, ha⟩ | ⟨c, -, -, ha⟩ | ⟨c, -, -, ha⟩ | ⟨c, -, -, ha⟩ |
        ⟨-, ha⟩
    · rw [step_of_done (hfetch.trans ha)] at e
      cases e
    · rw [step_of_done (hfetch.trans ha)] at e
      cases e
    all_goals exact hdelivered _ (by constructor <;> rfl) (hfetch.trans ha)

/-- Everything that a step can do (R12, R238). -/
theorem step_cases {s t : State} (e : step s = .next t) :
    SameRegisters s t ∨
    (∃ i u, SameRegisters s u ∧ exec i u = .next t) ∨
    (∃ run u, s.idle = some run ∧ SameRegisters s u ∧ idleAttempt run.todo run.count u = .ok t) ∨
    (∃ a off v u, SameRegisters s u ∧ bufWrite a off v u = .next t) ∨
    (∃ a off u, SameRegisters s u ∧ bufRead a off u = .next t) := by
  cases hs : s.inputs with
  | nil =>
    rw [step_of_done (o := .next s) (by simp [fetch, hs])] at e
    cases e
    exact .inl ⟨rfl, rfl, rfl, rfl⟩
  | cons a rest =>
    cases he : actionEnabled s a with
    | false => rw [step_disabled hs he] at e; cases e
    | true =>
      cases a with
      | cmd p w =>
        rcases step_command hs he e with h | h | h
        · exact .inl h
        · exact .inr (.inl h)
        · exact .inr (.inr (.inl h))
      | bufWrite a off v =>
        rw [step_of_done (o := bufWrite a off v (startStep s rest)) (by simp [fetch, hs, he])] at e
        exact .inr (.inr (.inr (.inl ⟨a, off, v, startStep s rest, ⟨rfl, rfl, rfl, rfl⟩, e⟩)))
      | bufRead a off =>
        rw [step_of_done (o := bufRead a off (startStep s rest)) (by simp [fetch, hs, he])] at e
        exact .inr (.inr (.inr (.inr ⟨a, off, startStep s rest, ⟨rfl, rfl, rfl, rfl⟩, e⟩)))
      | resume =>
        cases hrun : s.idle with
        | none => simp [actionEnabled, hrun] at he
        | some run =>
          rw [step_resume hs hrun he] at e
          obtain ⟨u, hu, ha⟩ := resumeIdle_next e
          exact .inr (.inr (.inl ⟨run, u, rfl, hu, ha⟩))
      | handlerStart =>
        rw [step_of_done (o := .next _) (by simp only [fetch, hs, he]; rfl)] at e
        cases e
        exact .inl ⟨rfl, rfl, rfl, rfl⟩
      | handlerEnd =>
        rw [step_of_done (o := .next _) (by simp only [fetch, hs, he]; rfl)] at e
        cases e
        exact .inl ⟨rfl, rfl, rfl, rfl⟩
      | takeEvent =>
        rw [step_of_done (o := .next _) (by simp only [fetch, hs, he]; rfl)] at e
        cases e
        exact .inl ⟨rfl, rfl, rfl, rfl⟩

/-- One attempt of `IDLE_STEP` is one staging; after it only the progress and the response are set (R223). -/
theorem idleAttempt_cases {k : Attempt} {count : Nat} {s t : State} (e : idleAttempt k count s = .ok t) :
    ∃ id u, ((∃ m a, stageWOn id m s = (u, a)) ∨ ∃ a, stageROn id s = .ok (u, a)) ∧
      t.cfg = u.cfg ∧ t.p0 = u.p0 ∧ t.p1 = u.p1 := by
  cases k with
  | p0w => cases e; exact ⟨.p0, _, .inl ⟨_, _, rfl⟩, rfl, rfl, rfl⟩
  | p1w => cases e; exact ⟨.p1, _, .inl ⟨_, _, rfl⟩, rfl, rfl, rfl⟩
  | p0r =>
    rw [idleAttempt] at e
    cases hr : stageROn .p0 s with
    | error f => rw [hr] at e; cases e
    | ok x => rw [hr] at e; cases e; exact ⟨.p0, x.1, .inr ⟨x.2, hr⟩, rfl, rfl, rfl⟩
  | p1r =>
    rw [idleAttempt] at e
    cases hr : stageROn .p1 s with
    | error f => rw [hr] at e; cases e
    | ok x => rw [hr] at e; cases e; exact ⟨.p1, x.1, .inr ⟨x.2, hr⟩, rfl, rfl, rfl⟩

/-! ## The parameters are constant (R29, R41) -/

theorem stageWOn_cfg {id : PipeId} {m : Nat} {s t : State} {a : Resp} (h : stageWOn id m s = (t, a)) :
    t.cfg = s.cfg := by
  rcases stageWOn_cases id m s with ⟨-, e⟩ | ⟨-, e⟩ <;> (rw [e] at h; cases h)
  · simp
  · simp

theorem stageROn_cfg {id : PipeId} {s t : State} {a : Resp} (h : stageROn id s = .ok (t, a)) : t.cfg = s.cfg := by
  rcases stageROn_cases id s with ⟨f, -, e⟩ | ⟨p, b, -, -, e⟩ | ⟨p, b, -, -, e⟩ <;> (rw [e] at h; cases h)
  · simp
  · simp

theorem idleAttempt_cfg {k : Attempt} {count : Nat} {s t : State} (e : idleAttempt k count s = .ok t) :
    t.cfg = s.cfg := by
  obtain ⟨id, u, ⟨m, a, hu⟩ | ⟨a, hu⟩, hcfg, -, -⟩ := idleAttempt_cases e
  · rw [hcfg, stageWOn_cfg hu]
  · rw [hcfg, stageROn_cfg hu]

/-- An operation on one Pipe changes that Pipe only. -/
theorem onThisPipe?_ok {s t : State} {id : PipeId} {x : Except Fault (Pipe × Resp)} {a : Resp}
    (h : onThisPipe? s id x = .ok (t, a)) : ∃ q, x = .ok (q, a) ∧ t = setPipe s id q := by
  cases x with
  | error f => cases h
  | ok y => cases h; exact ⟨y.1, rfl, rfl⟩

theorem onRing_cfg {l : Level} {k : PortKind} {s t : State} {op : Ring → Except Fault (Ring × Resp)}
    (e : onRing l k s op = .next t) : t.cfg = s.cfg := by
  rcases onRing_cases l k s op with ⟨-, h⟩ | ⟨-, -, ⟨r, a, -, h⟩ | ⟨f, -, h⟩⟩ <;> (rw [h] at e; cases e)
  · rfl
  · rfl

theorem onPipe_cfg {s t : State} {op : PipeId → Ctx → Except Fault (State × Resp)}
    (hop : ∀ id c u a, op id c = .ok (u, a) → u.cfg = s.cfg) (e : onPipe s op = .next t) : t.cfg = s.cfg := by
  rcases onPipe_cases s op with ⟨-, h⟩ | ⟨id, c, -, -, ⟨u, a, hu, h⟩ | ⟨f, -, h⟩⟩ <;> (rw [h] at e; cases e)
  · rfl
  · exact hop id c u a hu

theorem onDp_cfg {s t : State} {op : Except Fault State} (hop : ∀ u, op = .ok u → u.cfg = s.cfg)
    (e : onDp s op = .next t) : t.cfg = s.cfg := by
  rcases onDp_cases s op with ⟨-, h⟩ | ⟨-, -, ⟨u, hu, h⟩ | ⟨f, -, h⟩⟩ <;> (rw [h] at e; cases e)
  · rfl
  · exact hop _ hu

/-- No command changes a parameter (R29). -/
theorem exec_cfg {i : Instr} {s t : State} (e : exec i s = .next t) : t.cfg = s.cfg := by
  cases i with (rw [exec] at e)
  | grantW | commit | read | release | fgrant | fcommit | ftoCommit | fdropW | fread | frelease | fautoRelease
  | fdropR => exact onRing_cfg e
  | init | claimW | claimR | finalizeR | abortR =>
    exact onPipe_cfg (fun id c u a h => by cases h; exact setPipe_cfg ..) e
  | finalizeW | abortW =>
    exact onPipe_cfg (fun id c u a h => by obtain ⟨q, -, rfl⟩ := onThisPipe?_ok h; exact setPipe_cfg ..) e
  | queryW | queryR => exact onPipe_cfg (fun id c u a h => by cases h; rfl) e
  | stageW m => exact onPipe_cfg (fun id c u a h => stageWOn_cfg (Except.ok.inj h)) e
  | stageR => exact onPipe_cfg (fun id c u a h => stageROn_cfg h) e
  | dpInit => exact onDp_cfg (fun u h => by cases h; rfl) e
  | idleStep =>
    refine onDp_cfg (fun u h => ?_) e
    split at h
    · exact idleAttempt_cfg h
    · cases h; rfl

/-- Settles O12: no operation writes the parameters, and a step is one operation. -/
theorem parametersAreConstant : Obligations.ParametersAreConstant := by
  refine ⟨fun i s t e => exec_cfg e, fun s t e => ?_⟩
  rcases step_cases e with h | ⟨i, u, hu, h⟩ | ⟨run, u, -, hu, h⟩ | ⟨a, off, v, u, hu, h⟩ | ⟨a, off, u, hu, h⟩
  · exact h.cfg
  · exact (exec_cfg h).trans hu.cfg
  · exact (idleAttempt_cfg h).trans hu.cfg
  · rcases bufWrite_cases a off v u with ⟨-, hw⟩ | ⟨-, hw⟩ <;> (rw [hw] at h; cases h)
    rw [setRing_cfg, hu.cfg]
  · rcases bufRead_cases a off u with ⟨k, v, -, hr⟩ | ⟨-, hr⟩ <;> (rw [hr] at h; cases h)
    exact (setRing_cfg ..).trans hu.cfg

end Sys2Proof.Machine
end

section
/-! PROOF. Every block is legal after reset, and every step of every agent keeps it legal (R42, R33, R162, R201). -/

namespace Sys2Proof.Machine

/-! ## Legal states as legal rings and Pipes -/

/-- Legality speaks of the parameters, the Pipes and whether an `IDLE_STEP` runs. -/
theorem StateInv.of_fields {s t : State} (h : StateInv s) (hcfg : t.cfg = s.cfg) (h0 : t.p0 = s.p0) (h1 : t.p1 = s.p1)
    (hidle : t.idle.isSome = true → s.cfg.level = .datapipes) : StateInv t where
  config_wf := by rw [hcfg]; exact h.config_wf
  ring0 := by rw [hcfg, h0]; exact h.ring0
  ring1 := by rw [hcfg, h1]; exact h.ring1
  framed0 := by rw [hcfg, h0]; exact h.framed0
  framed1 := by rw [hcfg, h1]; exact h.framed1
  pipe0 := by rw [hcfg, h0]; exact h.pipe0
  pipe1 := by rw [hcfg, h1]; exact h.pipe1
  idle_run := by rw [hcfg]; exact hidle

theorem StateInv.of_same {s t : State} (h : StateInv s) (e : SameRegisters s t) : StateInv t :=
  h.of_fields e.cfg e.p0 e.p1 (by rw [e.idle]; exact h.idle_run)

theorem StateInv.answer {s : State} (h : StateInv s) (a : Resp) : StateInv (answer s a) :=
  h.of_same ⟨rfl, rfl, rfl, rfl⟩

theorem StateInv.emit {s : State} (h : StateInv s) (e : Staged) : StateInv (emit s e) :=
  h.of_same ⟨rfl, rfl, rfl, rfl⟩

/-- A level with Pipes is not a raw ring. -/
theorem ne_ring_of_levelHasPipes {l : Level} (h : levelHasPipes l = true) : l ≠ .ring := by
  rintro rfl
  cases h

/-- The rings of both Pipes are legal. -/
theorem StateInv.ringInv {s : State} (h : StateInv s) (id : PipeId) : RingInv s.cfg.n (getPipe s id).ring := by
  cases id with
  | p0 => exact h.ring0
  | p1 => exact h.ring1

/-- Unless the block is a raw ring, its unread data is frames. -/
theorem StateInv.framedInv {s : State} (h : StateInv s) (id : PipeId) (hl : s.cfg.level ≠ .ring) :
    FramedInv s.cfg.hdrMode (getPipe s id).ring := by
  cases id with
  | p0 => exact h.framed0 hl
  | p1 => exact h.framed1 hl

/-- Both Pipes are legal where the level has Pipes. -/
theorem StateInv.legalPipe {s : State} (h : StateInv s) (id : PipeId) (hl : levelHasPipes s.cfg.level = true) :
    LegalPipe s.cfg (getPipe s id) := by
  have hpipe : PipeInv (getPipe s id) := by
    cases id with
    | p0 => exact h.pipe0 hl
    | p1 => exact h.pipe1 hl
  obtain ⟨hw, hr⟩ := (pipeInv_iff _).1 hpipe
  exact ⟨⟨h.ringInv id, h.framedInv id (ne_ring_of_levelHasPipes hl)⟩, hw, hr⟩

/-- Replacing a Pipe keeps the state legal if the new Pipe is, as far as the level asks for it. -/
theorem StateInv.setPipe_of {s : State} {id : PipeId} {p : Pipe} (h : StateInv s) (hring : RingInv s.cfg.n p.ring)
    (hframed : s.cfg.level ≠ .ring → FramedInv s.cfg.hdrMode p.ring)
    (hpipe : levelHasPipes s.cfg.level = true → PipeInv p) : StateInv (setPipe s id p) := by
  cases id with
  | p0 => exact { h with ring0 := hring, framed0 := hframed, pipe0 := hpipe }
  | p1 => exact { h with ring1 := hring, framed1 := hframed, pipe1 := hpipe }

theorem StateInv.setPipe {s : State} {id : PipeId} {p : Pipe} (h : StateInv s) (hp : LegalPipe s.cfg p) :
    StateInv (setPipe s id p) :=
  h.setPipe_of hp.ring.ring (fun _ => hp.ring.framed) fun _ => (pipeInv_iff p).2 ⟨hp.write, hp.read⟩

/-! ## Reset (R260) -/

/-- The state after reset is legal for every parameter tuple in its bounds. -/
theorem stateInv_resetOf {cfg : Config} (h : cfg.WellFormed) : StateInv (State.resetOf cfg) where
  config_wf := h
  ring0 := reset_ringInv cfg.n
  ring1 := reset_ringInv cfg.n
  framed0 _ := reset_framedInv cfg.hdrMode cfg.n ⟨[]⟩ 0
  framed1 _ := reset_framedInv cfg.hdrMode cfg.n ⟨[]⟩ 0
  pipe0 _ := freshPipe_pipeInv cfg.n ⟨[]⟩ 0 false
  pipe1 _ := freshPipe_pipeInv cfg.n ⟨[]⟩ 0 false
  idle_run := nofun

/-- Settles O57: the registers of reset meet the invariants, and the reference tuple is within the bounds. -/
theorem resetIsLegal : Obligations.ResetIsLegal :=
  ⟨fun _ h => stateInv_resetOf h, rfl, stateInv_resetOf (by decide)⟩

/-! ## Byte accesses (R64, R66) -/

/-- What a producer may write lies in the write grant of its ring (R64). -/
theorem inWriteView_grant {l : Level} {r : Ring} {off : Nat} (h : inWriteView l r off = true) :
    ∃ g, r.wip = true ∧ r.wg = some g ∧ Within g.start g.len off := by
  unfold inWriteView at h
  split at h
  · next hw hg => exact ⟨_, hw, hg, by simpa [inRegion, Within] using h⟩
  · next hw hg _ =>
    refine ⟨_, hw, hg, ?_⟩
    simp only [inRegion, Bool.and_eq_true, decide_eq_true_eq] at h
    constructor <;> omega
  · cases h

/-- The claimed write region of a Pipe lies in the write grant of its ring (R66). -/
theorem WriteSlotInv.inBusyWrite_grant {p : Pipe} {off : Nat} (h : WriteSlotInv p) (hb : inBusyWrite p off = true) :
    ∃ g, p.ring.wip = true ∧ p.ring.wg = some g ∧ Within g.start g.len off := by
  simp only [inBusyWrite, inRegion, Bool.and_eq_true, beq_iff_eq, decide_eq_true_eq] at hb
  obtain ⟨hbusy, hstart, hend⟩ := hb
  have hne : p.wrState ≠ .idle := by simp [hbusy]
  obtain ⟨g, f, hg, -, hptr, hlen⟩ := h.region hne
  have hw : p.ring.wip = true := by simpa [h.flag] using hne
  exact ⟨g, hw, hg, by omega, by omega⟩

/-- A level that has a given Pipe has Pipes. -/
theorem levelHasPipes_of_hasPipe {l : Level} {id : PipeId} (h : hasPipe l id = true) : levelHasPipes l = true :=
  hasPort_pipe h

/-- In a legal state a byte that an agent may write exists and lies in the write grant of the agent's ring, so it is no
unread byte (R64, R66). -/
theorem StateInv.mayWrite_spares_unread {s : State} {a : Agent} {off : Nat} (h : StateInv s)
    (ha : mayWrite s a off = true) : off < s.cfg.n ∧ off ∉ unreadOffsets (getPipe s (agentPipe a)).ring := by
  unfold mayWrite at ha
  rw [Bool.and_eq_true, decide_eq_true_eq] at ha
  obtain ⟨hoff, ha⟩ := ha
  have hgrant : ∃ g, (getPipe s (agentPipe a)).ring.wip = true ∧ (getPipe s (agentPipe a)).ring.wg = some g ∧
      Within g.start g.len off := by
    cases a with
    | port p =>
      cases p with
      | producer c =>
        simp only [Bool.and_eq_true] at ha
        exact inWriteView_grant ha.2
      | pipe id c =>
        cases c with
        | lp => cases ha
        | hp =>
          simp only [Bool.and_eq_true] at ha
          exact (h.legalPipe id (levelHasPipes_of_hasPipe ha.1.1)).write.inBusyWrite_grant ha.2
      | consumer | dp => cases ha
    | dma id d =>
      cases d with
      | w =>
        simp only [Bool.and_eq_true] at ha
        exact (h.legalPipe id (levelHasPipes_of_hasPipe ha.1)).write.inBusyWrite_grant ha.2
      | r => cases ha
  obtain ⟨g, hw, hg, hin⟩ := hgrant
  exact ⟨hoff, (h.ringInv _).grant_not_unread hw hg hin⟩

/-- Replacing a ring by one with the same flags and descriptors keeps the state legal if the ring is. -/
theorem StateInv.setRing {s : State} {id : PipeId} {r : Ring} (h : StateInv s) (hring : RingInv s.cfg.n r)
    (hframed : s.cfg.level ≠ .ring → FramedInv s.cfg.hdrMode r) (hw : SameWriter (getPipe s id).ring r)
    (hr : SameReader (getPipe s id).ring r) : StateInv (setRing s id r) := by
  refine h.setPipe_of hring hframed fun hl => ?_
  have hp := h.legalPipe id hl
  exact (pipeInv_iff _).2 ⟨hp.write.of_reader hw _ _ _ _ _, hp.read.of_writer hr _ _ _ _ _⟩

theorem StateInv.bufWrite {s t : State} {a : Agent} {off : Nat} {v : Byte} (h : StateInv s)
    (e : bufWrite a off v s = .next t) : StateInv t := by
  rcases bufWrite_cases a off v s with ⟨hmay, e'⟩ | ⟨-, e'⟩ <;> (rw [e'] at e; cases e)
  obtain ⟨hoff, hspared⟩ := h.mayWrite_spares_unread hmay
  exact h.setRing ((h.ringInv _).set_byte v hoff)
    (fun hl => (h.framedInv _ hl).set_byte (h.ringInv _) v hspared) ⟨rfl, rfl, rfl⟩ ⟨rfl, rfl, rfl⟩

theorem StateInv.bufRead {s t : State} {a : Agent} {off : Nat} (h : StateInv s) (e : bufRead a off s = .next t) :
    StateInv t := by
  rcases bufRead_cases a off s with ⟨k, v, -, e'⟩ | ⟨-, e'⟩ <;> (rw [e'] at e; cases e)
  have hset : StateInv (Machine.setRing s (agentPipe a) { (getPipe s (agentPipe a)).ring with drawn := k }) :=
    h.setRing ((h.ringInv _).other_fields _ _ k) (fun hl => { h.framedInv _ hl with }) ⟨rfl, rfl, rfl⟩ ⟨rfl, rfl, rfl⟩
  exact hset.of_same ⟨rfl, rfl, rfl, rfl⟩

/-! ## Commands at their ports (R90) -/

/-- What an operation that meets no fault returns. -/
theorem fst_of_ok {α : Type} {x : α × Resp} {y : α} {a : Resp} (h : (.ok x : Except Fault (α × Resp)) = .ok (y, a)) :
    x.1 = y := by
  cases h
  rfl


/-- A command of the ring layer keeps the state legal if its operation keeps the ring within R42. -/
theorem StateInv.onRing_ring {s t : State} {k : PortKind} {op : Ring → Except Fault (Ring × Resp)} (h : StateInv s)
    (e : onRing .ring k s op = .next t) (hop : ∀ r a, op s.p0.ring = .ok (r, a) → RingInv s.cfg.n r) : StateInv t := by
  rcases onRing_cases .ring k s op with ⟨-, e'⟩ | ⟨hl, -, ⟨r, a, hr, e'⟩ | ⟨f, -, e'⟩⟩ <;> (rw [e'] at e; cases e)
  · exact h.answer _
  · have hset : StateInv (Machine.setPipe s .p0 { s.p0 with ring := r }) :=
      h.setPipe_of (hop r a hr) (fun hne => absurd hl hne) (by rw [hl]; nofun)
    exact hset.answer a

/-- A command of the framed layer keeps the state legal if its operation keeps the framed ring legal. -/
theorem StateInv.onRing_framed {s t : State} {k : PortKind} {op : Ring → Except Fault (Ring × Resp)} (h : StateInv s)
    (e : onRing .framed k s op = .next t)
    (hop : ∀ r a, LegalFramed s.cfg s.p0.ring → op s.p0.ring = .ok (r, a) → LegalFramed s.cfg r) : StateInv t := by
  rcases onRing_cases .framed k s op with ⟨-, e'⟩ | ⟨hl, -, ⟨r, a, hr, e'⟩ | ⟨f, -, e'⟩⟩ <;> (rw [e'] at e; cases e)
  · exact h.answer _
  · have hlegal := hop r a ⟨h.ring0, h.framed0 (by simp [hl])⟩ hr
    have hset : StateInv (Machine.setPipe s .p0 { s.p0 with ring := r }) :=
      h.setPipe_of hlegal.ring (fun _ => hlegal.framed) (by rw [hl]; nofun)
    exact hset.answer a

/-- A command of the Pipe layer keeps the state legal if its operation does. -/
theorem StateInv.onPipe {s t : State} {op : PipeId → Ctx → Except Fault (State × Resp)} (h : StateInv s)
    (e : onPipe s op = .next t)
    (hop : ∀ id c u a, levelHasPipes s.cfg.level = true → op id c = .ok (u, a) → StateInv u) : StateInv t := by
  rcases onPipe_cases s op with ⟨-, e'⟩ | ⟨id, c, hcur, hport, ⟨u, a, hu, e'⟩ | ⟨f, -, e'⟩⟩ <;> (rw [e'] at e; cases e)
  · exact h.answer _
  · rw [hcur] at hport
    exact (hop id c u a (hasPort_pipe hport) hu).answer a

/-- The same for an operation on the Pipe of the port alone. -/
theorem StateInv.onPipe_pipe {s t : State} {op : PipeId → Ctx → Except Fault (Pipe × Resp)} (h : StateInv s)
    (e : Machine.onPipe s (fun id c => onThisPipe? s id (op id c)) = .next t)
    (hop : ∀ id c q a, LegalPipe s.cfg (getPipe s id) → op id c = .ok (q, a) → LegalPipe s.cfg q) : StateInv t := by
  refine h.onPipe e fun id c u a hl hu => ?_
  obtain ⟨q, hq, rfl⟩ := onThisPipe?_ok hu
  exact h.setPipe (hop id c q a (h.legalPipe id hl) hq)

/-- A command of the DataPipes layer keeps the state legal if its operation does. -/
theorem StateInv.onDp {s t : State} {op : Except Fault State} (h : StateInv s)
    (e : onDp s op = .next t) (hop : ∀ u, s.cfg.level = .datapipes → op = .ok u → StateInv u) : StateInv t := by
  rcases onDp_cases s op with ⟨-, e'⟩ | ⟨hl, -, ⟨u, hu, e'⟩ | ⟨f, -, e'⟩⟩ <;> (rw [e'] at e; cases e)
  · exact h.answer _
  · exact hop _ hl hu

/-! ## Staging (R184, R187, R223) -/

theorem StateInv.stageWOn {s t : State} {id : PipeId} {m : Nat} {a : Resp} (h : StateInv s)
    (hl : levelHasPipes s.cfg.level = true) (e : stageWOn id m s = (t, a)) : StateInv t := by
  have hset := h.setPipe (id := id) ((h.legalPipe id hl).stageW h.config_wf m)
  rcases stageWOn_cases id m s with ⟨-, e'⟩ | ⟨-, e'⟩ <;> (rw [e'] at e; cases e)
  · exact hset.emit _
  · exact hset

theorem StateInv.stageROn {s t : State} {id : PipeId} {a : Resp} (h : StateInv s)
    (hl : levelHasPipes s.cfg.level = true) (e : stageROn id s = .ok (t, a)) : StateInv t := by
  rcases stageROn_cases id s with ⟨f, -, e'⟩ | ⟨p, b, hp, -, e'⟩ | ⟨p, b, hp, -, e'⟩ <;> (rw [e'] at e; cases e)
  · exact (h.setPipe ((h.legalPipe id hl).stageR hp)).emit _
  · exact h.setPipe ((h.legalPipe id hl).stageR hp)

/-- An attempt of `IDLE_STEP` keeps the state legal (R223). -/
theorem StateInv.idleAttempt {k : Attempt} {count : Nat} {s t : State} (h : StateInv s) (hl : s.cfg.level = .datapipes)
    (e : idleAttempt k count s = .ok t) : StateInv t := by
  have hpipes : levelHasPipes s.cfg.level = true := by rw [hl]; rfl
  obtain ⟨id, u, ⟨m, a, hu⟩ | ⟨a, hu⟩, hcfg, h0, h1⟩ := idleAttempt_cases e
  · exact (h.stageWOn hpipes hu).of_fields hcfg h0 h1 fun _ => by rw [stageWOn_cfg hu, hl]
  · exact (h.stageROn hpipes hu).of_fields hcfg h0 h1 fun _ => by rw [stageROn_cfg hu, hl]

/-! ## Commands and steps -/

/-- `DP_INIT` keeps the state legal (R221). -/
theorem StateInv.dpInit {s : State} (h : StateInv s) (hl : s.cfg.level = .datapipes) :
    StateInv { s with p0 := (pipeInit s.cfg s.p0).1, p1 := (pipeInit s.cfg s.p1).1 } := by
  have hpipes : levelHasPipes s.cfg.level = true := by rw [hl]; rfl
  have hfirst := h.setPipe (id := .p0) (h.legalPipe .p0 hpipes).init
  exact hfirst.setPipe (id := .p1) (h.legalPipe .p1 hpipes).init

/-- Every command keeps a legal state legal (R42, R33). -/
theorem StateInv.exec {i : Instr} {s t : State} (h : StateInv s) (e : exec i s = .next t) : StateInv t := by
  cases i with (rw [Machine.exec] at e)
  | grantW sz => exact h.onRing_ring e fun r a x => fst_of_ok x ▸ h.ring0.grantW sz
  | commit used => exact h.onRing_ring e fun r a x => fst_of_ok x ▸ h.ring0.commit used
  | read => exact h.onRing_ring e fun r a x => fst_of_ok x ▸ h.ring0.read
  | release used => exact h.onRing_ring e fun r a x => fst_of_ok x ▸ h.ring0.release used
  | fgrant m => exact h.onRing_framed e fun r a hr x => fst_of_ok x ▸ hr.grant h.config_wf m
  | fcommit used => exact h.onRing_framed e fun r a hr x => (hr.commit x).legal
  | ftoCommit amt => exact h.onRing_framed e fun r a hr x => fst_of_ok x ▸ hr.toCommit amt
  | fdropW => exact h.onRing_framed e fun r a hr x => (hr.dropW x).legal
  | fread => exact h.onRing_framed e fun r a hr x => hr.read x
  | frelease => exact h.onRing_framed e fun r a hr x => fst_of_ok x ▸ hr.release.legal
  | fautoRelease b => exact h.onRing_framed e fun r a hr x => fst_of_ok x ▸ hr.autoRelease b
  | fdropR => exact h.onRing_framed e fun r a hr x => fst_of_ok x ▸ hr.dropR.legal
  | init => exact h.onPipe e fun id c u a hl x => fst_of_ok x ▸ h.setPipe (h.legalPipe id hl).init
  | stageW m => exact h.onPipe e fun id c u a hl x => h.stageWOn hl (Except.ok.inj x)
  | stageR => exact h.onPipe e fun id c u a hl x => h.stageROn hl x
  | claimW => exact h.onPipe e fun id c u a hl x => fst_of_ok x ▸ h.setPipe ((h.legalPipe id hl).claimW c)
  | claimR => exact h.onPipe e fun id c u a hl x => fst_of_ok x ▸ h.setPipe ((h.legalPipe id hl).claimR c)
  | finalizeW n => exact h.onPipe_pipe e fun id c q a hp x => hp.finalizeW x
  | finalizeR => exact h.onPipe e fun id c u a hl x => fst_of_ok x ▸ h.setPipe (h.legalPipe id hl).finalizeR
  | abortW => exact h.onPipe_pipe e fun id c q a hp x => hp.abortW x
  | abortR => exact h.onPipe e fun id c u a hl x => fst_of_ok x ▸ h.setPipe (h.legalPipe id hl).abortR
  | queryW | queryR => exact h.onPipe e fun id c u a hl x => by cases x; exact h
  | dpInit => exact h.onDp e fun u hl x => by cases x; exact (h.dpInit hl).answer _
  | idleStep =>
    refine h.onDp e fun u hl x => ?_
    split at x
    · exact h.idleAttempt hl x
    · cases x; exact h.answer _

/-- Settles O58: whatever a step does, it does one operation on the registers as they are, and each keeps them legal. -/
theorem stepKeepsStateLegal : Obligations.StepKeepsStateLegal := by
  intro s t h e
  rcases step_cases e with ht | ⟨i, u, hu, x⟩ | ⟨run, u, hrun, hu, x⟩ | ⟨a, off, v, u, hu, x⟩ | ⟨a, off, u, hu, x⟩
  · exact h.of_same ht
  · exact (h.of_same hu).exec x
  · have hlevel : u.cfg.level = .datapipes := by rw [hu.cfg]; exact h.idle_run (by simp [hrun])
    exact (h.of_same hu).idleAttempt hlevel x
  · exact (h.of_same hu).bufWrite x
  · exact (h.of_same hu).bufRead x

end Sys2Proof.Machine
end

section
/-! PROOF. A command of one direction of a Pipe neither reads nor writes the tag and the slot of the other one (R32): it
commutes with giving them any other value. That it leaves them as they are is the case of their own value. -/

namespace Sys2Proof.Machine

/-! ## Another tag and slot of one direction -/

/-- The Pipe with another tag and slot of the reading direction. -/
def withReader (tag : Tag) (slot : Bool) (p : Pipe) : Pipe := { p with rdState := tag, rdSlot := slot }

/-- The Pipe with another tag and slot of the writing direction. -/
def withWriter (tag : Tag) (slot : Bool) (p : Pipe) : Pipe := { p with wrState := tag, wrSlot := slot }

/-- The state with one Pipe changed. -/
def mapPipe (d : Pipe → Pipe) (id : PipeId) (s : State) : State := setPipe s id (d (getPipe s id))

/-- An operation on a Pipe does the same whether or not `d` comes first. -/
def Ignores (d : Pipe → Pipe) (op : Pipe → Except Fault (Pipe × Resp)) : Prop :=
  ∀ p q a, op p = .ok (q, a) → op (d p) = .ok (d q, a)

theorem mapPipe_answer (d : Pipe → Pipe) (id : PipeId) (s : State) (a : Resp) :
    mapPipe d id (answer s a) = answer (mapPipe d id s) a := by
  cases id <;> rfl

theorem mapPipe_emit (d : Pipe → Pipe) (id : PipeId) (s : State) (e : Staged) :
    mapPipe d id (emit s e) = emit (mapPipe d id s) e := by
  cases id <;> rfl

theorem mapPipe_setPipe (d : Pipe → Pipe) (id : PipeId) (s : State) (p : Pipe) :
    mapPipe d id (setPipe s id p) = setPipe (mapPipe d id s) id (d p) := by
  cases id <;> rfl

@[simp] theorem mapPipe_cfg (d : Pipe → Pipe) (id : PipeId) (s : State) : (mapPipe d id s).cfg = s.cfg :=
  setPipe_cfg ..

@[simp] theorem getPipe_mapPipe (d : Pipe → Pipe) (id : PipeId) (s : State) :
    getPipe (mapPipe d id s) id = d (getPipe s id) :=
  getPipe_setPipe_same ..

theorem AtPipe.mapPipe {id : PipeId} {c : Ctx} {s : State} (h : AtPipe id c s) (d : Pipe → Pipe) :
    AtPipe id c (mapPipe d id s) :=
  ⟨(setPipe_cur ..).trans h.1, by rw [mapPipe_cfg]; exact h.2⟩

/-! ## Operations on a Pipe (R184 to R199) -/

theorem pipeStageW_withReader (cfg : Config) (m : Nat) (tag : Tag) (slot : Bool) :
    Ignores (withReader tag slot) fun p => .ok (pipeStageW cfg m p) := by
  intro p q a e
  beta_reduce at e
  rcases pipeStageW_cases cfg m p with ⟨hi, h⟩ | ⟨hi, hs, h⟩ | ⟨st, hi, hs, hst, hg, h⟩ | ⟨r, b, hi, hs, hg, hb, h⟩ <;>
    (rw [h] at e; cases e)
  · simp [pipeStageW, withReader, hi]
  · simp [pipeStageW, withReader, hi, hs]
  · have hne : st ≠ .ok := by rintro rfl; simp at hst
    simp [pipeStageW, withReader, hi, hs, hg, hne]
  · simp [pipeStageW, withReader, hi, hs, hg, hb]

theorem pipeStageR_withWriter (cfg : Config) (free : Nat → Byte) (tag : Tag) (slot : Bool) :
    Ignores (withWriter tag slot) (pipeStageR cfg free) := by
  intro p q a e
  rcases pipeStageR_cases cfg free p with ⟨hi, h⟩ | ⟨hi, hs, h⟩ | ⟨f, hi, hs, hr, h⟩ | ⟨r, b, hi, hs, hr, hb, h⟩ |
      ⟨r, b, hi, hs, hr, hb, h⟩ <;> (rw [h] at e; cases e)
  · simp [pipeStageR, withWriter, hi]
  · simp [pipeStageR, withWriter, hi, hs]
  · simp [pipeStageR, withWriter, hi, hs, hr, hb]
  · simp [pipeStageR, withWriter, hi, hs, hr, hb]

theorem pipeClaimW_withReader (c : Ctx) (tag : Tag) (slot : Bool) :
    Ignores (withReader tag slot) fun p => .ok (pipeClaimW c p) := by
  intro p q a e
  beta_reduce at e
  rcases pipeClaimW_cases c p with ⟨hi, h⟩ | ⟨hi, hs, h⟩ | ⟨hi, hs, h⟩ <;> (rw [h] at e; cases e)
  · simp [pipeClaimW, withReader, hi]
  · simp [pipeClaimW, withReader, hi, hs]
  · simp [pipeClaimW, withReader, hi, hs]

theorem pipeClaimR_withWriter (c : Ctx) (tag : Tag) (slot : Bool) :
    Ignores (withWriter tag slot) fun p => .ok (pipeClaimR c p) := by
  intro p q a e
  beta_reduce at e
  rcases pipeClaimR_cases c p with ⟨hi, h⟩ | ⟨hi, hs, h⟩ | ⟨hi, hs, h⟩ <;> (rw [h] at e; cases e)
  · simp [pipeClaimR, withWriter, hi]
  · simp [pipeClaimR, withWriter, hi, hs]
  · simp [pipeClaimR, withWriter, hi, hs]

theorem pipeFinalizeW_withReader (cfg : Config) (n : Nat) (tag : Tag) (slot : Bool) :
    Ignores (withReader tag slot) (pipeFinalizeW cfg n) := by
  intro p q a e
  rcases pipeFinalizeW_cases cfg n p with ⟨hi, h⟩ | ⟨hi, hs, h⟩ | ⟨f, hi, hs, hc, h⟩ | ⟨r, b, hi, hs, hc, h⟩ <;>
    (rw [h] at e; cases e)
  · simp [pipeFinalizeW, withReader, hi]
  · simp [pipeFinalizeW, withReader, hi, hs]
  · simp [pipeFinalizeW, withReader, hi, hs, hc]

theorem pipeFinalizeR_withWriter (tag : Tag) (slot : Bool) :
    Ignores (withWriter tag slot) fun p => .ok (pipeFinalizeR p) := by
  intro p q a e
  beta_reduce at e
  rcases pipeFinalizeR_cases p with ⟨hi, h⟩ | ⟨hi, hs, h⟩ | ⟨hi, hs, h⟩ <;> (rw [h] at e; cases e)
  · simp [pipeFinalizeR, withWriter, hi]
  · simp [pipeFinalizeR, withWriter, hi, hs]
  · simp [pipeFinalizeR, withWriter, hi, hs]

theorem pipeAbortW_withReader (cfg : Config) (tag : Tag) (slot : Bool) :
    Ignores (withReader tag slot) (pipeAbortW cfg) := by
  intro p q a e
  rcases pipeAbortW_cases cfg p with ⟨hi, h⟩ | ⟨hi, hs, h⟩ | ⟨f, hi, hs, hd, h⟩ | ⟨r, b, hi, hs, hd, h⟩ <;>
    (rw [h] at e; cases e)
  · simp [pipeAbortW, withReader, hi]
  · simp [pipeAbortW, withReader, hi, hs]
  · simp [pipeAbortW, withReader, hi, hs, hd]

theorem pipeAbortR_withWriter (tag : Tag) (slot : Bool) :
    Ignores (withWriter tag slot) fun p => .ok (pipeAbortR p) := by
  intro p q a e
  beta_reduce at e
  rcases pipeAbortR_cases p with ⟨hi, h⟩ | ⟨hi, hs, h⟩ | ⟨hi, hs, h⟩ <;> (rw [h] at e; cases e)
  · simp [pipeAbortR, withWriter, hi]
  · simp [pipeAbortR, withWriter, hi, hs]
  · simp [pipeAbortR, withWriter, hi, hs]

/-! ## The same for commands at a port (R90) -/

/-- What a Pipe command does at the port of its Pipe. -/
theorem onPipe_next_iff {id : PipeId} {c : Ctx} {s t : State} {op : PipeId → Ctx → Except Fault (State × Resp)}
    (h : AtPipe id c s) : onPipe s op = .next t ↔ ∃ u a, op id c = .ok (u, a) ∧ t = answer u a := by
  obtain ⟨hcur, hlevel⟩ := h
  have hport : hasPort s.cfg.level (.pipe id c) = true := by
    rcases hlevel with hl | ⟨hl, rfl⟩ <;> rw [hl] <;> rfl
  rcases onPipe_cases s op with ⟨hno, -⟩ | ⟨id', c', hcur', -, hres⟩
  · have := hno id c hcur
    rw [hcur, hport] at this
    cases this
  · obtain ⟨rfl, rfl⟩ : id = id' ∧ c = c' := by simpa [hcur] using hcur'
    rcases hres with ⟨u, a, hop, e⟩ | ⟨f, hop, e⟩
    · rw [e, hop]
      constructor
      · intro x; cases x; exact ⟨u, a, rfl, rfl⟩
      · rintro ⟨u', a', x, rfl⟩; cases x; rfl
    · rw [e, hop]
      constructor
      · intro x; cases x
      · rintro ⟨u', a', x, -⟩; cases x

/-- If the operation does the same on a changed Pipe, so does the command. -/
theorem onPipe_mapPipe {d : Pipe → Pipe} {id : PipeId} {c : Ctx} {s t : State}
    {op op' : PipeId → Ctx → Except Fault (State × Resp)} (h : AtPipe id c s) (e : onPipe s op = .next t)
    (hop : ∀ u a, op id c = .ok (u, a) → op' id c = .ok (mapPipe d id u, a)) :
    onPipe (mapPipe d id s) op' = .next (mapPipe d id t) := by
  obtain ⟨u, a, hu, rfl⟩ := (onPipe_next_iff h).1 e
  exact (onPipe_next_iff (h.mapPipe d)).2 ⟨_, a, hop u a hu, mapPipe_answer d id u a⟩

/-- An operation on the Pipe of the port alone that ignores `d`. -/
theorem onThisPipe?_mapPipe {d : Pipe → Pipe} {id : PipeId} {s u : State} {a : Resp}
    {op : Pipe → Except Fault (Pipe × Resp)} (hop : Ignores d op)
    (e : onThisPipe? s id (op (getPipe s id)) = .ok (u, a)) :
    onThisPipe? (mapPipe d id s) id (op (getPipe (mapPipe d id s) id)) = .ok (mapPipe d id u, a) := by
  obtain ⟨q, hq, rfl⟩ := onThisPipe?_ok e
  rw [getPipe_mapPipe, hop _ _ _ hq, mapPipe_setPipe]
  rfl

theorem stageWOn_mapPipe {d : Pipe → Pipe} {id : PipeId} {m : Nat} {s u : State} {a : Resp}
    (hop : Ignores d fun p => .ok (pipeStageW s.cfg m p)) (e : stageWOn id m s = (u, a)) :
    stageWOn id m (mapPipe d id s) = (mapPipe d id u, a) := by
  cases hs : pipeStageW s.cfg m (getPipe s id) with
  | mk q b =>
    have hd : pipeStageW s.cfg m (d (getPipe s id)) = (d q, b) := Except.ok.inj (hop _ q b (congrArg Except.ok hs))
    rw [stageWOn, hs] at e
    rw [stageWOn, mapPipe_cfg, getPipe_mapPipe, hd]
    by_cases hok : b.status = .ok
    · simp only [hok, if_true] at e ⊢
      cases e
      rw [mapPipe_emit, mapPipe_setPipe]
    · simp only [hok, if_false] at e ⊢
      cases e
      rw [mapPipe_setPipe]

theorem stageROn_mapPipe {d : Pipe → Pipe} {id : PipeId} {s u : State} {a : Resp}
    (hop : Ignores d (pipeStageR s.cfg (Config.freeByte id))) (e : stageROn id s = .ok (u, a)) :
    stageROn id (mapPipe d id s) = .ok (mapPipe d id u, a) := by
  rcases stageROn_cases id s with ⟨f, -, h⟩ | ⟨p, b, hp, hok, h⟩ | ⟨p, b, hp, hok, h⟩ <;> (rw [h] at e; cases e)
  · rw [stageROn, mapPipe_cfg, getPipe_mapPipe, hop _ _ _ hp]
    simp only [hok, if_true, mapPipe_emit, mapPipe_setPipe]
  · rw [stageROn, mapPipe_cfg, getPipe_mapPipe, hop _ _ _ hp]
    simp only [hok, if_false, mapPipe_setPipe]

/-! ## The two directions (R32) -/

/-- The commands of the writing direction. -/
def IsWriteCommand (i : Instr) : Prop :=
  i = .claimW ∨ i = .abortW ∨ i = .queryW ∨ (∃ n, i = .stageW n) ∨ (∃ n, i = .finalizeW n)

/-- The commands of the reading direction. -/
def IsReadCommand (i : Instr) : Prop :=
  i = .claimR ∨ i = .abortR ∨ i = .queryR ∨ i = .stageR ∨ i = .finalizeR

/-- A command of the writing direction does the same whatever the tag and slot of the reading one are. -/
theorem exec_withReader {i : Instr} {s t : State} {id : PipeId} {c : Ctx} (tag : Tag) (slot : Bool)
    (h : AtPipe id c s) (hi : IsWriteCommand i) (e : exec i s = .next t) :
    exec i (mapPipe (withReader tag slot) id s) = .next (mapPipe (withReader tag slot) id t) := by
  rcases hi with rfl | rfl | rfl | ⟨n, rfl⟩ | ⟨n, rfl⟩ <;> rw [exec] at e ⊢
  · exact onPipe_mapPipe h e fun u a => onThisPipe?_mapPipe (pipeClaimW_withReader c tag slot)
  · rw [execAbortW, mapPipe_cfg]
    exact onPipe_mapPipe h e fun u a => onThisPipe?_mapPipe (pipeAbortW_withReader s.cfg tag slot)
  · refine onPipe_mapPipe h e fun u a x => ?_
    cases x
    rw [getPipe_mapPipe]
    rfl
  · exact onPipe_mapPipe h e fun u a x =>
      congrArg Except.ok (stageWOn_mapPipe (pipeStageW_withReader s.cfg n tag slot) (Except.ok.inj x))
  · rw [execFinalizeW, mapPipe_cfg]
    exact onPipe_mapPipe h e fun u a => onThisPipe?_mapPipe (pipeFinalizeW_withReader s.cfg n tag slot)

/-- A command of the reading direction does the same whatever the tag and slot of the writing one are. -/
theorem exec_withWriter {i : Instr} {s t : State} {id : PipeId} {c : Ctx} (tag : Tag) (slot : Bool)
    (h : AtPipe id c s) (hi : IsReadCommand i) (e : exec i s = .next t) :
    exec i (mapPipe (withWriter tag slot) id s) = .next (mapPipe (withWriter tag slot) id t) := by
  rcases hi with rfl | rfl | rfl | rfl | rfl <;> rw [exec] at e ⊢
  · exact onPipe_mapPipe h e fun u a => onThisPipe?_mapPipe (pipeClaimR_withWriter c tag slot)
  · exact onPipe_mapPipe h e fun u a => onThisPipe?_mapPipe (pipeAbortR_withWriter tag slot)
  · refine onPipe_mapPipe h e fun u a x => ?_
    cases x
    rw [getPipe_mapPipe]
    rfl
  · exact onPipe_mapPipe h e fun u a => stageROn_mapPipe (pipeStageR_withWriter s.cfg _ tag slot)
  · exact onPipe_mapPipe h e fun u a => onThisPipe?_mapPipe (pipeFinalizeR_withWriter tag slot)

/-- A command that does the same after `d` leaves alone what `d` pins down: if `d` changes nothing before it, `d`
changes nothing after it. -/
theorem fixed_of_exec_mapPipe {d : Pipe → Pipe} {i : Instr} {s t : State} {id : PipeId} (e : exec i s = .next t)
    (hd : d (getPipe s id) = getPipe s id) (hsame : exec i (mapPipe d id s) = .next (mapPipe d id t)) :
    d (getPipe t id) = getPipe t id := by
  have hs : mapPipe d id s = s := by rw [mapPipe, hd, setPipe_getPipe]
  rw [hs, e] at hsame
  have ht : t = mapPipe d id t := by simpa using hsame
  calc d (getPipe t id) = getPipe (mapPipe d id t) id := (getPipe_mapPipe d id t).symm
    _ = getPipe t id := by rw [← ht]

/-- Settles O47: a command of one direction commutes with any tag and slot of the other direction, their own values among
them. -/
theorem directionsAreIndependent : Obligations.DirectionsAreIndependent := by
  intro s t id c i tag slot h e
  constructor
  · intro hi
    have hfixed := fixed_of_exec_mapPipe (d := withReader (getPipe s id).rdState (getPipe s id).rdSlot) e rfl
      (exec_withReader _ _ h hi e)
    exact ⟨(congrArg Pipe.rdState hfixed).symm, (congrArg Pipe.rdSlot hfixed).symm, exec_withReader tag slot h hi e⟩
  · intro hi
    have hfixed := fixed_of_exec_mapPipe (d := withWriter (getPipe s id).wrState (getPipe s id).wrSlot) e rfl
      (exec_withWriter _ _ h hi e)
    exact ⟨(congrArg Pipe.wrState hfixed).symm, (congrArg Pipe.wrSlot hfixed).symm, exec_withWriter tag slot h hi e⟩

end Sys2Proof.Machine
end

section
/-! PROOF. The ownership rules for bytes (R64, R66) say what the block's own check of an access says, so an access that
they admit is made and any other is a fault (R65, R69). An admitted write spares the unread bytes (R42). -/

namespace Sys2Proof.Machine

/-! ## The check of an access is the ownership rule (R64, R66) -/

theorem inRegion_iff (start len off : Nat) : inRegion start len off = true ↔ Within start len off := by
  simp [inRegion, Within]

theorem inWriteView_iff (l : Level) (r : Ring) (off : Nat) : inWriteView l r off = true ↔ ProducerOwns l r off := by
  unfold inWriteView ProducerOwns
  split
  · next hw hg => simp [hw, hg, inRegion_iff]
  · next hw hg hf => simp [hw, hg, hf, inRegion_iff]
  · next hring hframed =>
    refine iff_of_false nofun ?_
    rintro ⟨hw, g, hg, ⟨rfl, -⟩ | ⟨rfl, f, hf, -⟩⟩
    · exact hring g rfl hw hg
    · exact hframed g f rfl hw hg hf

theorem inReadView_iff (l : Level) (r : Ring) (off : Nat) : inReadView l r off = true ↔ ConsumerOwns l r off := by
  unfold inReadView ConsumerOwns
  split
  · next hr hg => simp [hr, hg, inRegion_iff]
  · next hr hg hf => simp [hr, hg, hf, inRegion_iff]
  · next hring hframed =>
    refine iff_of_false nofun ?_
    rintro ⟨hr, g, hg, ⟨rfl, -⟩ | ⟨rfl, f, hf, -⟩⟩
    · exact hring g rfl hr hg
    · exact hframed g f rfl hr hg hf

theorem inBusyWrite_iff (p : Pipe) (off : Nat) : inBusyWrite p off = true ↔ BusyWrite p off := by
  simp [inBusyWrite, BusyWrite, inRegion_iff]

theorem inBusyRead_iff (p : Pipe) (off : Nat) : inBusyRead p off = true ↔ BusyRead p off := by
  simp [inBusyRead, BusyRead, inRegion_iff]

theorem hasPipe_iff (l : Level) (id : PipeId) : hasPipe l id = true ↔ HasPipe l id := by
  cases l <;> cases id <;> simp [hasPipe, hasPort, HasPipe]

/-- The check of a byte write, agent by agent, is the rule. -/
theorem mayWrite_iff (s : State) (a : Agent) (off : Nat) : mayWrite s a off = true ↔ WriteAdmitted s a off := by
  unfold mayWrite WriteAdmitted
  rw [Bool.and_eq_true, decide_eq_true_eq]
  refine and_congr_right fun _ => ?_
  cases a with
  | port p =>
    cases p with
    | producer c => simp [inWriteView_iff]
    | consumer c => simp
    | pipe id c => cases c <;> simp [hasPipe_iff, inBusyWrite_iff, and_assoc]
    | dp => simp
  | dma id d => cases d <;> simp [hasPipe_iff, inBusyWrite_iff]

/-- The check of a byte read, agent by agent, is the rule. -/
theorem mayRead_iff (s : State) (a : Agent) (off : Nat) : mayRead s a off = true ↔ ReadAdmitted s a off := by
  unfold mayRead ReadAdmitted
  rw [Bool.and_eq_true, decide_eq_true_eq]
  refine and_congr_right fun _ => ?_
  cases a with
  | port p =>
    cases p with
    | producer c => simp [inWriteView_iff]
    | consumer c => simp [inReadView_iff]
    | pipe id c => cases c <;> simp [hasPipe_iff, inBusyWrite_iff, inBusyRead_iff]
    | dp => simp
  | dma id d => cases d <;> simp [hasPipe_iff, inBusyWrite_iff, inBusyRead_iff]

/-- Taking the action from the schedule changes nothing that the rules speak of. -/
theorem writeAdmitted_startStep (s : State) (rest : List Action) (a : Agent) (off : Nat) :
    WriteAdmitted (startStep s rest) a off ↔ WriteAdmitted s a off := by
  simp [WriteAdmitted]

theorem readAdmitted_startStep (s : State) (rest : List Action) (a : Agent) (off : Nat) :
    ReadAdmitted (startStep s rest) a off ↔ ReadAdmitted s a off := by
  simp [ReadAdmitted]

/-! ## Byte writes (R69) -/

/-- An enabled byte write is made once it has been taken from the schedule. -/
theorem step_bufWrite {s : State} {a : Agent} {off : Nat} {v : Byte} {rest : List Action}
    (hs : s.inputs = .bufWrite a off v :: rest) (he : actionEnabled s (.bufWrite a off v) = true) :
    step s = bufWrite a off v (startStep s rest) :=
  step_of_done (by simp [fetch, hs, he])

/-- Settles O53: the check is the rule, and a byte set leaves every other one alone. -/
theorem byteWritesObeyOwnership : Obligations.ByteWritesObeyOwnership := by
  intro s a off v rest hs he
  rw [step_bufWrite hs he]
  have hrule := (mayWrite_iff (startStep s rest) a off).trans (writeAdmitted_startStep s rest a off)
  rcases bufWrite_cases a off v (startStep s rest) with ⟨hmay, e⟩ | ⟨hmay, e⟩ <;> rw [e]
  · rw [getPipe_startStep]
    exact ⟨fun _ => ⟨_, rfl, memGet?_set_same .., fun k hk => memGet?_set_other _ _ hk⟩,
      fun hno => absurd (hrule.1 hmay) hno⟩
  · exact ⟨fun hadm => by simp [hrule.2 hadm] at hmay, fun _ => rfl⟩

/-- Settles O56: the byte that is set lies in a write grant, which holds no unread byte. -/
theorem byteWritesSpareUnreadData : Obligations.ByteWritesSpareUnreadData := by
  intro s t a off v id h e
  rcases bufWrite_cases a off v s with ⟨hmay, e'⟩ | ⟨-, e'⟩ <;> (rw [e'] at e; cases e)
  by_cases hid : id = agentPipe a
  · subst hid
    have hspared := (h.mayWrite_spares_unread hmay).2
    rw [setRing, getPipe_setPipe_same]
    exact bytesAt_congr fun k hk => memGet?_set_other _ _ fun heq => hspared (heq ▸ hk)
  · rw [setRing, getPipe_setPipe_other hid]

/-! ## Byte reads (R62, R69) -/

theorem readByte_written {free : Nat → Byte} {off : Nat} {r : Ring} {v : Byte} (h : memGet? r.buf off = some v) :
    readByte free off r = (r, v) := by
  simp [readByte, h]

theorem readByte_unwritten {free : Nat → Byte} {off : Nat} {r : Ring} (h : memGet? r.buf off = none) :
    readByte free off r = ({ r with drawn := r.drawn + 1 }, free r.drawn) := by
  simp [readByte, h]

/-- Putting back the ring that stands there changes nothing. -/
theorem setRing_self (s : State) (id : PipeId) : setRing s id (getPipe s id).ring = s :=
  setPipe_getPipe s id

/-- An enabled byte read is made once it has been taken from the schedule. -/
theorem step_bufRead {s : State} {a : Agent} {off : Nat} {rest : List Action}
    (hs : s.inputs = .bufRead a off :: rest) (he : actionEnabled s (.bufRead a off) = true) :
    step s = bufRead a off (startStep s rest) :=
  step_of_done (by simp [fetch, hs, he])

/-- An admitted byte read returns what reading the byte of its ring gives. -/
theorem bufRead_of_mayRead {s : State} {a : Agent} {off : Nat} {r : Ring} {v : Byte} (hmay : mayRead s a off = true)
    (hr : readByte (Config.freeByte (agentPipe a)) off (getPipe s (agentPipe a)).ring = (r, v)) :
    bufRead a off s = .next { setRing s (agentPipe a) r with rdata := some ⟨a, off, v⟩ } := by
  simp [bufRead, hmay, hr]

/-- Settles O54: the check is the rule, and a byte reads as written or as the next draw. -/
theorem byteReadsObeyOwnership : Obligations.ByteReadsObeyOwnership := by
  intro s a off rest hs he r
  rw [step_bufRead hs he]
  have hrule := (mayRead_iff (startStep s rest) a off).trans (readAdmitted_startStep s rest a off)
  have hring : (getPipe (startStep s rest) (agentPipe a)).ring = r := by rw [getPipe_startStep]
  refine ⟨fun v hadm hv => ?_, fun hadm hv => ?_, fun hno => ?_⟩
  · rw [bufRead_of_mayRead (hrule.2 hadm) (by rw [hring, readByte_written hv]), ← hring, setRing_self]
  · rw [bufRead_of_mayRead (hrule.2 hadm) (by rw [hring, readByte_unwritten hv])]
  · rcases bufRead_cases a off (startStep s rest) with ⟨-, -, hmay, -⟩ | ⟨-, e⟩
    · exact absurd (hrule.1 hmay) hno
    · exact e

end Sys2Proof.Machine
end

section
/-! PROOF. A command from a second context at a ring port is a fault (R77, R246). -/

namespace Sys2Proof.Machine

/-- A port that another context drives is not free (R77). -/
theorem drivenByOther_of_ne {c d : Ctx} (h : c ≠ d) : drivenByOther (some d) c = true := by
  simp [drivenByOther, h.symm]

/-- Under `ANY` a command may step at any time (R242). -/
theorem actionEnabled_cmd_of_any {s : State} (h : s.cfg.sched = .any) (p : Port) (w : Word) :
    actionEnabled s (.cmd p w) = true := by
  simp [actionEnabled, actionCtx?, ctxMayStep_iff, h]

/-- A raw or framed ring has a producer and a consumer port (R90). -/
theorem hasPort_ringPorts {l : Level} (h : l = .ring ∨ l = .framed) (c : Ctx) :
    hasPort l (.producer c) = true ∧ hasPort l (.consumer c) = true := by
  rcases h with rfl | rfl <;> exact ⟨rfl, rfl⟩

/-- A word that its port does not deliver ends the step there (R77). -/
theorem step_of_acceptWord_done {s : State} {p : Port} {w : Word} {rest : List Action}
    {o : Host.Outcome State Fault Refusal} (hs : s.inputs = .cmd p w :: rest)
    (he : actionEnabled s (.cmd p w) = true) (hport : hasPort s.cfg.level p = true) (hdp : p ≠ .dp)
    (h : acceptWord p w (startStep s rest) = .done o) : step s = o := by
  refine step_of_done ((fetch_command hs he).trans ?_)
  rcases fetchCommand_cases p w rest s with ⟨hno, -⟩ | ⟨-, -, hp, -⟩ | ⟨-, -, e⟩
  · simp [hport] at hno
  · exact absurd hp hdp
  · rw [e, h]

/-- Settles O11: the port is there and the step is admitted, so the word meets the recorded driver. -/
theorem secondContextFaults : Obligations.SecondContextFaults := by
  intro s c d w rest hany hlevel hne
  have hother := drivenByOther_of_ne hne
  have henabled := actionEnabled_cmd_of_any hany
  obtain ⟨hprod, hcons⟩ := hasPort_ringPorts hlevel c
  constructor
  · intro hby hs
    exact step_of_acceptWord_done hs (henabled _ w) hprod nofun (by simp [acceptWord, hby, hother])
  · intro hby hs
    exact step_of_acceptWord_done hs (henabled _ w) hcons nofun (by simp [acceptWord, hby, hother])

end Sys2Proof.Machine
end

section
/-! PROOF. What commands do to the bytes of the storage (R62, R156): `FCOMMIT`, `FDROP_W` and `FINALIZE_W` store at most
the frame header of the write grant, and no other command stores a byte. -/

namespace Sys2Proof.Machine

/-! ## The rings before and after a command -/

/-- The storage of a ring is the same. -/
def KeepsBytes (r r' : Ring) : Prop := r'.buf = r.buf

/-- The bytes in which the storage of a ring differs are those of the frame header of its write grant. -/
def StoresHeaderOnly (r r' : Ring) : Prop :=
  ∀ off, memGet? r'.buf off ≠ memGet? r.buf off →
    ∃ g f, r.wg = some g ∧ r.fw = some f ∧ Within g.start f.hdrLen off

theorem KeepsBytes.refl (r : Ring) : KeepsBytes r r := rfl

theorem KeepsBytes.trans {r₁ r₂ r₃ : Ring} (h : KeepsBytes r₁ r₂) (h' : KeepsBytes r₂ r₃) : KeepsBytes r₁ r₃ :=
  Eq.trans h' h

theorem KeepsBytes.storesHeaderOnly {r r' : Ring} (h : KeepsBytes r r') : StoresHeaderOnly r r' := by
  intro off hne
  rw [h] at hne
  exact absurd rfl hne

/-- Both rings of a state are related to the rings of the next state. -/
def RingsRelated (R : Ring → Ring → Prop) (s t : State) : Prop :=
  ∀ id, R (getPipe s id).ring (getPipe t id).ring

theorem RingsRelated.refl {R : Ring → Ring → Prop} (hrefl : ∀ r, R r r) (s : State) : RingsRelated R s s :=
  fun _ => hrefl _

/-- Replacing one Pipe leaves the other ring as it is. -/
theorem RingsRelated.setPipe {R : Ring → Ring → Prop} (hrefl : ∀ r, R r r) {s : State} {id : PipeId} {p : Pipe}
    (h : R (getPipe s id).ring p.ring) : RingsRelated R s (setPipe s id p) := by
  intro k
  by_cases hk : k = id
  · subst hk
    rwa [getPipe_setPipe_same]
  · rw [getPipe_setPipe_other hk]
    exact hrefl _

/-- An answer touches no ring. -/
theorem RingsRelated.answer {R : Ring → Ring → Prop} {s t : State} (h : RingsRelated R s t) (a : Resp) :
    RingsRelated R s (answer t a) := by
  intro id
  rw [getPipe_answer]
  exact h id

/-- An event touches no ring. -/
theorem RingsRelated.emit {R : Ring → Ring → Prop} {s t : State} (h : RingsRelated R s t) (e : Staged) :
    RingsRelated R s (emit t e) := by
  intro id
  rw [getPipe_emit]
  exact h id

/-! ## Commands at their ports (R90) -/

theorem onRing_rings {R : Ring → Ring → Prop} (hrefl : ∀ r, R r r) {l : Level} {k : PortKind} {s t : State}
    {op : Ring → Except Fault (Ring × Resp)} (e : onRing l k s op = .next t)
    (hop : ∀ r a, s.cfg.level = l → op s.p0.ring = .ok (r, a) → R s.p0.ring r) : RingsRelated R s t := by
  rcases onRing_cases l k s op with ⟨-, h⟩ | ⟨hl, -, ⟨r, a, hr, h⟩ | ⟨f, -, h⟩⟩ <;> (rw [h] at e; cases e)
  · exact (RingsRelated.refl hrefl s).answer _
  · have hset : RingsRelated R s (setPipe s .p0 { s.p0 with ring := r }) := .setPipe hrefl (hop r a hl hr)
    exact hset.answer a

theorem onPipe_rings {R : Ring → Ring → Prop} (hrefl : ∀ r, R r r) {s t : State}
    {op : PipeId → Ctx → Except Fault (State × Resp)} (e : onPipe s op = .next t)
    (hop : ∀ id c u a, levelHasPipes s.cfg.level = true → op id c = .ok (u, a) → RingsRelated R s u) :
    RingsRelated R s t := by
  rcases onPipe_cases s op with ⟨-, h⟩ | ⟨id, c, hcur, hport, ⟨u, a, hu, h⟩ | ⟨f, -, h⟩⟩ <;> (rw [h] at e; cases e)
  · exact (RingsRelated.refl hrefl s).answer _
  · rw [hcur] at hport
    exact (hop id c u a (hasPort_pipe hport) hu).answer a

/-- The same for an operation on the Pipe of the port alone. -/
theorem onPipe_pipe_rings {R : Ring → Ring → Prop} (hrefl : ∀ r, R r r) {s t : State}
    {op : PipeId → Ctx → Except Fault (Pipe × Resp)}
    (e : onPipe s (fun id c => onThisPipe? s id (op id c)) = .next t)
    (hop : ∀ id c q a, levelHasPipes s.cfg.level = true → op id c = .ok (q, a) → R (getPipe s id).ring q.ring) :
    RingsRelated R s t := by
  refine onPipe_rings hrefl e fun id c u a hl hu => ?_
  obtain ⟨q, hq, rfl⟩ := onThisPipe?_ok hu
  exact .setPipe hrefl (hop id c q a hl hq)

theorem onDp_rings {R : Ring → Ring → Prop} (hrefl : ∀ r, R r r) {s t : State} {op : Except Fault State}
    (e : onDp s op = .next t) (hop : ∀ u, op = .ok u → RingsRelated R s u) : RingsRelated R s t := by
  rcases onDp_cases s op with ⟨-, h⟩ | ⟨-, -, ⟨u, hu, h⟩ | ⟨f, -, h⟩⟩ <;> (rw [h] at e; cases e)
  · exact (RingsRelated.refl hrefl s).answer _
  · exact hop _ hu

/-! ## Operations that store no byte (R122 to R136, R152 to R166) -/

theorem ringGrantW_keepsBytes (cap sz : Nat) (r : Ring) : KeepsBytes r (ringGrantW cap sz r).1 := by
  rcases ringGrantW_cases cap sz r with ⟨-, e⟩ | ⟨-, -, e⟩ | ⟨st, -, -, e⟩ <;> rw [e] <;> rfl

theorem ringCommit_keepsBytes (cap used : Nat) (r : Ring) : KeepsBytes r (ringCommit cap used r).1 := by
  rcases ringCommit_cases cap used r with ⟨g, -, -, e⟩ | ⟨-, e⟩ <;> rw [e]
  · rw [KeepsBytes, clearWriteGrant_buf, advanceWrite]
    split <;> rfl
  · rfl

theorem ringRead_keepsBytes (r : Ring) : KeepsBytes r (ringRead r).1 := by
  rcases ringRead_cases r with ⟨-, e⟩ | ⟨-, -, e⟩ | ⟨-, -, e⟩ <;> rw [e]
  · rfl
  · exact wrapRead_buf r
  · exact wrapRead_buf r

theorem ringRelease_keepsBytes (used : Nat) (r : Ring) : KeepsBytes r (ringRelease used r).1 := by
  rcases ringRelease_cases used r with ⟨g, -, -, e⟩ | ⟨-, e⟩ <;> rw [e] <;> rfl

theorem frameGrant_keepsBytes (cfg : Config) (maxSz : Nat) (r : Ring) : KeepsBytes r (frameGrant cfg maxSz r).1 := by
  rcases frameGrant_cases cfg maxSz r with ⟨st, -, -, e⟩ | ⟨st, -, -, -, e⟩ <;> rw [e] <;> rfl

theorem frameToCommit_keepsBytes (amt : Nat) (r : Ring) : KeepsBytes r (frameToCommit amt r).1 := by
  rcases frameToCommit_cases amt r with ⟨-, e⟩ | ⟨f, -, -, e⟩ <;> rw [e] <;> rfl

theorem frameRead_keepsBytes {cfg : Config} {free : Nat → Byte} {r r' : Ring} {a : Resp}
    (e : frameRead cfg free r = .ok (r', a)) : KeepsBytes r r' := by
  rcases frameRead_cases cfg free r with ⟨-, h⟩ | ⟨-, -, h⟩ | ⟨-, -, h⟩ <;> rw [h] at e
  · cases e; rfl
  · cases e; exact wrapRead_buf r
  · obtain ⟨hl, p, k, -, -, -, rfl⟩ := narrowToFrame_ok e
    exact wrapRead_buf r

theorem frameRelease_keepsBytes (r : Ring) : KeepsBytes r (frameRelease r).1 := by
  rcases frameRelease_cases r with ⟨-, e⟩ | ⟨g, -, -, e⟩ <;> rw [e]
  · rfl
  · exact ringRelease_keepsBytes g.len { r with fr := none }

theorem frameAutoRelease_keepsBytes (b : Bool) (r : Ring) : KeepsBytes r (frameAutoRelease b r).1 := by
  rcases frameAutoRelease_cases b r with ⟨-, e⟩ | ⟨f, -, -, e⟩ <;> rw [e] <;> rfl

theorem frameDropR_keepsBytes (r : Ring) : KeepsBytes r (frameDropR r).1 := by
  rcases frameDropR_cases r with ⟨-, e⟩ | ⟨f, -, -, -, e⟩ | ⟨f, -, -, -, e⟩ <;> rw [e]
  · rfl
  · exact frameRelease_keepsBytes r
  · exact ringRelease_keepsBytes 0 { r with fr := none }

/-- After `FTO_COMMIT 0` an `FDROP_W` commits nothing, so it writes no header (R159). -/
theorem frameDropW_toCommit_zero_keepsBytes {cfg : Config} {r r' : Ring} {a : Resp}
    (e : frameDropW cfg (frameToCommit 0 r).1 = .ok (r', a)) : KeepsBytes r r' := by
  refine (frameToCommit_keepsBytes 0 r).trans ?_
  rcases frameDropW_cases cfg (frameToCommit 0 r).1 with ⟨-, h⟩ | ⟨f, -, -, -, h⟩ | ⟨f, hw, hf, hne, -⟩
  · rw [h] at e
    cases e
    rfl
  · rw [h] at e
    rw [← fst_of_ok e]
    exact ringCommit_keepsBytes cfg.n 0 { (frameToCommit 0 r).1 with fw := none }
  · rcases frameToCommit_cases 0 r with ⟨hno, h⟩ | ⟨f', -, -, h⟩ <;> simp only [h] at hw hf
    · simp [hw, hf] at hno
    · cases hf
      exact absurd rfl hne

/-! ## Operations on a Pipe that store no byte (R182 to R199) -/

theorem pipeInit_keepsBytes (cfg : Config) (p : Pipe) : KeepsBytes p.ring (pipeInit cfg p).1.ring := by
  rcases pipeInit_cases cfg p with ⟨-, e⟩ | ⟨-, e⟩ <;> rw [e] <;> rfl

theorem pipeStageW_keepsBytes (cfg : Config) (m : Nat) (p : Pipe) : KeepsBytes p.ring (pipeStageW cfg m p).1.ring := by
  rcases pipeStageW_cases cfg m p with ⟨-, e⟩ | ⟨-, -, e⟩ | ⟨st, -, -, -, -, e⟩ | ⟨r, a, -, -, hgrant, -, e⟩ <;> rw [e]
  · rfl
  · rfl
  · rfl
  · have hkeeps := frameGrant_keepsBytes cfg m p.ring
    rwa [hgrant] at hkeeps

theorem pipeStageR_keepsBytes {cfg : Config} {free : Nat → Byte} {p q : Pipe} {a : Resp}
    (e : pipeStageR cfg free p = .ok (q, a)) : KeepsBytes p.ring q.ring := by
  rcases pipeStageR_cases cfg free p with ⟨-, h⟩ | ⟨-, -, h⟩ | ⟨f, -, -, -, h⟩ | ⟨r, b, -, -, hread, -, h⟩ |
      ⟨r, b, -, -, hread, -, h⟩ <;> (rw [h] at e; cases e)
  · rfl
  · rfl
  · exact frameRead_keepsBytes hread
  · exact frameRead_keepsBytes hread

theorem pipeClaimW_keepsBytes (c : Ctx) (p : Pipe) : KeepsBytes p.ring (pipeClaimW c p).1.ring := by
  rcases pipeClaimW_cases c p with ⟨-, e⟩ | ⟨-, -, e⟩ | ⟨-, -, e⟩ <;> rw [e] <;> rfl

theorem pipeClaimR_keepsBytes (c : Ctx) (p : Pipe) : KeepsBytes p.ring (pipeClaimR c p).1.ring := by
  rcases pipeClaimR_cases c p with ⟨-, e⟩ | ⟨-, -, e⟩ | ⟨-, -, e⟩ <;> rw [e] <;> rfl

theorem pipeFinalizeR_keepsBytes (p : Pipe) : KeepsBytes p.ring (pipeFinalizeR p).1.ring := by
  rcases pipeFinalizeR_cases p with ⟨-, e⟩ | ⟨-, -, e⟩ | ⟨-, -, e⟩ <;> rw [e]
  · rfl
  · rfl
  · exact frameRelease_keepsBytes p.ring

theorem pipeAbortW_keepsBytes {cfg : Config} {p q : Pipe} {a : Resp} (e : pipeAbortW cfg p = .ok (q, a)) :
    KeepsBytes p.ring q.ring := by
  rcases pipeAbortW_cases cfg p with ⟨-, h⟩ | ⟨-, -, h⟩ | ⟨f, -, -, -, h⟩ | ⟨r, b, -, -, hdrop, h⟩ <;>
    (rw [h] at e; cases e)
  · rfl
  · rfl
  · exact frameDropW_toCommit_zero_keepsBytes hdrop

theorem pipeAbortR_keepsBytes (p : Pipe) : KeepsBytes p.ring (pipeAbortR p).1.ring := by
  rcases pipeAbortR_cases p with ⟨-, e⟩ | ⟨-, -, e⟩ | ⟨-, -, e⟩ <;> rw [e]
  · rfl
  · rfl
  · exact (frameAutoRelease_keepsBytes false p.ring).trans (frameDropR_keepsBytes _)

/-! ## Staging and initialising (R184, R187, R221, R223) -/

theorem stageWOn_keepsBytes {id : PipeId} {m : Nat} {s t : State} {a : Resp} (e : stageWOn id m s = (t, a)) :
    RingsRelated KeepsBytes s t := by
  have hset := RingsRelated.setPipe .refl (pipeStageW_keepsBytes s.cfg m (getPipe s id))
  rcases stageWOn_cases id m s with ⟨-, h⟩ | ⟨-, h⟩ <;> (rw [h] at e; cases e)
  · exact hset.emit _
  · exact hset

theorem stageROn_keepsBytes {id : PipeId} {s t : State} {a : Resp} (e : stageROn id s = .ok (t, a)) :
    RingsRelated KeepsBytes s t := by
  rcases stageROn_cases id s with ⟨f, -, h⟩ | ⟨p, b, hp, -, h⟩ | ⟨p, b, hp, -, h⟩ <;> (rw [h] at e; cases e)
  · exact (RingsRelated.setPipe .refl (pipeStageR_keepsBytes hp)).emit _
  · exact .setPipe .refl (pipeStageR_keepsBytes hp)

theorem idleAttempt_keepsBytes {k : Attempt} {count : Nat} {s t : State} (e : idleAttempt k count s = .ok t) :
    RingsRelated KeepsBytes s t := by
  obtain ⟨id, u, hstage, -, h0, h1⟩ := idleAttempt_cases e
  have hu : RingsRelated KeepsBytes s u := by
    rcases hstage with ⟨m, a, hw⟩ | ⟨a, hr⟩
    · exact stageWOn_keepsBytes hw
    · exact stageROn_keepsBytes hr
  intro k
  cases k with
  | p0 => rw [getPipe_p0 t, h0]; exact hu .p0
  | p1 => rw [getPipe_p1 t, h1]; exact hu .p1

theorem dpInit_keepsBytes (s : State) :
    RingsRelated KeepsBytes s { s with p0 := (pipeInit s.cfg s.p0).1, p1 := (pipeInit s.cfg s.p1).1 } := by
  intro k
  cases k with
  | p0 => exact pipeInit_keepsBytes s.cfg s.p0
  | p1 => exact pipeInit_keepsBytes s.cfg s.p1

/-! ## Operations that store a header (R155, R156, R159, R192) -/

theorem LegalFramed.commit_storesHeaderOnly {cfg : Config} {r r' : Ring} {used : Nat} {a : Resp}
    (h : LegalFramed cfg r) (e : frameCommit cfg used r = .ok (r', a)) : StoresHeaderOnly r r' := by
  cases hw : r.wip with
  | false =>
    obtain rfl : r = r' := by simp [frameCommit, hw] at e; exact e.1
    exact (KeepsBytes.refl r).storesHeaderOnly
  | true =>
    obtain ⟨g, f, p, hg, hf, -, -, -, hp, e'⟩ := h.frameCommit_eq used hw
    obtain rfl : framePublished cfg g f.hdrLen p r = r' := by simp [e'] at e; exact e.1
    intro off hne
    refine ⟨g, f, hg, hf, ?_⟩
    rw [framePublished_eq cfg g p r hp.size.1, clearWriteGrant_buf] at hne
    have hlen := hdrEnc_length hp
    by_contra hout
    refine hne (memGet?_setBytes_outside _ _ _ _ ?_)
    unfold Within at hout
    omega

theorem LegalFramed.dropW_storesHeaderOnly {cfg : Config} {r r' : Ring} {a : Resp} (h : LegalFramed cfg r)
    (e : frameDropW cfg r = .ok (r', a)) : StoresHeaderOnly r r' := by
  rcases frameDropW_cases cfg r with ⟨-, h'⟩ | ⟨f, -, -, -, h'⟩ | ⟨f, -, -, -, h'⟩ <;> rw [h'] at e
  · cases e
    exact (KeepsBytes.refl r).storesHeaderOnly
  · rw [← fst_of_ok e]
    have hkeeps : KeepsBytes r _ := ringCommit_keepsBytes cfg.n 0 { r with fw := none }
    exact hkeeps.storesHeaderOnly
  · exact h.commit_storesHeaderOnly e

theorem LegalPipe.finalizeW_storesHeaderOnly {cfg : Config} {p q : Pipe} {n : Nat} {a : Resp} (h : LegalPipe cfg p)
    (e : pipeFinalizeW cfg n p = .ok (q, a)) : StoresHeaderOnly p.ring q.ring := by
  rcases pipeFinalizeW_cases cfg n p with ⟨-, h'⟩ | ⟨-, -, h'⟩ | ⟨f, -, -, -, h'⟩ | ⟨r, b, -, -, hcommit, h'⟩ <;>
    (rw [h'] at e; cases e)
  · exact (KeepsBytes.refl _).storesHeaderOnly
  · exact (KeepsBytes.refl _).storesHeaderOnly
  · exact h.ring.commit_storesHeaderOnly hcommit

/-! ## Commands -/

/-- The commands that finish a framed write grant with a commit (R155, R159, R192). -/
def FinishesFrame (i : Instr) : Prop := (∃ n, i = .fcommit n) ∨ i = .fdropW ∨ ∃ n, i = .finalizeW n

/-- Any other command stores no byte, in any state (R62). -/
theorem exec_keepsBytes {i : Instr} {s t : State} (hi : ¬ FinishesFrame i) (e : exec i s = .next t) :
    RingsRelated KeepsBytes s t := by
  cases i with (rw [exec] at e)
  | grantW sz => exact onRing_rings .refl e fun r a _ x => fst_of_ok x ▸ ringGrantW_keepsBytes s.cfg.n sz _
  | commit used => exact onRing_rings .refl e fun r a _ x => fst_of_ok x ▸ ringCommit_keepsBytes s.cfg.n used _
  | read => exact onRing_rings .refl e fun r a _ x => fst_of_ok x ▸ ringRead_keepsBytes _
  | release used => exact onRing_rings .refl e fun r a _ x => fst_of_ok x ▸ ringRelease_keepsBytes used _
  | fgrant m => exact onRing_rings .refl e fun r a _ x => fst_of_ok x ▸ frameGrant_keepsBytes s.cfg m _
  | fcommit n => exact absurd (.inl ⟨n, rfl⟩) hi
  | ftoCommit amt => exact onRing_rings .refl e fun r a _ x => fst_of_ok x ▸ frameToCommit_keepsBytes amt _
  | fdropW => exact absurd (.inr (.inl rfl)) hi
  | fread => exact onRing_rings .refl e fun r a _ x => frameRead_keepsBytes x
  | frelease => exact onRing_rings .refl e fun r a _ x => fst_of_ok x ▸ frameRelease_keepsBytes _
  | fautoRelease b => exact onRing_rings .refl e fun r a _ x => fst_of_ok x ▸ frameAutoRelease_keepsBytes b _
  | fdropR => exact onRing_rings .refl e fun r a _ x => fst_of_ok x ▸ frameDropR_keepsBytes _
  | init => exact onPipe_rings .refl e fun id c u a _ x => fst_of_ok x ▸ .setPipe .refl (pipeInit_keepsBytes s.cfg _)
  | stageW m => exact onPipe_rings .refl e fun id c u a _ x => stageWOn_keepsBytes (Except.ok.inj x)
  | stageR => exact onPipe_rings .refl e fun id c u a _ x => stageROn_keepsBytes x
  | claimW => exact onPipe_rings .refl e fun id c u a _ x => fst_of_ok x ▸ .setPipe .refl (pipeClaimW_keepsBytes c _)
  | claimR => exact onPipe_rings .refl e fun id c u a _ x => fst_of_ok x ▸ .setPipe .refl (pipeClaimR_keepsBytes c _)
  | finalizeW n => exact absurd (.inr (.inr ⟨n, rfl⟩)) hi
  | finalizeR =>
    exact onPipe_rings .refl e fun id c u a _ x => fst_of_ok x ▸ .setPipe .refl (pipeFinalizeR_keepsBytes _)
  | abortW => exact onPipe_pipe_rings .refl e fun id c q a _ x => pipeAbortW_keepsBytes x
  | abortR => exact onPipe_rings .refl e fun id c u a _ x => fst_of_ok x ▸ .setPipe .refl (pipeAbortR_keepsBytes _)
  | queryW | queryR => exact onPipe_rings .refl e fun id c u a _ x => fst_of_ok x ▸ .refl .refl s
  | dpInit => exact onDp_rings .refl e fun u x => by cases x; exact (dpInit_keepsBytes s).answer _
  | idleStep =>
    refine onDp_rings .refl e fun u x => ?_
    split at x
    · exact idleAttempt_keepsBytes x
    · cases x
      exact (RingsRelated.refl .refl s).answer _

/-- In a legal state a command that finishes a frame stores at most its header (R156). -/
theorem StateInv.exec_storesHeaderOnly {i : Instr} {s t : State} (h : StateInv s) (hi : FinishesFrame i)
    (e : Machine.exec i s = .next t) : RingsRelated StoresHeaderOnly s t := by
  have hrefl : ∀ r, StoresHeaderOnly r r := fun r => (KeepsBytes.refl r).storesHeaderOnly
  have hlegal : s.cfg.level = .framed → LegalFramed s.cfg s.p0.ring := fun hl => ⟨h.ring0, h.framed0 (by simp [hl])⟩
  rcases hi with ⟨n, rfl⟩ | rfl | ⟨n, rfl⟩ <;> rw [Machine.exec] at e
  · exact onRing_rings hrefl e fun r a hl x => (hlegal hl).commit_storesHeaderOnly x
  · exact onRing_rings hrefl e fun r a hl x => (hlegal hl).dropW_storesHeaderOnly x
  · exact onPipe_pipe_rings hrefl e fun id c q a hl x => (h.legalPipe id hl).finalizeW_storesHeaderOnly x

/-- Settles O55: a command that finishes no frame stores no byte, and one that does stores at most the header. -/
theorem blockStoresOnlyHeaders : Obligations.BlockStoresOnlyHeaders := by
  intro i s t id off h e hne
  by_cases hi : FinishesFrame i
  · exact ⟨hi, h.exec_storesHeaderOnly hi e id off hne⟩
  · have hsame : (getPipe t id).ring.buf = (getPipe s id).ring.buf := exec_keepsBytes hi e id
    exact absurd (by rw [hsame]) hne

end Sys2Proof.Machine
end

section
/-! PROOF. The command words (R91 to R94, R99, R100): the encoder and the decoder are inverse to each other on the
well-formed commands, and the words that decode are those of the opcode map. -/

namespace Sys2Proof.Machine

open Sys2Proof.Laws

/-! ## The fields of a word (R91) -/

/-- A word is its opcode and its operand. -/
theorem assembleWord_fields (w : Word) : assembleWord (opcodeField w) (imm24Field w) = w := by
  refine BitVec.eq_of_toNat_eq ?_
  have hw : w.toNat < 2 ^ 32 := w.isLt
  rw [assembleWord_toNat, opcodeField, imm24Field, BitVec.extractLsb'_toNat, BitVec.extractLsb'_toNat,
    Nat.shiftRight_eq_div_pow, Nat.shiftRight_zero]
  omega

theorem imm24Field_lt (w : Word) : imm24Field w < 2 ^ 24 := (w.extractLsb' 0 24).isLt

/-- A command has an encoding when its operand field fits 24 bits (R93). -/
theorem wellFormed_iff_imm_lt (i : Instr) : i.WellFormed ↔ i.imm < 2 ^ 24 := by
  cases i with
  | grantW n | commit n | release n | fgrant n | fcommit n | ftoCommit n | stageW n | finalizeW n => exact Iff.rfl
  | fautoRelease b => cases b <;> decide
  | _ => decide

/-! ## Decoding and encoding (R91 to R94, R100) -/

/-- A format `Z` opcode names its command before a zero operand only (R92). -/
theorem formatZ_eq_ok_iff {imm : Nat} {i j : Instr} : formatZ imm i = .ok j ↔ imm = 0 ∧ i = j := by
  by_cases h : imm = 0 <;> simp [formatZ, h]

/-- `FAUTO_RELEASE` is named before the operand of a boolean only (R93). -/
theorem formatBool_eq_ok_iff {imm : Nat} {j : Instr} :
    formatBool imm = .ok j ↔ ∃ b, boolImm b = imm ∧ .fautoRelease b = j := by
  by_cases h0 : imm = 0
  · simp [formatBool, boolOperand, boolImm, h0]
  · by_cases h1 : imm = 1
    · simp [formatBool, boolOperand, boolImm, h1]
    · simp [formatBool, boolOperand, boolImm, h0, h1, Ne.symm h0, Ne.symm h1]

/-- The row of a command decodes the command's own fields (R100). -/
theorem decodeFields_opcode_imm (i : Instr) : decodeFields i.opcode i.imm = .ok i := by
  cases i with
  | fautoRelease b => cases b <;> rfl
  | _ => rfl

/-- Only the row of a command decodes to it, from its own operand (R100). -/
theorem opcode_imm_of_decodeFields {opcode imm : Nat} {i : Instr} (h : decodeFields opcode imm = .ok i) :
    i.opcode = opcode ∧ i.imm = imm := by
  unfold decodeFields at h
  split at h
  case h_1 | h_2 | h_4 | h_5 | h_6 | h_7 | h_14 | h_18 =>
    cases h
    exact ⟨rfl, rfl⟩
  case h_11 =>
    obtain ⟨b, rfl, rfl⟩ := formatBool_eq_ok_iff.1 h
    exact ⟨rfl, rfl⟩
  case h_26 => cases h
  all_goals
    obtain ⟨rfl, rfl⟩ := formatZ_eq_ok_iff.1 h
    exact ⟨rfl, rfl⟩

/-- Settles O1: the word carries the command's opcode and operand, and these decode to the command. -/
theorem decodeOfEncode : Obligations.DecodeOfEncode := by
  intro i h
  obtain ⟨hopcode, himm⟩ := encodedFields_of_imm ((wellFormed_iff_imm_lt i).1 h)
  rw [decode, hopcode, himm, decodeFields_opcode_imm]

/-- Settles O2: the fields of the word are the command's opcode and operand, and a word is its fields. -/
theorem encodeOfDecode : Obligations.EncodeOfDecode := by
  intro w i h
  obtain ⟨hopcode, himm⟩ := opcode_imm_of_decodeFields h
  refine ⟨(wellFormed_iff_imm_lt i).2 (himm ▸ imm24Field_lt w), ?_⟩
  rw [encode, hopcode, himm, assembleWord_fields]

/-- Settles O4: the decoder is run on each word. -/
theorem specWordsDecode : Obligations.SpecWordsDecode := by
  unfold Obligations.SpecWordsDecode
  decide

/-! ## The rows of the opcode map (R99, R100) -/

/-- The opcodes of the format `C` commands whose operand is any number of 24 bits (R91, R93). -/
def operandOpcodes : List Nat := [0x10, 0x11, 0x15, 0x20, 0x21, 0x22, 0x31, 0x35]

/-- Such an opcode decodes before every operand. -/
theorem decodeFields_operandOpcode {opcode : Nat} (h : opcode ∈ operandOpcodes) (imm : Nat) :
    ∃ i, decodeFields opcode imm = .ok i := by
  fin_cases h <;> exact ⟨_, rfl⟩

/-- The mask of the opcode bits does not change the opcode. -/
theorem opcodeField_and_mask (w : Word) : opcodeField (w &&& 0xFF000000) = opcodeField w := by
  have hmask : (0xFF000000 : Word).extractLsb' 24 8 = BitVec.allOnes 8 := by decide
  rw [opcodeField, BitVec.extractLsb'_and, hmask, BitVec.and_allOnes, opcodeField]

/-- The mask of the opcode bits clears the operand. -/
theorem assembleWord_and_mask (opcode imm : Nat) : assembleWord opcode imm &&& 0xFF000000 = assembleWord opcode 0 := by
  have hmask : (0xFF000000 : Word) = BitVec.allOnes 8 ++ 0#24 := by decide
  rw [assembleWord, hmask, BitVec.and_append, BitVec.and_allOnes, BitVec.and_zero, assembleWord]

/-- The mask of `FAUTO_RELEASE` leaves bit 0 free (R93). -/
theorem eq_of_and_boolMask {w m : Word} (h : w &&& 0xFFFFFFFE = m) : w = m ∨ w = m ||| 1 := by
  have hbit : w &&& 1 = 0 ∨ w &&& 1 = 1 := by
    rw [show (1 : Word) = BitVec.twoPow 32 0 by decide, BitVec.and_twoPow]
    cases w.getLsbD 0
    · exact .inl rfl
    · exact .inr rfl
  have hw : w = m ||| w &&& 1 := by
    calc w = w &&& (0xFFFFFFFE ||| 1) := (BitVec.and_allOnes).symm
      _ = m ||| w &&& 1 := by rw [BitVec.and_or_distrib_left, h]
  rcases hbit with hb | hb <;> rw [hb] at hw
  · exact .inl (by simpa using hw)
  · exact .inr hw

/-- The three formats of a row: any operand, a boolean operand, no operand (R91 to R93). -/
theorem opcodeRows_format : ∀ row ∈ opcodeRows,
    (row.1 = 0xFF000000 ∧ opcodeField row.2 ∈ operandOpcodes) ∨ row = (0xFFFFFFFE, 0x26000000) ∨
    row.1 = 0xFFFFFFFF := by
  simp [opcodeRows, opcodeField, operandOpcodes]

/-- The match word of each row decodes: its free bits are zero. -/
theorem opcodeRows_match_decodes : ∀ row ∈ opcodeRows, ∃ i, decode row.2 = .ok i := by
  intro row hrow
  fin_cases hrow <;> exact ⟨_, rfl⟩

/-- A word that matches a row decodes. -/
theorem MatchesRow.decodes {w : Word} (h : MatchesRow w) : ∃ i, decode w = .ok i := by
  obtain ⟨row, hrow, hw⟩ := h
  rcases opcodeRows_format row hrow with ⟨hmask, hopcode⟩ | rfl | hmask
  · rw [hmask] at hw
    rw [← hw, opcodeField_and_mask] at hopcode
    exact decodeFields_operandOpcode hopcode _
  · rcases eq_of_and_boolMask hw with rfl | rfl
    · exact ⟨.fautoRelease false, by decide⟩
    · exact ⟨.fautoRelease true, by decide⟩
  · have hword : w = row.2 := by
      rw [← hw, hmask]
      exact BitVec.and_allOnes.symm
    exact hword ▸ opcodeRows_match_decodes row hrow

/-- The row of a command with an operand takes every operand. -/
theorem matchesRow_operandOpcode {opcode : Nat} (h : opcode ∈ operandOpcodes) (imm : Nat) :
    MatchesRow (assembleWord opcode imm) := by
  have hrows : ∀ op ∈ operandOpcodes, ((0xFF000000, assembleWord op 0) : Word × Word) ∈ opcodeRows := by decide
  exact ⟨_, hrows opcode h, assembleWord_and_mask opcode imm⟩

/-- The row of a command without operand takes its one word. -/
theorem matchesRow_of_mem {w : Word} (h : (0xFFFFFFFF, w) ∈ opcodeRows) : MatchesRow w :=
  ⟨_, h, BitVec.and_allOnes⟩

/-- The word of every command matches a row. -/
theorem matchesRow_encode (i : Instr) : MatchesRow (encode i) := by
  cases i with
  | grantW n | commit n | release n | fgrant n | fcommit n | ftoCommit n | stageW n | finalizeW n =>
    exact matchesRow_operandOpcode (by simp [Instr.opcode, operandOpcodes]) n
  | fautoRelease b => exact ⟨(0xFFFFFFFE, 0x26000000), by decide, by cases b <;> decide⟩
  | _ => exact matchesRow_of_mem (by decide)

/-- Settles O3: a word that decodes is the word of a command, which matches a row, and each row decodes. -/
theorem legalWordsAreTheRows : Obligations.LegalWordsAreTheRows := by
  refine fun w => ⟨?_, MatchesRow.decodes⟩
  rintro ⟨i, h⟩
  exact (encodeOfDecode w i h).2 ▸ matchesRow_encode i

/-! ## A word of no row at its port (R99) -/

/-- A word of no row is answered at its port (R99). -/
theorem deliver_of_not_matchesRow {w : Word} (h : ¬ MatchesRow w) (s : State) :
    deliver w s = .done (.next (answer s (bare .illegalCmd))) := by
  rw [deliver]
  cases hd : decode w with
  | ok i => exact absurd ((legalWordsAreTheRows w).1 ⟨i, hd⟩) h
  | error e => rfl

/-- Settles O7: the word that can arrive is delivered, and no command is run for it. -/
theorem illegalWordAnswered : Obligations.IllegalWordAnswered := by
  intro s p w rest hs harrive hrow
  exact step_of_done ((fetch_of_canArrive hs harrive).trans (deliver_of_not_matchesRow hrow _))

end Sys2Proof.Machine
end

section
/-! PROOF. The response word (R96, R97). -/

namespace Sys2Proof.Machine

/-- Two bit fields, one above the other, as a number. -/
theorem append_toNat_add {m n : Nat} (x : BitVec m) (y : BitVec n) : (x ++ y).toNat = x.toNat * 2 ^ n + y.toNat := by
  rw [BitVec.toNat_append, ← Nat.shiftLeft_add_eq_or_of_lt y.isLt, Nat.shiftLeft_eq]

theorem statusCode_lt (st : Status) : statusCode st < 2 ^ 8 := by
  cases st <;> decide

/-- The response word as a number, of any pointer and length (R96). -/
theorem respWord_toNat (r : Resp) :
    (respWord r).toNat = statusCode r.status * 2 ^ 48 + r.ptr % 2 ^ 24 * 2 ^ 24 + r.len % 2 ^ 24 := by
  rw [respWord, append_toNat_add, append_toNat_add, append_toNat_add, BitVec.toNat_ofNat, BitVec.toNat_ofNat,
    BitVec.toNat_ofNat, BitVec.toNat_ofNat, Nat.mod_eq_of_lt (statusCode_lt r.status)]
  ring

/-- Settles O5: the fields are the parts that the word is put together from. -/
theorem responseWordLayout : Obligations.ResponseWordLayout := by
  refine ⟨by decide, fun r => ⟨?_, ?_, ?_, BitVec.extractLsb'_append_eq_right, fun hptr hlen => ?_⟩⟩
  · rw [respWord, BitVec.extractLsb'_append_eq_of_le (by decide), BitVec.extractLsb'_append_eq_of_le (by decide)]
    exact BitVec.extractLsb'_append_eq_left
  · rw [respWord, BitVec.extractLsb'_append_eq_of_le (by decide), BitVec.extractLsb'_append_eq_of_le (by decide)]
    exact BitVec.extractLsb'_append_eq_right
  · rw [respWord, BitVec.extractLsb'_append_eq_of_le (by decide)]
    exact BitVec.extractLsb'_append_eq_right
  · rw [respWord_toNat, Nat.mod_eq_of_lt hptr, Nat.mod_eq_of_lt hlen]

end Sys2Proof.Machine
end

section
/-! PROOF. The frame header: the round trip (R103 to R107) and the least size of a `VARINT` header (R104). -/

namespace Sys2Proof.Machine

/-- Settles O23: the length, the size and the value of an encoded header. -/
theorem headerRoundTrip : Obligations.HeaderRoundTrip :=
  fun _ _ _ hc => ⟨hdrEnc_length hc, hdrSizeOf_hdrEnc hc, hdrValue_hdrEnc hc⟩

/-- The sizes that carry the length are those from the `VARINT` header's size on (R104). -/
theorem hdrSize_varint_le_iff {m k : Nat} (hk : 1 ≤ k) : hdrSize .varint m ≤ k ↔ m < 2 ^ (7 * k) := by
  rw [hdrSize, varintHdrLen]
  rcases Nat.eq_zero_or_pos m with rfl | hm
  · exact iff_of_true hk (by positivity)
  · rw [← Nat.log2_lt (by omega)]
    omega

theorem hdrSize_varint_pos (m : Nat) : 1 ≤ hdrSize .varint m := Nat.le_add_left ..

/-- A row of the table: the lengths that `k` bytes do not carry and `k + 1` bytes do (R104). -/
theorem hdrSize_varint_eq {m k : Nat} (hk : 1 ≤ k) (lo : 2 ^ (7 * k) ≤ m) (hi : m < 2 ^ (7 * (k + 1))) :
    hdrSize .varint m = k + 1 := by
  have hle : hdrSize .varint m ≤ k + 1 := (hdrSize_varint_le_iff (by omega)).2 hi
  have hgt : ¬ hdrSize .varint m ≤ k := fun h => absurd ((hdrSize_varint_le_iff hk).1 h) (by omega)
  omega

/-- Settles O24: the rows and the general rule follow from which sizes carry the length. -/
theorem headerSizeTable : Obligations.HeaderSizeTable := by
  intro m
  refine ⟨fun h => ?_, hdrSize_varint_eq (k := 1) le_rfl, hdrSize_varint_eq (k := 2) (by decide),
    hdrSize_varint_eq (k := 3) (by decide), hdrSize_varint_pos m,
    (hdrSize_varint_le_iff (hdrSize_varint_pos m)).1 le_rfl, fun k hk => (hdrSize_varint_le_iff hk).2⟩
  exact le_antisymm ((hdrSize_varint_le_iff le_rfl).2 h) (hdrSize_varint_pos m)

end Sys2Proof.Machine
end

section
/-! PROOF. A command at a port whose row does not list it is answered `ILLEGAL_CMD` (R90, R167). -/

namespace Sys2Proof.Machine

/-! ## The table of ports (R90) -/

/-- At the port of a Pipe, the table lists the Pipe commands if the level has that Pipe. -/
theorem acceptedAt_pipePort (l : Level) (id : PipeId) (c : Ctx) (i : Instr) :
    acceptedAt l (.pipe id c) i = (hasPort l (.pipe id c) && isPipeCommand i) := by
  cases l <;> cases id <;> simp [acceptedAt, hasPort]

/-- The Pipe commands are those at home at the port of a Pipe. -/
theorem homeOf_kind_eq_pipe_iff (i : Instr) : (homeOf i).2 = .pipe ↔ isPipeCommand i = true := by
  cases i <;> simp [homeOf, isPipeCommand]

/-- A command that is no Pipe command is listed at one kind of port of one level. -/
theorem acceptedAt_home {i : Instr} (h : isPipeCommand i = false) (l : Level) (p : Port) :
    acceptedAt l p i = true ↔ l = (homeOf i).1 ∧ portKind p = (homeOf i).2 := by
  cases p with
  | pipe id c => simp [acceptedAt_pipePort, portKind, eq_comm (a := PortKind.pipe), homeOf_kind_eq_pipe_iff, h]
  | producer c | consumer c | dp => cases i <;> cases l <;> simp [acceptedAt, homeOf, portKind]

/-! ## Commands away from their ports -/

theorem onRing_elsewhere {l : Level} {k : PortKind} {s : State} (op : Ring → Except Fault (Ring × Resp))
    (h : ¬ (s.cfg.level = l ∧ portKind s.cur = k)) : onRing l k s op = .next (answer s (bare .illegalCmd)) := by
  rcases onRing_cases l k s op with ⟨-, e⟩ | ⟨hl, hk, -⟩
  · exact e
  · exact absurd ⟨hl, hk⟩ h

theorem onPipe_elsewhere {s : State} (op : PipeId → Ctx → Except Fault (State × Resp))
    (h : ∀ id c, s.cur = .pipe id c → hasPort s.cfg.level s.cur = false) :
    onPipe s op = .next (answer s (bare .illegalCmd)) := by
  rcases onPipe_cases s op with ⟨-, e⟩ | ⟨id, c, hcur, hport, -⟩
  · exact e
  · simp [h id c hcur] at hport

theorem onDp_elsewhere {s : State} (op : Except Fault State)
    (h : ¬ (s.cfg.level = .datapipes ∧ portKind s.cur = .dp)) : onDp s op = .next (answer s (bare .illegalCmd)) := by
  rcases onDp_cases s op with ⟨-, e⟩ | ⟨hl, hk, -⟩
  · exact e
  · exact absurd ⟨hl, by rw [hk]; rfl⟩ h

/-- Settles O8: each command is of one layer, which answers `ILLEGAL_CMD` away from the ports of the command's row. -/
theorem wrongPortAnswersIllegal : Obligations.WrongPortAnswersIllegal := by
  intro i s hno
  have hhome (hi : isPipeCommand i = false) : ¬ (s.cfg.level = (homeOf i).1 ∧ portKind s.cur = (homeOf i).2) := by
    rw [← acceptedAt_home hi, hno]
    exact Bool.false_ne_true
  have hpipe (hi : isPipeCommand i = true) (id : PipeId) (c : Ctx) (hcur : s.cur = .pipe id c) :
      hasPort s.cfg.level s.cur = false := by
    rw [hcur] at hno ⊢
    simpa [acceptedAt_pipePort, hi] using hno
  cases i with
  | grantW _ | commit _ | read | release _ | fgrant _ | fcommit _ | ftoCommit _ | fdropW | fread | frelease
  | fautoRelease _ | fdropR =>
    rw [onlyAnswers, exec]
    exact onRing_elsewhere _ (hhome rfl)
  | init | stageW _ | stageR | claimW | claimR | finalizeW _ | finalizeR | abortW | abortR | queryW | queryR =>
    rw [onlyAnswers, exec]
    exact onPipe_elsewhere _ (hpipe rfl)
  | dpInit | idleStep =>
    rw [onlyAnswers, exec]
    exact onDp_elsewhere _ (hhome rfl)

end Sys2Proof.Machine
end

section
/-! PROOF. The ring commands at their ports (R122, R126, R131, R134): each is its operation on the ring and its answer,
and the operation is what the rules say. -/

namespace Sys2Proof.Machine

/-! ## A command at a ring port (R90) -/

theorem AtProducer.portKind_cur {l : Level} {s : State} (h : AtProducer l s) : portKind s.cur = .producer := by
  obtain ⟨-, c, hc⟩ := h
  rw [hc]
  rfl

theorem AtConsumer.portKind_cur {l : Level} {s : State} (h : AtConsumer l s) : portKind s.cur = .consumer := by
  obtain ⟨-, c, hc⟩ := h
  rw [hc]
  rfl

/-- At its port a ring or framed command leaves the ring that its operation returns, and answers its response. -/
theorem onRing_at {l : Level} {k : PortKind} {s : State} {op : Ring → Except Fault (Ring × Resp)} {r : Ring} {a : Resp}
    (hl : s.cfg.level = l) (hk : portKind s.cur = k) (hop : op s.p0.ring = .ok (r, a)) :
    onRing l k s op = .next (ringNext s r a) := by
  rw [onRing, if_pos ⟨hl, hk⟩, hop]
  rfl

theorem AtProducer.exec_grantW {s : State} (h : AtProducer .ring s) (sz : Nat) :
    exec (.grantW sz) s =
      .next (ringNext s (ringGrantW s.cfg.n sz s.p0.ring).1 (ringGrantW s.cfg.n sz s.p0.ring).2) := by
  rw [exec]
  exact onRing_at h.1 h.portKind_cur rfl

theorem AtProducer.exec_commit {s : State} (h : AtProducer .ring s) (used : Nat) :
    exec (.commit used) s =
      .next (ringNext s (ringCommit s.cfg.n used s.p0.ring).1 (ringCommit s.cfg.n used s.p0.ring).2) := by
  rw [exec]
  exact onRing_at h.1 h.portKind_cur rfl

theorem AtConsumer.exec_read {s : State} (h : AtConsumer .ring s) :
    exec .read s = .next (ringNext s (ringRead s.p0.ring).1 (ringRead s.p0.ring).2) := by
  rw [exec]
  exact onRing_at h.1 h.portKind_cur rfl

theorem AtConsumer.exec_release {s : State} (h : AtConsumer .ring s) (used : Nat) :
    exec (.release used) s = .next (ringNext s (ringRelease used s.p0.ring).1 (ringRelease used s.p0.ring).2) := by
  rw [exec]
  exact onRing_at h.1 h.portKind_cur rfl

/-! ## `GRANT_W` (R122, R123) -/

/-- The operation finds the placement of the rule, and there is at most one. -/
theorem placeGrant_eq_some_iff {cap sz start : Nat} {r : Ring} :
    placeGrant cap sz r = some start ↔ Placed cap sz r start := by
  refine ⟨placeGrant_cases, ?_⟩
  rintro (⟨hlt, hfits, rfl⟩ | ⟨hle, hfits, rfl⟩ | ⟨hle, hfull, hfits, rfl⟩) <;> rw [placeGrant]
  · rw [if_pos hlt, if_pos hfits]
  · rw [if_neg (by omega), if_pos hfits]
  · rw [if_neg (by omega), if_neg (by omega), if_pos hfits]

theorem ringGrantW_of_wip {r : Ring} (hw : r.wip = true) (cap sz : Nat) :
    ringGrantW cap sz r = (r, bare .grantInProgress) := by
  rw [ringGrantW, if_pos hw]

theorem ringGrantW_of_placed {cap sz start : Nat} {r : Ring} (hw : r.wip = false) (hp : Placed cap sz r start) :
    ringGrantW cap sz r = (setWriteGrant start sz r, ⟨.ok, start, sz⟩) := by
  rw [ringGrantW, if_neg (by simp [hw]), placeGrant_eq_some_iff.2 hp]

theorem ringGrantW_of_not_placed {cap sz : Nat} {r : Ring} (hw : r.wip = false)
    (hno : ¬ ∃ start, Placed cap sz r start) : ringGrantW cap sz r = (r, bare .insufficientSize) := by
  have hnone : placeGrant cap sz r = none :=
    Option.eq_none_iff_forall_ne_some.2 fun start hp => hno ⟨start, placeGrant_eq_some_iff.1 hp⟩
  rw [ringGrantW, if_neg (by simp [hw]), hnone]

/-- Settles O14: the operation has one case for each status. -/
theorem grantWReserves : Obligations.GrantWReserves := by
  refine ⟨fun w hw => by rw [decode, hw]; rfl, fun s sz h => ⟨fun hw => ?_, fun hw hno => ?_, fun start hw hp => ?_⟩⟩
  · rw [onlyAnswers, h.exec_grantW, ringGrantW_of_wip hw]
    rfl
  · rw [onlyAnswers, h.exec_grantW, ringGrantW_of_not_placed hw hno]
    rfl
  · rw [h.exec_grantW, ringGrantW_of_placed hw hp]
    rfl

/-! ## `COMMIT` (R126, R129) -/

theorem ringCommit_of_not_wip {r : Ring} (hw : r.wip = false) (cap used : Nat) :
    ringCommit cap used r = (r, bare .badState) := by
  rw [ringCommit, hw]

theorem ringCommit_of_grant {r : Ring} {g : Grant} (hw : r.wip = true) (hg : r.wg = some g) (cap used : Nat) :
    ringCommit cap used r = (clearWriteGrant (advanceWrite cap g.start (min used g.len) r), bare .ok) := by
  rw [ringCommit, hw, hg]

theorem advanceWrite_zero (cap start : Nat) (r : Ring) : advanceWrite cap start 0 r = { r with reserve := r.write } :=
  rfl

/-- A commit of some bytes moves the cursor, the reservation and the marker (R126, R129). -/
theorem advanceWrite_of_ne_zero {u : Nat} (hu : u ≠ 0) (cap start : Nat) (r : Ring) :
    advanceWrite cap start u r =
      { r with write := start + u, reserve := start + u, last := lastAfter cap (start + u) r } := by
  rw [advanceWrite, if_neg hu]
  rfl

/-- Settles O15: no grant, nothing committed, or the cursors moved. -/
theorem commitPublishes : Obligations.CommitPublishes := by
  refine ⟨fun w hw => by rw [decode, hw]; rfl,
    fun s used h => ⟨fun hw => ?_, fun g hw hg hu => ?_, fun g hw hg hu => ?_⟩⟩
  · rw [onlyAnswers, h.exec_commit, ringCommit_of_not_wip hw]
    rfl
  · rw [h.exec_commit, ringCommit_of_grant hw hg, hu, advanceWrite_zero]
    rfl
  · rw [h.exec_commit, ringCommit_of_grant hw hg, advanceWrite_of_ne_zero hu]
    rfl

/-! ## `READ` (R131, R132) -/

/-- The wrap step moves the cursor to where the rule lets `READ` start. -/
theorem wrapRead_eq (r : Ring) : wrapRead r = { r with read := readFrom r } := by
  rcases wrapRead_cases r with ⟨hread, hlt, e⟩ | ⟨hno, e⟩ <;> rw [e, readFrom]
  · rw [if_pos ⟨hread, hlt⟩]
  · rw [if_neg hno]

/-- After the wrap step the operation finds as many bytes as the rule. -/
theorem readExtent_wrapRead (r : Ring) : readExtent (wrapRead r) = readLen r := by
  rw [wrapRead_eq]
  rfl

theorem ringRead_of_rip {r : Ring} (hr : r.rip = true) : ringRead r = (r, bare .grantInProgress) := by
  rw [ringRead, if_pos hr]

theorem ringRead_of_empty {r : Ring} (hr : r.rip = false) (h0 : readLen r = 0) :
    ringRead r = ({ r with read := readFrom r }, bare .empty) := by
  rw [ringRead, if_neg (by simp [hr])]
  simp only [readExtent_wrapRead, if_pos h0]
  rw [wrapRead_eq]

theorem ringRead_of_unread {r : Ring} (hr : r.rip = false) (hpos : readLen r ≠ 0) :
    ringRead r = (setReadGrant (readFrom r) (readLen r) { r with read := readFrom r },
      ⟨.ok, readFrom r, readLen r⟩) := by
  rw [ringRead, if_neg (by simp [hr])]
  simp only [readExtent_wrapRead, if_neg hpos]
  rw [wrapRead_eq]

/-- Settles O16: the operation has one case for each status. -/
theorem readGrantsUnread : Obligations.ReadGrantsUnread := by
  refine ⟨fun w hw => by rw [decode, hw]; rfl, fun s h => ⟨fun hr => ?_, fun hr h0 => ?_, fun hr hpos => ?_⟩⟩
  · rw [onlyAnswers, h.exec_read, ringRead_of_rip hr]
    rfl
  · rw [h.exec_read, ringRead_of_empty hr h0]
    rfl
  · rw [h.exec_read, ringRead_of_unread hr hpos]
    rfl

/-! ## `RELEASE` (R134) -/

theorem ringRelease_of_not_rip {r : Ring} (hr : r.rip = false) (used : Nat) :
    ringRelease used r = (r, bare .badState) := by
  rw [ringRelease, hr]

theorem ringRelease_of_grant {r : Ring} {g : Grant} (hr : r.rip = true) (hg : r.rg = some g) (used : Nat) :
    ringRelease used r = (clearReadGrant { r with read := r.read + min used g.len }, bare .ok) := by
  rw [ringRelease, hr, hg]

/-- Settles O17: no grant, or the cursor moved. -/
theorem releaseFrees : Obligations.ReleaseFrees := by
  refine ⟨fun w hw => by rw [decode, hw]; rfl, fun s used h => ⟨fun hr => ?_, fun g hr hg => ?_⟩⟩
  · rw [onlyAnswers, h.exec_release, ringRelease_of_not_rip hr]
    rfl
  · rw [h.exec_release, ringRelease_of_grant hr hg]
    rfl

end Sys2Proof.Machine
end

section
/-! PROOF. The free space of a ring (R123): when a write grant can be placed, that a granted region is free (R145), and
that no command leaves the ring stuck (R148). -/

namespace Sys2Proof.Machine

/-! ## When a write grant can be placed (R122, R123) -/

theorem exists_placed_iff {cap sz : Nat} {r : Ring} :
    (∃ start, Placed cap sz r start) ↔
      (r.write < r.read ∧ r.write + sz < r.read) ∨ (r.read ≤ r.write ∧ (r.write + sz ≤ cap ∨ sz < r.read)) := by
  constructor
  · rintro ⟨start, ⟨hlt, hfits, -⟩ | ⟨hle, hfits, -⟩ | ⟨hle, -, hfits, -⟩⟩
    · exact .inl ⟨hlt, hfits⟩
    · exact .inr ⟨hle, .inl hfits⟩
    · exact .inr ⟨hle, .inr hfits⟩
  · rintro (⟨hlt, hfits⟩ | ⟨hle, hfits⟩)
    · exact ⟨r.write, .inl ⟨hlt, hfits, rfl⟩⟩
    · rcases Nat.lt_or_ge cap (r.write + sz) with hfull | hroom
      · exact ⟨0, .inr (.inr ⟨hle, hfull, by omega, rfl⟩)⟩
      · exact ⟨r.write, .inr (.inl ⟨hle, hroom, rfl⟩)⟩

/-- In a legal ring the placements are those within the free contiguous space (R123). -/
theorem RingInv.exists_placed_iff_le_free {n sz : Nat} {r : Ring} (h : RingInv n r) :
    (∃ start, Placed n sz r start) ↔
      sz ≤ if r.write < r.read then r.read - r.write - 1 else max (n - r.write) (r.read - 1) := by
  have hcursors := h.cursors_le
  rw [exists_placed_iff]
  split <;> omega

/-- A placed grant keeps the ring legal, so its region is inside the storage and free (R63, R124). -/
theorem RingInv.setWriteGrant {n sz start : Nat} {r : Ring} (h : RingInv n r) (hw : r.wip = false)
    (hp : Placed n sz r start) : RingInv n (setWriteGrant start sz r) := by
  have hgrant := h.grantW sz
  rwa [ringGrantW_of_placed hw hp] at hgrant

/-- Settles O18: a placement exists exactly within the free space, and the ring with the grant is legal. -/
theorem grantsFitFreeSpace : Obligations.GrantsFitFreeSpace := by
  intro s sz h hport hw r free
  obtain ⟨-, hrefuse, hgrant⟩ := grantWReserves.2 s sz hport
  have hfits : (∃ start, Placed s.cfg.n sz r start) ↔ sz ≤ free := h.ring0.exists_placed_iff_le_free
  refine ⟨fun hlt => hrefuse hw (by rw [hfits]; omega), fun hle => ?_⟩
  obtain ⟨start, hp⟩ := hfits.2 hle
  have hlegal := h.ring0.setWriteGrant hw hp
  obtain ⟨-, -, -, hend⟩ := hlegal.cursors_le
  exact ⟨_, start, hgrant start hw hp, rfl, rfl, hend, fun off hoff hin => hlegal.grant_not_unread rfl rfl hin hoff⟩

/-! ## Progress (R148) -/

/-- A legal ring with no unread byte is not inverted, so its cursors meet (R42). -/
theorem RingInv.read_eq_write_of_empty {n : Nat} {r : Ring} (h : RingInv n r) (h0 : avail r = 0) :
    r.read = r.write := by
  have hinverted := h.inverted_ok
  rw [avail] at h0
  split at h0 <;> omega

/-- Where a placement exists, `GRANT_W` succeeds. -/
theorem AtProducer.exec_grantW_ok {s : State} {sz : Nat} (h : AtProducer .ring s) (hw : s.p0.ring.wip = false)
    (hfits : ∃ start, Placed s.cfg.n sz s.p0.ring start) :
    ∃ t ptr, exec (.grantW sz) s = .next t ∧ t.resp = some (s.cur, respWord ⟨.ok, ptr, sz⟩) ∧
      t.p0.ring.wip = true := by
  obtain ⟨start, hp⟩ := hfits
  obtain ⟨-, -, hgrant⟩ := grantWReserves.2 s sz h
  exact ⟨_, start, hgrant start hw hp, rfl, rfl⟩

/-- Where a byte is unread and no read grant is outstanding, `READ` succeeds. -/
theorem AtConsumer.exec_read_ok {n : Nat} {s : State} (h : AtConsumer .ring s) (hi : RingInv n s.p0.ring)
    (hr : s.p0.ring.rip = false) (hpos : 0 < avail s.p0.ring) :
    ∃ t ptr len, exec .read s = .next t ∧ t.resp = some (s.cur, respWord ⟨.ok, ptr, len⟩) ∧ t.p0.ring.rip = true := by
  have hlen : readLen s.p0.ring ≠ 0 := by
    have := readExtent_pos hi hpos
    rw [readExtent_wrapRead] at this
    omega
  obtain ⟨-, -, hread⟩ := readGrantsUnread.2 s h
  exact ⟨_, _, _, hread hr hlen, rfl, rfl⟩

/-- A run goes on from where its first command ends. -/
theorem runAt_cons {p : Port} {i : Instr} {s t : State} {rest : List (Port × Instr)}
    (e : exec i { s with cur := p } = .next t) : runAt ((p, i) :: rest) s = runAt rest t := by
  rw [runAt, e]

/-- After reset every size up to the capacity is placed at 0 (R261). -/
theorem placed_reset {n sz : Nat} (h : sz ≤ n) : Placed n sz (Ring.reset n) 0 :=
  .inr (.inl ⟨le_rfl, by rwa [Ring.reset, Nat.zero_add], rfl⟩)

/-- Settles O22: a legal ring without grants can be read from or is empty, and then its cursors meet. -/
theorem ringMakesProgress : Obligations.RingMakesProgress := by
  refine ⟨fun s h hl hw hr => ⟨fun c hc hpos => ?_, fun h0 => ?_⟩, fun cfg c sz hcfg hl hsz => ?_⟩
  · exact AtConsumer.exec_read_ok ⟨hl, c, hc⟩ h.ring0 hr hpos
  · have hmeet := h.ring0.read_eq_write_of_empty h0
    have hcursors := h.ring0.cursors_le
    refine ⟨hmeet, fun c sz hc => ?_⟩
    have hport : AtProducer .ring s := ⟨hl, c, hc⟩
    obtain ⟨-, hrefuse, -⟩ := grantWReserves.2 s sz hport
    refine ⟨fun hfits => ?_, fun hfull hlow => ?_, fun hhalf => ?_⟩
    · exact hport.exec_grantW_ok hw (exists_placed_iff.2 (.inr ⟨hmeet.le, hfits⟩))
    · exact hrefuse hw (by rw [exists_placed_iff]; omega)
    · exact hport.exec_grantW_ok hw (exists_placed_iff.2 (.inr ⟨hmeet.le, by omega⟩))
  · have hport : AtProducer .ring { State.resetOf cfg with cur := .producer c } := ⟨hl, c, rfl⟩
    obtain ⟨-, -, hgrant⟩ := grantWReserves.2 _ sz hport
    exact ⟨_, runAt_cons (hgrant 0 rfl (placed_reset hsz)), rfl⟩

end Sys2Proof.Machine
end

section
/-! PROOF. The unread bytes of a ring are a queue (R147): what each ring command does to the offsets of the unread bytes
(R24), and so to what they hold. -/

namespace Sys2Proof.Machine

/-! ## The offsets of the unread bytes (R24) -/

theorem unreadOffsets_of_inverted {r : Ring} (h : r.write < r.read) :
    unreadOffsets r = List.range' r.read (r.last - r.read) ++ List.range' 0 r.write := by
  rw [unreadOffsets, if_pos h]

theorem unreadOffsets_of_le {r : Ring} (h : r.read ≤ r.write) :
    unreadOffsets r = List.range' r.read (r.write - r.read) := by
  rw [unreadOffsets, if_neg (by omega)]

theorem length_unreadOffsets (r : Ring) : (unreadOffsets r).length = avail r := by
  rw [unreadOffsets, avail]
  split <;> simp

/-- `GRANT_W` moves no cursor. -/
theorem unreadOffsets_grantW (cap sz : Nat) (r : Ring) : unreadOffsets (ringGrantW cap sz r).1 = unreadOffsets r := by
  rcases ringGrantW_cases cap sz r with ⟨-, e⟩ | ⟨-, -, e⟩ | ⟨start, -, -, e⟩ <;> rw [e]
  rfl

/-- The wrap step leaves the exhausted upper data and finds all the unread bytes at the lower end (R132). -/
theorem unreadOffsets_wrapRead (r : Ring) : unreadOffsets (wrapRead r) = unreadOffsets r := by
  rcases wrapRead_cases r with ⟨hread, hlt, e⟩ | ⟨-, e⟩ <;> rw [e]
  rw [unreadOffsets_of_inverted hlt, unreadOffsets_of_le (Nat.zero_le _), hread]
  simp

/-- `READ` at most takes the wrap step. -/
theorem unreadOffsets_read (r : Ring) : unreadOffsets (ringRead r).1 = unreadOffsets r := by
  rcases ringRead_cases r with ⟨-, e⟩ | ⟨-, -, e⟩ | ⟨-, -, e⟩ <;> rw [e]
  · exact unreadOffsets_wrapRead r
  · exact unreadOffsets_wrapRead r

/-- A commit of `u` bytes puts their offsets behind the unread ones, wherever the grant stands (R126, R129). -/
theorem RingInv.unreadOffsets_advanceWrite {n u : Nat} {r : Ring} {g : Grant} (h : RingInv n r) (hw : r.wip = true)
    (hg : r.wg = some g) (hu : u ≤ g.len) :
    unreadOffsets (advanceWrite n g.start u r) = unreadOffsets r ++ List.range' g.start u := by
  obtain ⟨g', hg', hres, hplace⟩ := h.write_grant hw
  obtain rfl : g = g' := by simpa [hg] using hg'
  have hinverted := h.inverted_ok
  by_cases h0 : u = 0
  · rw [h0, List.range'_zero, List.append_nil]
    rfl
  rw [advanceWrite_of_ne_zero h0]
  by_cases hlt : r.write < r.read
  · -- inverted: behind the lower unread bytes
    have hstart : g.start = r.write := by omega
    have hlast : lastAfter n (g.start + u) r = r.last := by
      rw [lastAfter, if_neg (by omega), if_neg (by omega)]
    rw [unreadOffsets_of_inverted hlt, unreadOffsets_of_inverted (by simp only; omega), hlast, List.append_assoc,
      hstart, ← List.range'_append_1, Nat.zero_add]
  · rcases hplace with ⟨hstart, -⟩ | ⟨hstart, hle, hbelow⟩
    · -- behind the unread bytes
      have hle : r.read ≤ r.write := by omega
      rw [unreadOffsets_of_le hle, unreadOffsets_of_le (by simp only; omega), hstart]
      rw [Nat.sub_add_comm hle, ← List.range'_append_1, Nat.add_sub_cancel' hle]
    · -- the first ones at the lower end: the marker moves to the end of the upper data
      have hlast : lastAfter n (g.start + u) r = r.write := by rw [lastAfter, if_pos (by omega)]
      rw [unreadOffsets_of_le hle, unreadOffsets_of_inverted (by simp only; omega), hlast, hstart, Nat.zero_add]

/-- `COMMIT` puts the committed offsets of its grant behind the unread ones (R126). -/
theorem RingInv.unreadOffsets_commit {n : Nat} {r : Ring} {g : Grant} (h : RingInv n r) (hw : r.wip = true)
    (hg : r.wg = some g) (used : Nat) :
    unreadOffsets (ringCommit n used r).1 = unreadOffsets r ++ List.range' g.start (min used g.len) := by
  rw [ringCommit_of_grant hw hg]
  exact h.unreadOffsets_advanceWrite hw hg (Nat.min_le_right ..)

/-- `RELEASE` takes the offsets that it frees from the front of the unread ones (R134). -/
theorem RingInv.unreadOffsets_release {n : Nat} {r : Ring} {g : Grant} (h : RingInv n r) (hr : r.rip = true)
    (hg : r.rg = some g) (used : Nat) :
    unreadOffsets (ringRelease used r).1 = (unreadOffsets r).drop (min used g.len) := by
  obtain ⟨g', hg', hstart, -, hup, hlow⟩ := h.read_grant hr
  obtain rfl : g = g' := by simpa [hg] using hg'
  have hu : min used g.len ≤ g.len := Nat.min_le_right ..
  rw [ringRelease_of_grant hr hg]
  by_cases hlt : r.write < r.read
  · have hend := hup hlt
    rw [unreadOffsets_of_inverted hlt, List.drop_append_of_le_length (by rw [List.length_range']; omega),
      List.drop_range', Nat.mul_one, Nat.sub_sub]
    exact unreadOffsets_of_inverted (Nat.lt_add_right _ hlt)
  · have hle : r.read ≤ r.write := by omega
    have hend := hlow hle
    rw [unreadOffsets_of_le hle, List.drop_range', Nat.mul_one, Nat.sub_sub]
    exact unreadOffsets_of_le (by simp only [clearReadGrant_read, clearReadGrant_write]; omega)

/-! ## What the unread bytes hold (R24, R147) -/

theorem bytesAt_append (m : Memory) (offs offs' : List Nat) :
    bytesAt m (offs ++ offs') = bytesAt m offs ++ bytesAt m offs' :=
  List.map_append

theorem bytesAt_drop (m : Memory) (k : Nat) (offs : List Nat) : bytesAt m (offs.drop k) = (bytesAt m offs).drop k :=
  List.map_drop

/-- A command that stores no byte leaves each unread byte as it was. -/
theorem unreadBytes_of_keepsBytes {r r' : Ring} (h : KeepsBytes r r') :
    unreadBytes r' = bytesAt r.buf (unreadOffsets r') := by
  rw [unreadBytes, h]

/-- A command that stores no byte and leaves the offsets leaves the unread bytes. -/
theorem unreadBytes_of_same {r r' : Ring} (hm : KeepsBytes r r') (ho : unreadOffsets r' = unreadOffsets r) :
    unreadBytes r' = unreadBytes r := by
  rw [unreadBytes_of_keepsBytes hm, ho, unreadBytes]

theorem unreadBytes_grantW (cap sz : Nat) (r : Ring) : unreadBytes (ringGrantW cap sz r).1 = unreadBytes r :=
  unreadBytes_of_same (ringGrantW_keepsBytes cap sz r) (unreadOffsets_grantW cap sz r)

theorem unreadBytes_read (r : Ring) : unreadBytes (ringRead r).1 = unreadBytes r :=
  unreadBytes_of_same (ringRead_keepsBytes r) (unreadOffsets_read r)

theorem RingInv.unreadBytes_commit {n : Nat} {r : Ring} {g : Grant} (h : RingInv n r) (hw : r.wip = true)
    (hg : r.wg = some g) (used : Nat) :
    unreadBytes (ringCommit n used r).1 = unreadBytes r ++ bytesAt r.buf (List.range' g.start (min used g.len)) := by
  rw [unreadBytes_of_keepsBytes (ringCommit_keepsBytes n used r), h.unreadOffsets_commit hw hg, bytesAt_append,
    unreadBytes]

theorem RingInv.unreadBytes_release {n : Nat} {r : Ring} {g : Grant} (h : RingInv n r) (hr : r.rip = true)
    (hg : r.rg = some g) (used : Nat) :
    unreadBytes (ringRelease used r).1 = (unreadBytes r).drop (min used g.len) := by
  rw [unreadBytes_of_keepsBytes (ringRelease_keepsBytes used r), h.unreadOffsets_release hr hg, bytesAt_drop,
    unreadBytes]

/-- A ring command whose operation leaves the unread bytes leaves them at every port: elsewhere it does nothing. -/
theorem onRing_unreadBytes {k : PortKind} {s t : State} {op : Ring → Ring × Resp}
    (e : onRing .ring k s (fun r => .ok (op r)) = .next t)
    (hop : unreadBytes (op s.p0.ring).1 = unreadBytes s.p0.ring) : unreadBytes t.p0.ring = unreadBytes s.p0.ring :=
  onRing_rings (R := fun r r' => unreadBytes r' = unreadBytes r) (fun _ => rfl) e
    (fun _ _ _ h => fst_of_ok h ▸ hop) .p0

/-- Settles O21: the commands store no byte, and the offsets of the unread bytes are a queue. -/
theorem unreadBytesAreAQueue : Obligations.UnreadBytesAreAQueue := by
  intro s t h hl
  refine ⟨fun c used g hc hw hg e => ?_, fun c used g hc hr hg e => ?_, fun sz e => ?_, fun e => ?_⟩
  · rw [AtProducer.exec_commit ⟨hl, c, hc⟩] at e
    cases e
    exact h.ring0.unreadBytes_commit hw hg used
  · rw [AtConsumer.exec_release ⟨hl, c, hc⟩] at e
    cases e
    exact h.ring0.unreadBytes_release hr hg used
  · rw [exec] at e
    exact onRing_unreadBytes e (unreadBytes_grantW ..)
  · rw [exec] at e
    exact onRing_unreadBytes e (unreadBytes_read _)

end Sys2Proof.Machine
end

section
/-! PROOF. Dropped grants (R146): a write grant dropped with `COMMIT 0` leaves the ring as it was (R128, R136), a read
grant dropped with `RELEASE 0` leaves what the wrap step left, and the next `READ` finds the same (R137). -/

namespace Sys2Proof.Machine

/-- A dropped write grant, wrapped or not, leaves nothing behind; so does a request that failed (R128, R136). -/
theorem RingInv.commit_zero_grantW {n : Nat} {r : Ring} (h : RingInv n r) (hw : r.wip = false) (sz : Nat) :
    (ringCommit n 0 (ringGrantW n sz r).1).1 = r := by
  obtain ⟨hwg, hreserve⟩ := h.no_write_grant hw
  rcases ringGrantW_cases n sz r with ⟨hbusy, -⟩ | ⟨-, -, e⟩ | ⟨start, -, -, e⟩
  · simp [hw] at hbusy
  · rw [e, ringCommit_of_not_wip hw]
  · rw [e, ringCommit_of_grant rfl rfl, Nat.zero_min, advanceWrite_zero]
    show { r with wip := false, wg := none, reserve := r.write } = r
    cases r
    simp_all

theorem unreadBytes_wrapRead (r : Ring) : unreadBytes (wrapRead r) = unreadBytes r :=
  unreadBytes_of_same (wrapRead_buf r) (unreadOffsets_wrapRead r)

/-- The wrap step is taken once (R132). -/
theorem wrapRead_wrapRead (r : Ring) : wrapRead (wrapRead r) = wrapRead r := by
  rcases wrapRead_cases r with ⟨-, -, e⟩ | ⟨-, e⟩
  · rw [e, wrapRead, if_neg (by simp)]
  · rw [e, e]

/-- After the wrap step `READ` does and answers what it would have before (R131). -/
theorem ringRead_wrapRead {r : Ring} (hr : r.rip = false) : ringRead (wrapRead r) = ringRead r := by
  have hr' : (wrapRead r).rip = false := (wrapRead_sameReader r).rip.trans hr
  rw [ringRead, ringRead, hr', hr, wrapRead_wrapRead]
  rfl

/-- A dropped read grant leaves the ring as the wrap step left it (R137). -/
theorem RingInv.release_zero_read {n : Nat} {r : Ring} (h : RingInv n r) (hr : r.rip = false) :
    (ringRelease 0 (ringRead r).1).1 = wrapRead r := by
  have hsame := wrapRead_sameReader r
  rcases ringRead_cases r with ⟨hbusy, -⟩ | ⟨-, -, e⟩ | ⟨-, -, e⟩
  · simp [hr] at hbusy
  · rw [e, ringRelease_of_not_rip (by rw [hsame.rip, hr])]
  · rw [e, ringRelease_of_grant rfl rfl, Nat.zero_min]
    show { wrapRead r with rip := false, rg := none } = wrapRead r
    rw [← hr, ← h.no_read_grant hr, ← hsame.rip, ← hsame.rg]

/-! ## Runs of ring commands (R12, R90) -/

@[simp] theorem ringNext_cfg (s : State) (r : Ring) (a : Resp) : (ringNext s r a).cfg = s.cfg := rfl
@[simp] theorem ringNext_p0 (s : State) (r : Ring) (a : Resp) : (ringNext s r a).p0 = { s.p0 with ring := r } := rfl
@[simp] theorem ringNext_resp (s : State) (r : Ring) (a : Resp) :
    (ringNext s r a).resp = some (s.cur, respWord a) := rfl

theorem runAt_grantW {s : State} (hl : s.cfg.level = .ring) (c : Ctx) (sz : Nat) (rest : List (Port × Instr)) :
    runAt ((.producer c, .grantW sz) :: rest) s = runAt rest (ringNext { s with cur := .producer c }
      (ringGrantW s.cfg.n sz s.p0.ring).1 (ringGrantW s.cfg.n sz s.p0.ring).2) :=
  runAt_cons (AtProducer.exec_grantW (s := { s with cur := .producer c }) ⟨hl, c, rfl⟩ sz)

theorem runAt_commit {s : State} (hl : s.cfg.level = .ring) (c : Ctx) (used : Nat) (rest : List (Port × Instr)) :
    runAt ((.producer c, .commit used) :: rest) s = runAt rest (ringNext { s with cur := .producer c }
      (ringCommit s.cfg.n used s.p0.ring).1 (ringCommit s.cfg.n used s.p0.ring).2) :=
  runAt_cons (AtProducer.exec_commit (s := { s with cur := .producer c }) ⟨hl, c, rfl⟩ used)

theorem runAt_read {s : State} (hl : s.cfg.level = .ring) (c : Ctx) (rest : List (Port × Instr)) :
    runAt ((.consumer c, .read) :: rest) s = runAt rest (ringNext { s with cur := .consumer c }
      (ringRead s.p0.ring).1 (ringRead s.p0.ring).2) :=
  runAt_cons (AtConsumer.exec_read (s := { s with cur := .consumer c }) ⟨hl, c, rfl⟩)

theorem runAt_release {s : State} (hl : s.cfg.level = .ring) (c : Ctx) (used : Nat) (rest : List (Port × Instr)) :
    runAt ((.consumer c, .release used) :: rest) s = runAt rest (ringNext { s with cur := .consumer c }
      (ringRelease used s.p0.ring).1 (ringRelease used s.p0.ring).2) :=
  runAt_cons (AtConsumer.exec_release (s := { s with cur := .consumer c }) ⟨hl, c, rfl⟩ used)

/-- Settles O19: a dropped grant gives the ring back, up to the wrap step, which keeps the unread bytes. -/
theorem droppedGrantsLeaveNoTrace : Obligations.DroppedGrantsLeaveNoTrace := by
  intro s c h hl
  refine ⟨fun sz hw => ?_, fun hr hpos => ?_⟩
  · refine ⟨_, (runAt_grantW hl c sz _).trans (runAt_commit ?_ c 0 _), ?_⟩
    · exact hl
    · simp only [ringNext_p0, ringNext_cfg, h.ring0.commit_zero_grantW hw]
  · have hlen : 1 ≤ readLen s.p0.ring := readExtent_wrapRead s.p0.ring ▸ readExtent_pos h.ring0 hpos
    have hread := ringRead_of_unread hr (by omega)
    have hdropped := h.ring0.release_zero_read hr
    have hagain : ringRead (ringRelease 0 (ringRead s.p0.ring).1).1 = ringRead s.p0.ring := by
      rw [hdropped, ringRead_wrapRead hr]
    refine ⟨_, _, _, readFrom s.p0.ring, readLen s.p0.ring, runAt_read hl c _, ?_, hlen, runAt_release ?_ c 0 _, ?_,
      runAt_read ?_ c _, ?_, ?_⟩
    · simp only [ringNext_resp, hread]
    · exact hl
    · simp only [ringNext_p0, hdropped, unreadBytes_wrapRead]
    · exact hl
    · simp only [ringNext_p0, ringNext_resp, hagain]
    · simp only [ringNext_p0, hagain]

end Sys2Proof.Machine
end

section
/-! PROOF. In a legal state every command answers (R121, R235): the operations that can fault, those that store or
decode a header, meet no fault in a legal ring. -/

namespace Sys2Proof.Machine

/-! ## The framed ring (R155, R159, R160) -/

theorem LegalFramed.commit_answers {cfg : Config} {r : Ring} (h : LegalFramed cfg r) (used : Nat) :
    ∃ x, frameCommit cfg used r = .ok x := by
  cases hw : r.wip with
  | false => exact ⟨_, by rw [frameCommit, hw]⟩
  | true =>
    obtain ⟨g, f, p, -, -, -, -, -, -, e⟩ := h.frameCommit_eq used hw
    exact ⟨_, e⟩

theorem LegalFramed.dropW_answers {cfg : Config} {r : Ring} (h : LegalFramed cfg r) :
    ∃ x, frameDropW cfg r = .ok x := by
  rcases frameDropW_cases cfg r with ⟨-, e⟩ | ⟨f, -, -, -, e⟩ | ⟨f, -, -, -, e⟩
  · exact ⟨_, e⟩
  · exact ⟨_, e⟩
  · rw [e]
    exact h.commit_answers f.toCommit

theorem LegalFramed.read_answers {cfg : Config} {r : Ring} (h : LegalFramed cfg r) (free : Nat → Byte) :
    ∃ x, frameRead cfg free r = .ok x := by
  rcases h.frameRead_eq free with ⟨st, -, e⟩ | ⟨st, -, -, e⟩ | ⟨hl, p, -, -, -, -, e⟩ <;> exact ⟨_, e⟩

/-! ## The Pipe (R187, R192, R196) -/

theorem LegalPipe.stageR_answers {cfg : Config} {p : Pipe} (h : LegalPipe cfg p) (free : Nat → Byte) :
    ∃ x, pipeStageR cfg free p = .ok x := by
  obtain ⟨x, hx⟩ := h.ring.read_answers free
  rcases pipeStageR_cases cfg free p with ⟨-, e⟩ | ⟨-, -, e⟩ | ⟨f, -, -, hf, -⟩ | ⟨r, a, -, -, -, -, e⟩ |
      ⟨r, a, -, -, -, -, e⟩
  case inr.inr.inl => simp [hx] at hf
  all_goals exact ⟨_, e⟩

theorem LegalPipe.finalizeW_answers {cfg : Config} {p : Pipe} (h : LegalPipe cfg p) (n : Nat) :
    ∃ x, pipeFinalizeW cfg n p = .ok x := by
  obtain ⟨x, hx⟩ := h.ring.commit_answers n
  rcases pipeFinalizeW_cases cfg n p with ⟨-, e⟩ | ⟨-, -, e⟩ | ⟨f, -, -, hf, -⟩ | ⟨r, a, -, -, -, e⟩
  case inr.inr.inl => simp [hx] at hf
  all_goals exact ⟨_, e⟩

theorem LegalPipe.abortW_answers {cfg : Config} {p : Pipe} (h : LegalPipe cfg p) : ∃ x, pipeAbortW cfg p = .ok x := by
  obtain ⟨x, hx⟩ := (h.ring.toCommit 0).dropW_answers
  rcases pipeAbortW_cases cfg p with ⟨-, e⟩ | ⟨-, -, e⟩ | ⟨f, -, -, hf, -⟩ | ⟨r, a, -, -, -, e⟩
  case inr.inr.inl => simp [hx] at hf
  all_goals exact ⟨_, e⟩

/-- `STAGE_R` with its event meets no fault on a legal Pipe (R187, R224). -/
theorem StateInv.stageROn_answers {s : State} (h : StateInv s) (hl : levelHasPipes s.cfg.level = true) (id : PipeId) :
    ∃ x, Machine.stageROn id s = .ok x := by
  obtain ⟨x, hx⟩ := (h.legalPipe id hl).stageR_answers (Config.freeByte id)
  rcases stageROn_cases id s with ⟨f, hf, -⟩ | ⟨p, a, -, -, e⟩ | ⟨p, a, -, -, e⟩
  · simp [hx] at hf
  · exact ⟨_, e⟩
  · exact ⟨_, e⟩

/-! ## Commands at their ports (R90) -/

/-- A ring or framed command answers if its operation meets no fault at the level that runs it. -/
theorem onRing_answers {l : Level} {k : PortKind} {s : State} {op : Ring → Except Fault (Ring × Resp)}
    (hop : s.cfg.level = l → ∃ x, op s.p0.ring = .ok x) : ∃ t, onRing l k s op = .next t := by
  rcases onRing_cases l k s op with ⟨-, e⟩ | ⟨hl, -, ⟨r, a, -, e⟩ | ⟨f, hf, -⟩⟩
  · exact ⟨_, e⟩
  · exact ⟨_, e⟩
  · obtain ⟨x, hx⟩ := hop hl
    simp [hx] at hf

/-- A Pipe command answers if its operation meets no fault at a level with Pipes. -/
theorem onPipe_answers {s : State} {op : PipeId → Ctx → Except Fault (State × Resp)}
    (hop : levelHasPipes s.cfg.level = true → ∀ id c, ∃ x, op id c = .ok x) : ∃ t, onPipe s op = .next t := by
  rcases onPipe_cases s op with ⟨-, e⟩ | ⟨id, c, hcur, hport, ⟨u, a, -, e⟩ | ⟨f, hf, -⟩⟩
  · exact ⟨_, e⟩
  · exact ⟨_, e⟩
  · rw [hcur] at hport
    obtain ⟨x, hx⟩ := hop (hasPort_pipe hport) id c
    simp [hx] at hf

/-- The same for an operation on the Pipe of the port alone. -/
theorem onPipe_pipe_answers {s : State} {op : PipeId → Ctx → Except Fault (Pipe × Resp)}
    (hop : levelHasPipes s.cfg.level = true → ∀ id c, ∃ x, op id c = .ok x) :
    ∃ t, onPipe s (fun id c => onThisPipe? s id (op id c)) = .next t := by
  refine onPipe_answers fun hl id c => ?_
  obtain ⟨x, hx⟩ := hop hl id c
  exact ⟨onThisPipe s id x, by rw [hx]; rfl⟩

/-- A DataPipes command answers if its operation meets no fault. -/
theorem onDp_answers {s : State} {op : Except Fault State} (hop : ∃ u, op = .ok u) : ∃ t, onDp s op = .next t := by
  obtain ⟨u, rfl⟩ := hop
  rcases onDp_cases s (.ok u) with ⟨-, e⟩ | ⟨-, -, ⟨t, -, e⟩ | ⟨f, hf, -⟩⟩
  · exact ⟨_, e⟩
  · exact ⟨_, e⟩
  · cases hf

/-- Settles O59: at its port each command answers what its operation does, and elsewhere `ILLEGAL_CMD`. -/
theorem everyCommandAnswers : Obligations.EveryCommandAnswers := by
  intro s i h
  have hframed (hl : s.cfg.level = .framed) : LegalFramed s.cfg s.p0.ring := ⟨h.ring0, h.framed0 (by simp [hl])⟩
  cases i with rw [exec]
  | grantW | commit | read | release | fgrant | ftoCommit | frelease | fautoRelease | fdropR =>
    exact onRing_answers fun _ => ⟨_, rfl⟩
  | fcommit used => exact onRing_answers fun hl => (hframed hl).commit_answers used
  | fdropW => exact onRing_answers fun hl => (hframed hl).dropW_answers
  | fread => exact onRing_answers fun hl => (hframed hl).read_answers _
  | init | stageW | claimW | claimR | finalizeR | abortR | queryW | queryR =>
    exact onPipe_answers fun _ _ _ => ⟨_, rfl⟩
  | stageR => exact onPipe_answers fun hl id _ => h.stageROn_answers hl id
  | finalizeW n => exact onPipe_pipe_answers fun hl id _ => (h.legalPipe id hl).finalizeW_answers n
  | abortW => exact onPipe_pipe_answers fun hl id _ => (h.legalPipe id hl).abortW_answers
  | dpInit => exact onDp_answers ⟨_, rfl⟩
  | idleStep =>
    refine onDp_answers ?_
    split
    · exact ⟨_, rfl⟩
    · exact ⟨_, rfl⟩

end Sys2Proof.Machine
end

section
/-! PROOF. Every run of ring commands from reset completes and conserves bytes (R144): each command keeps the number of
unread bytes equal to what was committed less what was released. -/

namespace Sys2Proof.Machine

/-! ## The number of unread bytes (R24) -/

theorem avail_of_unreadOffsets {r r' : Ring} (h : unreadOffsets r' = unreadOffsets r) : avail r' = avail r := by
  rw [← length_unreadOffsets, h, length_unreadOffsets]

theorem committedBy_of_grant {r : Ring} {g : Grant} (hw : r.wip = true) (hg : r.wg = some g) (used : Nat) :
    committedBy (.commit used) r = min used g.len := by
  simp [committedBy, hw, hg]

theorem committedBy_of_no_grant {r : Ring} (h : r.wip = false ∨ r.wg = none) (i : Instr) : committedBy i r = 0 := by
  rcases h with hw | hg
  · simp [committedBy, hw]
  · simp [committedBy, hg]

theorem releasedBy_of_grant {r : Ring} {g : Grant} (hr : r.rip = true) (hg : r.rg = some g) (used : Nat) :
    releasedBy (.release used) r = min used g.len := by
  simp [releasedBy, hr, hg]

theorem releasedBy_of_no_grant {r : Ring} (h : r.rip = false ∨ r.rg = none) (i : Instr) : releasedBy i r = 0 := by
  rcases h with hr | hg
  · simp [releasedBy, hr]
  · simp [releasedBy, hg]

/-- `COMMIT` makes as many bytes available as it commits, none without a grant (R126). -/
theorem RingInv.avail_commit {n : Nat} {r : Ring} (h : RingInv n r) (used : Nat) :
    avail (ringCommit n used r).1 = avail r + committedBy (.commit used) r := by
  rcases ringCommit_cases n used r with ⟨g, hw, hg, -⟩ | ⟨hno, e⟩
  · rw [← length_unreadOffsets, h.unreadOffsets_commit hw hg, List.length_append, List.length_range',
      length_unreadOffsets, committedBy_of_grant hw hg]
  · rw [e, committedBy_of_no_grant hno, Nat.add_zero]

/-- The bytes of an outstanding read grant are unread (R42). -/
theorem RingInv.grant_le_avail {n : Nat} {r : Ring} {g : Grant} (h : RingInv n r) (hr : r.rip = true)
    (hg : r.rg = some g) : g.len ≤ avail r := by
  obtain ⟨g', hg', hstart, -, hup, hlow⟩ := h.read_grant hr
  obtain rfl : g = g' := by simpa [hg] using hg'
  rw [avail]
  split <;> omega

/-- `RELEASE` takes away as many available bytes as it releases, none without a grant (R134). -/
theorem RingInv.avail_release {n : Nat} {r : Ring} (h : RingInv n r) (used : Nat) :
    avail (ringRelease used r).1 + releasedBy (.release used) r = avail r := by
  rcases ringRelease_cases used r with ⟨g, hr, hg, -⟩ | ⟨hno, e⟩
  · have hlen := h.grant_le_avail hr hg
    rw [← length_unreadOffsets, h.unreadOffsets_release hr hg, List.length_drop, length_unreadOffsets,
      releasedBy_of_grant hr hg]
    omega
  · rw [e, releasedBy_of_no_grant hno, Nat.add_zero]

/-! ## One command (R90, R144) -/

/-- The commands that act on a raw ring, and their ports (R90). -/
theorem rawAt_iff {p : Port} {i : Instr} : rawAt p i = true ↔
    (∃ c, p = .producer c ∧ ((∃ sz, i = .grantW sz) ∨ ∃ used, i = .commit used)) ∨
    (∃ c, p = .consumer c ∧ (i = .read ∨ ∃ used, i = .release used)) := by
  cases p with
  | producer c => cases i <;> simp [rawAt, acceptedAt]
  | consumer c => cases i <;> simp [rawAt, acceptedAt]
  | pipe | dp => simp [rawAt, acceptedAt]

/-- A command at its port conserves bytes (R144). -/
theorem StateInv.exec_conserves {i : Instr} {s t : State} (h : StateInv s) (hl : s.cfg.level = .ring)
    (hraw : rawAt s.cur i = true) (e : Machine.exec i s = .next t) :
    avail t.p0.ring + releasedBy i s.p0.ring = avail s.p0.ring + committedBy i s.p0.ring := by
  rcases rawAt_iff.1 hraw with ⟨c, hc, ⟨sz, rfl⟩ | ⟨used, rfl⟩⟩ | ⟨c, hc, rfl | ⟨used, rfl⟩⟩
  · rw [AtProducer.exec_grantW ⟨hl, c, hc⟩] at e
    cases e
    exact avail_of_unreadOffsets (unreadOffsets_grantW ..)
  · rw [AtProducer.exec_commit ⟨hl, c, hc⟩] at e
    cases e
    exact h.ring0.avail_commit used
  · rw [AtConsumer.exec_read ⟨hl, c, hc⟩] at e
    cases e
    exact avail_of_unreadOffsets (unreadOffsets_read _)
  · rw [AtConsumer.exec_release ⟨hl, c, hc⟩] at e
    cases e
    exact h.ring0.avail_release used

/-- Any other command only answers `ILLEGAL_CMD` in a raw ring (R90). -/
theorem exec_p0_of_not_rawAt {i : Instr} {s t : State} (hl : s.cfg.level = .ring) (hraw : rawAt s.cur i = false)
    (e : exec i s = .next t) : t.p0 = s.p0 := by
  have hanswer := wrongPortAnswersIllegal i s (by rwa [hl])
  rw [onlyAnswers, e] at hanswer
  cases hanswer
  rfl

/-! ## Runs -/

/-- From a legal state in which bytes are conserved, a run completes and conserves them. -/
theorem StateInv.runCounting_conserves (cmds : List (Port × Instr)) {s : State} {c d : Nat} (h : StateInv s)
    (hl : s.cfg.level = .ring) (hsum : avail s.p0.ring + d = c) :
    ∃ t committed released, runCounting cmds s c d = some (t, committed, released) ∧
      avail t.p0.ring + released = committed := by
  induction cmds generalizing s c d with
  | nil => exact ⟨s, c, d, rfl, hsum⟩
  | cons cmd rest ih =>
    obtain ⟨p, i⟩ := cmd
    have hport : StateInv { s with cur := p } := h.of_same ⟨rfl, rfl, rfl, rfl⟩
    obtain ⟨t, e⟩ := everyCommandAnswers _ i hport
    have hlegal := hport.exec e
    have hlevel : t.cfg.level = .ring := by rw [exec_cfg e]; exact hl
    cases hraw : rawAt p i with
    | true =>
      have hconserved := hport.exec_conserves hl hraw e
      obtain ⟨u, c', d', hrun, hsum'⟩ := ih hlegal hlevel
        (c := c + committedBy i s.p0.ring) (d := d + releasedBy i s.p0.ring) (by simp only at hconserved; omega)
      exact ⟨u, c', d', by simpa only [runCounting, e, hraw, if_true] using hrun, hsum'⟩
    | false =>
      have hsame := exec_p0_of_not_rawAt (s := { s with cur := p }) hl hraw e
      obtain ⟨u, c', d', hrun, hsum'⟩ := ih hlegal hlevel (c := c) (d := d) (by rw [hsame]; exact hsum)
      exact ⟨u, c', d', by simpa [runCounting, e, hraw] using hrun, hsum'⟩

/-- Settles O20: the ring of reset is empty, and every command conserves bytes. -/
theorem ringConservation : Obligations.RingConservation :=
  fun _ cmds hcfg hl => (stateInv_resetOf hcfg).runCounting_conserves cmds hl rfl

end Sys2Proof.Machine
end

section
/-! PROOF. The framed commands at their ports (R152 to R166): each is its operation on the framed ring and its answer,
and the operation is what the rules say. -/

namespace Sys2Proof.Machine

/-! ## A framed command at its port (R90) -/

/-- At its port a ring or framed command faults as its operation does. -/
theorem onRing_at_fault {l : Level} {k : PortKind} {s : State} {op : Ring → Except Fault (Ring × Resp)} {e : Fault}
    (hl : s.cfg.level = l) (hk : portKind s.cur = k) (hop : op s.p0.ring = .error e) : onRing l k s op = .fault e := by
  rw [onRing, if_pos ⟨hl, hk⟩, hop]

/-- At its port a ring or framed command does the same for two rings for which its operation does the same. -/
theorem onRing_at_congr {l : Level} {k : PortKind} {s : State} {r : Ring} {op : Ring → Except Fault (Ring × Resp)}
    (hl : s.cfg.level = l) (hk : portKind s.cur = k) (hop : op r = op s.p0.ring) :
    onRing l k { s with p0 := { s.p0 with ring := r } } op = onRing l k s op := by
  rw [onRing, onRing, if_pos ⟨hl, hk⟩, if_pos ⟨hl, hk⟩, hop]

theorem AtProducer.exec_fgrant {s : State} {r : Ring} {a : Resp} {maxSz : Nat} (h : AtProducer .framed s)
    (e : frameGrant s.cfg maxSz s.p0.ring = (r, a)) : exec (.fgrant maxSz) s = .next (ringNext s r a) := by
  rw [exec]
  exact onRing_at h.1 h.portKind_cur (congrArg Except.ok e)

theorem AtProducer.exec_fcommit {s : State} {r : Ring} {a : Resp} {used : Nat} (h : AtProducer .framed s)
    (e : frameCommit s.cfg used s.p0.ring = .ok (r, a)) : exec (.fcommit used) s = .next (ringNext s r a) := by
  rw [exec]
  exact onRing_at h.1 h.portKind_cur e

theorem AtProducer.exec_ftoCommit {s : State} {r : Ring} {a : Resp} {amt : Nat} (h : AtProducer .framed s)
    (e : frameToCommit amt s.p0.ring = (r, a)) : exec (.ftoCommit amt) s = .next (ringNext s r a) := by
  rw [exec]
  exact onRing_at h.1 h.portKind_cur (congrArg Except.ok e)

theorem AtProducer.exec_fdropW {s : State} {r : Ring} {a : Resp} (h : AtProducer .framed s)
    (e : frameDropW s.cfg s.p0.ring = .ok (r, a)) : exec .fdropW s = .next (ringNext s r a) := by
  rw [exec]
  exact onRing_at h.1 h.portKind_cur e

theorem AtConsumer.exec_fread {s : State} {r : Ring} {a : Resp} (h : AtConsumer .framed s)
    (e : frameRead s.cfg (Config.freeByte .p0) s.p0.ring = .ok (r, a)) : exec .fread s = .next (ringNext s r a) := by
  rw [exec]
  exact onRing_at h.1 h.portKind_cur e

theorem AtConsumer.exec_fread_fault {s : State} {f : Fault} (h : AtConsumer .framed s)
    (e : frameRead s.cfg (Config.freeByte .p0) s.p0.ring = .error f) : exec .fread s = .fault f := by
  rw [exec]
  exact onRing_at_fault h.1 h.portKind_cur e

theorem AtConsumer.exec_frelease {s : State} {r : Ring} {a : Resp} (h : AtConsumer .framed s)
    (e : frameRelease s.p0.ring = (r, a)) : exec .frelease s = .next (ringNext s r a) := by
  rw [exec]
  exact onRing_at h.1 h.portKind_cur (congrArg Except.ok e)

theorem AtConsumer.exec_fautoRelease {s : State} {r : Ring} {a : Resp} {b : Bool} (h : AtConsumer .framed s)
    (e : frameAutoRelease b s.p0.ring = (r, a)) : exec (.fautoRelease b) s = .next (ringNext s r a) := by
  rw [exec]
  exact onRing_at h.1 h.portKind_cur (congrArg Except.ok e)

theorem AtConsumer.exec_fdropR {s : State} {r : Ring} {a : Resp} (h : AtConsumer .framed s)
    (e : frameDropR s.p0.ring = (r, a)) : exec .fdropR s = .next (ringNext s r a) := by
  rw [exec]
  exact onRing_at h.1 h.portKind_cur (congrArg Except.ok e)

/-! ## `FGRANT` (R151 to R154) -/

/-- `FIXED2` has a range, `VARINT` has none (R103, R153). -/
theorem hdrInRange_iff {mode : HdrMode} {m : Nat} : hdrInRange mode m = true ↔ mode = .varint ∨ m ≤ 65535 := by
  cases mode <;> simp [hdrInRange]

theorem frameGrant_of_not_inRange {cfg : Config} {maxSz : Nat} (hr : hdrInRange cfg.hdrMode maxSz = false) (r : Ring) :
    frameGrant cfg maxSz r = (r, bare .insufficientSize) := by
  rw [frameGrant, if_neg (by simp [hr])]

theorem frameGrant_of_wip {cfg : Config} {maxSz : Nat} {r : Ring} (hr : hdrInRange cfg.hdrMode maxSz = true)
    (hw : r.wip = true) : frameGrant cfg maxSz r = (r, bare .grantInProgress) := by
  simp [frameGrant, hr, ringGrantW_of_wip hw]

theorem frameGrant_of_not_placed {cfg : Config} {maxSz : Nat} {r : Ring} (hr : hdrInRange cfg.hdrMode maxSz = true)
    (hw : r.wip = false) (hno : ¬ ∃ start, Placed cfg.n (maxSz + hdrSize cfg.hdrMode maxSz) r start) :
    frameGrant cfg maxSz r = (r, bare .insufficientSize) := by
  simp [frameGrant, hr, ringGrantW_of_not_placed hw hno]

/-- The ring with a framed write grant of `maxSz` payload bytes at `start` (R152). -/
def frameGranted (cfg : Config) (maxSz start : Nat) (r : Ring) : Ring :=
  { setWriteGrant start (maxSz + hdrSize cfg.hdrMode maxSz) r with fw := some ⟨hdrSize cfg.hdrMode maxSz, 0⟩ }

theorem frameGrant_of_placed {cfg : Config} {maxSz start : Nat} {r : Ring} (hr : hdrInRange cfg.hdrMode maxSz = true)
    (hw : r.wip = false) (hp : Placed cfg.n (maxSz + hdrSize cfg.hdrMode maxSz) r start) :
    frameGrant cfg maxSz r =
      (frameGranted cfg maxSz start r, ⟨.ok, start + hdrSize cfg.hdrMode maxSz, maxSz⟩) := by
  simp [frameGrant, hr, ringGrantW_of_placed hw hp, frameGranted]

/-- Settles O25: the range test comes first, then the operation has one case for each status of the raw grant. -/
theorem fgrantReservesFrame : Obligations.FgrantReservesFrame := by
  refine ⟨fun w hw => by rw [decode, hw]; rfl, fun s maxSz h => ⟨fun hmode hbig => ?_, fun hr hw => ?_,
    fun hr hw hno => ?_, fun start hr hw hp => ?_⟩⟩
  · refine h.exec_fgrant (frameGrant_of_not_inRange (Bool.eq_false_iff.2 fun hr => ?_) _)
    rcases hdrInRange_iff.1 hr with hv | hsmall
    · simp [hmode] at hv
    · omega
  · exact h.exec_fgrant (frameGrant_of_wip (hdrInRange_iff.2 hr) hw)
  · exact h.exec_fgrant (frameGrant_of_not_placed (hdrInRange_iff.2 hr) hw hno)
  · exact h.exec_fgrant (frameGrant_of_placed (hdrInRange_iff.2 hr) hw hp)

/-! ## `FCOMMIT` (R155, R156) -/

/-- Byte `i` of the little-endian sequence (R11). -/
theorem leBytes_getElem? {n i : Nat} (v : Nat) (h : i < n) :
    (leBytes n v)[i]? = some (BitVec.ofNat 8 (v / 256 ^ i)) := by
  induction n generalizing i v with
  | zero => omega
  | succ n ih =>
    cases i with
    | zero => simp [leBytes]
    | succ i => rw [leBytes, List.getElem?_cons_succ, ih _ (by omega), Nat.pow_succ', Nat.div_div_eq_div_mul]

/-- The encoder writes the header's number in little-endian order (R103, R105). -/
theorem hdrEnc_eq_leBytes {mode : HdrMode} {h p : Nat} (hc : HeaderCarries mode h p) :
    hdrEnc mode h p = leBytes h (headerWord mode h p) := by
  cases mode with
  | fixed2 => rw [hc.1]; rfl
  | varint => rfl

/-- Storing an encoded header stores the header and nothing else (R155, R156). -/
theorem headerStored_setBytes {mode : HdrMode} {h p : Nat} (m : Memory) (a : Nat) (hc : HeaderCarries mode h p) :
    HeaderStored mode h p a m (memSetBytes m a (hdrEnc mode h p)) := by
  have hlen := hdrEnc_length hc
  refine ⟨fun i hi => ?_, fun off hoff => memGet?_setBytes_outside _ _ _ _ (by omega)⟩
  rw [memGet?_setBytes_inside _ _ _ _ (by omega), hdrEnc_eq_leBytes hc, leBytes_getElem? _ hi]

theorem frameCommit_of_not_wip {r : Ring} (hw : r.wip = false) (cfg : Config) (used : Nat) :
    frameCommit cfg used r = .ok (r, bare .badState) := by
  rw [frameCommit, hw]

/-- An `FCOMMIT` whose header fits the storage and the grant publishes the frame (R155, R156). -/
theorem frameCommit_of_grant {cfg : Config} {used : Nat} {r : Ring} {g : Grant} {f : FrameW} (hw : r.wip = true)
    (hg : r.wg = some g) (hf : r.fw = some f) (hle : f.hdrLen ≤ g.len) (hend : g.start + g.len ≤ cfg.n)
    (hc : HeaderCarries cfg.hdrMode f.hdrLen (min used (g.len - f.hdrLen))) :
    frameCommit cfg used r =
      .ok (framePublished cfg g f.hdrLen (min used (g.len - f.hdrLen)) r, bare .ok) := by
  have hlen := hdrEnc_length hc
  have hsum : f.hdrLen + min used (g.len - f.hdrLen) ≤ g.len := by omega
  simp only [frameCommit, hw, hg, hf, memWrite, hlen, if_pos (by omega : g.start + f.hdrLen ≤ cfg.n), ringCommit,
    Nat.min_eq_left hsum, framePublished]

/-- Settles O26: the header goes to the start of the grant, and the raw commit takes it with the payload. -/
theorem fcommitPublishesFrame : Obligations.FcommitPublishesFrame := by
  refine ⟨fun w hw => by rw [decode, hw]; rfl, fun s used h => ⟨fun hw => ?_, fun g f hw hg hf hle hend hc => ?_⟩⟩
  · exact h.exec_fcommit (frameCommit_of_not_wip hw s.cfg used)
  · refine ⟨_, headerStored_setBytes s.p0.ring.buf g.start hc, ?_⟩
    rw [h.exec_fcommit (frameCommit_of_grant hw hg hf hle hend hc), framePublished_eq _ _ _ _ hc.size.1]
    rfl

/-! ## `FTO_COMMIT` (R158) -/

theorem frameToCommit_of_not_wip {r : Ring} (hw : r.wip = false) (amt : Nat) :
    frameToCommit amt r = (r, bare .badState) := by
  rw [frameToCommit, hw]

theorem frameToCommit_of_grant {r : Ring} {f : FrameW} (hw : r.wip = true) (hf : r.fw = some f) (amt : Nat) :
    frameToCommit amt r = ({ r with fw := some ⟨f.hdrLen, amt⟩ }, bare .ok) := by
  rw [frameToCommit, hw, hf]

/-- An explicit `FCOMMIT` does not read the stored amount (R158). -/
theorem frameCommit_ignores_toCommit {r : Ring} {g : Grant} {f : FrameW} (hw : r.wip = true) (hg : r.wg = some g)
    (hf : r.fw = some f) (cfg : Config) (amt used : Nat) :
    frameCommit cfg used { r with fw := some ⟨f.hdrLen, amt⟩ } = frameCommit cfg used r := by
  by_cases hfits : g.start + (hdrEnc cfg.hdrMode f.hdrLen (min used (g.len - f.hdrLen))).length ≤ cfg.n
  · simp only [frameCommit, hw, hg, hf, memWrite, if_pos hfits]
  · simp only [frameCommit, hw, hg, hf, memWrite, if_neg hfits]

/-- Settles O27: the operation stores the amount in a field that `FCOMMIT` does not read. -/
theorem ftoCommitStoresAmount : Obligations.FtoCommitStoresAmount := by
  refine ⟨fun w hw => by rw [decode, hw]; rfl,
    fun s amt h => ⟨fun hw => ?_, fun f hw hf => ?_, fun g f used hw hg hf => ?_⟩⟩
  · exact h.exec_ftoCommit (frameToCommit_of_not_wip hw amt)
  · exact h.exec_ftoCommit (frameToCommit_of_grant hw hf amt)
  · rw [exec, exec]
    exact onRing_at_congr h.1 h.portKind_cur (frameCommit_ignores_toCommit hw hg hf s.cfg amt used)

/-! ## `FDROP_W` (R159) -/

theorem frameDropW_of_not_wip {r : Ring} (hw : r.wip = false) (cfg : Config) :
    frameDropW cfg r = .ok (r, bare .badState) := by
  rw [frameDropW, hw]

/-- With nothing to commit the grant is given up and no cursor moves (R128, R159). -/
theorem frameDropW_of_zero {r : Ring} {g : Grant} {f : FrameW} (hw : r.wip = true) (hg : r.wg = some g)
    (hf : r.fw = some f) (h0 : f.toCommit = 0) (cfg : Config) :
    frameDropW cfg r = .ok (clearWriteGrant { r with fw := none, reserve := r.write }, bare .ok) := by
  simp only [frameDropW, hw, hf, h0, if_true, ringCommit, hg, Nat.zero_min, advanceWrite_zero]

theorem frameDropW_of_ne_zero {r : Ring} {f : FrameW} (hw : r.wip = true) (hf : r.fw = some f) (hne : f.toCommit ≠ 0)
    (cfg : Config) : frameDropW cfg r = frameCommit cfg f.toCommit r := by
  simp only [frameDropW, hw, hf, if_neg hne]

/-- Settles O28: no grant, a grant given up, or the `FCOMMIT` of the stored amount. -/
theorem fdropWDropsOrCommits : Obligations.FdropWDropsOrCommits := by
  refine ⟨fun w hw => by rw [decode, hw]; rfl,
    fun s h => ⟨fun hw => ?_, fun g f hw hg hf h0 => ?_, fun f hw hf hne => ?_⟩⟩
  · exact h.exec_fdropW (frameDropW_of_not_wip hw s.cfg)
  · exact h.exec_fdropW (frameDropW_of_zero hw hg hf h0 s.cfg)
  · rw [exec, exec, execFdropW, execFcommit, onRing, onRing, frameDropW_of_ne_zero hw hf hne]

/-! ## `FREAD` (R160 to R163) -/

theorem frameRead_of_rip {r : Ring} (hr : r.rip = true) (cfg : Config) (free : Nat → Byte) :
    frameRead cfg free r = .ok (r, bare .grantInProgress) := by
  rw [frameRead, ringRead_of_rip hr]
  rfl

theorem frameRead_of_empty {r : Ring} (hr : r.rip = false) (h0 : readLen r = 0) (cfg : Config) (free : Nat → Byte) :
    frameRead cfg free r = .ok ({ r with read := readFrom r }, bare .empty) := by
  rw [frameRead, ringRead_of_empty hr h0]
  rfl

theorem frameRead_of_unread {r : Ring} (hr : r.rip = false) (hpos : readLen r ≠ 0) (cfg : Config)
    (free : Nat → Byte) : frameRead cfg free r = narrowToFrame cfg free (readFrom r) (readLen r)
      (setReadGrant (readFrom r) (readLen r) { r with read := readFrom r }) := by
  rw [frameRead, ringRead_of_unread hr hpos]
  rfl

/-- The ring with a read grant of the frame at `start`, whose header has `h` bytes and whose payload has `p` (R161). -/
def frameFound (start h p : Nat) (r : Ring) : Ring :=
  { setReadGrant start (h + p) { r with read := start } with fr := some ⟨h, false⟩ }

/-- `FREAD` where a header stands at the start of the raw grant: the frame if it fits, else the fault (R161, R163). -/
theorem frameRead_of_header {cfg : Config} {free : Nat → Byte} {r : Ring} {h p : Nat} (hr : r.rip = false)
    (hd : headerAt cfg.hdrMode r.buf (readFrom r) = some (h, p)) (hle : h ≤ readLen r)
    (hend : readFrom r + readLen r ≤ cfg.n) :
    frameRead cfg free r = if readLen r < h + p then .error .corruptFrame
      else .ok (frameFound (readFrom r) h p r, ⟨.ok, readFrom r + h, p⟩) := by
  obtain ⟨-, -, -, -, hpos, -⟩ := headerAt_some hd
  rw [frameRead_of_unread hr (by omega)]
  exact narrowToFrame_written (r := setReadGrant (readFrom r) (readLen r) { r with read := readFrom r }) hd hle
    (by omega)

/-- A first byte that tells no header size, or a larger one than the raw grant, is a corrupt frame (R108, R163). -/
theorem narrowToFrame_of_bad_size {cfg : Config} {free : Nat → Byte} {start len : Nat} {r : Ring} {b : Byte}
    (hend : start + 1 ≤ cfg.n) (hb : memGet? r.buf start = some b)
    (hbad : 8 < hdrSizeOf cfg.hdrMode b ∨ len < hdrSizeOf cfg.hdrMode b) :
    narrowToFrame cfg free start len r = .error .corruptFrame := by
  have hbyte : memRead cfg.n free start 1 r = .ok (r, [b]) := by
    rw [memRead, if_pos hend, readBytes_written _ _ _ _ [b] (by simp [writtenBytes, hb])]
  rw [narrowToFrame, hbyte]
  exact if_pos hbad

theorem frameRead_of_bad_size {cfg : Config} {free : Nat → Byte} {r : Ring} {b : Byte} (hr : r.rip = false)
    (hpos : 1 ≤ readLen r) (hend : readFrom r + readLen r ≤ cfg.n) (hb : memGet? r.buf (readFrom r) = some b)
    (hbad : 8 < hdrSizeOf cfg.hdrMode b ∨ readLen r < hdrSizeOf cfg.hdrMode b) :
    frameRead cfg free r = .error .corruptFrame := by
  rw [frameRead_of_unread hr (by omega)]
  exact narrowToFrame_of_bad_size (by omega) hb hbad

/-- Settles O29: no byte, or the frame whose header stands where the `READ` starts. -/
theorem freadReturnsFrame : Obligations.FreadReturnsFrame := by
  refine ⟨fun w hw => by rw [decode, hw]; rfl, fun s h => ⟨fun hr => ?_, fun hr h0 => ?_,
    fun hl p hr hd hfits hend => ?_⟩⟩
  · exact h.exec_fread (frameRead_of_rip hr _ _)
  · exact h.exec_fread (frameRead_of_empty hr h0 _ _)
  · have e := frameRead_of_header (free := Config.freeByte .p0) hr hd (by omega) hend
    rw [if_neg (by omega)] at e
    exact h.exec_fread e

/-- Settles O30: a first byte `0x00` tells a header of nine bytes; the other two conditions are tested as they stand. -/
theorem freadReportsCorruptFrame : Obligations.FreadReportsCorruptFrame := by
  intro s h hr start len hpos hend
  refine ⟨fun hmode hb => ?_, fun b hb hlarge => ?_, fun hl p hd hle hlarge => ?_⟩
  · refine h.exec_fread_fault (frameRead_of_bad_size hr hpos hend hb (.inl ?_))
    rw [hmode]
    decide
  · exact h.exec_fread_fault (frameRead_of_bad_size hr hpos hend hb (.inr hlarge))
  · have e := frameRead_of_header (free := Config.freeByte .p0) hr hd hle hend
    rw [if_pos hlarge] at e
    exact h.exec_fread_fault e

/-! ## `FRELEASE`, `FAUTO_RELEASE` and `FDROP_R` (R164 to R166) -/

theorem frameRelease_of_not_rip {r : Ring} (hr : r.rip = false) : frameRelease r = (r, bare .badState) := by
  rw [frameRelease, hr]

/-- The whole frame is released (R164). -/
theorem frameRelease_of_grant {r : Ring} {g : Grant} (hr : r.rip = true) (hg : r.rg = some g) :
    frameRelease r = (clearReadGrant { r with fr := none, read := r.read + g.len }, bare .ok) := by
  simp only [frameRelease, hr, hg, ringRelease, Nat.min_self]

/-- Settles O31: no grant, or the whole of it released. -/
theorem freleaseFreesFrame : Obligations.FreleaseFreesFrame := by
  refine ⟨fun w hw => by rw [decode, hw]; rfl, fun s h => ⟨fun hr => ?_, fun g hr hg => ?_⟩⟩
  · exact h.exec_frelease (frameRelease_of_not_rip hr)
  · exact h.exec_frelease (frameRelease_of_grant hr hg)

theorem frameAutoRelease_of_not_rip {r : Ring} (hr : r.rip = false) (b : Bool) :
    frameAutoRelease b r = (r, bare .badState) := by
  rw [frameAutoRelease, hr]

theorem frameAutoRelease_of_grant {r : Ring} {f : FrameR} (hr : r.rip = true) (hf : r.fr = some f) (b : Bool) :
    frameAutoRelease b r = ({ r with fr := some ⟨f.hdrLen, b⟩ }, bare .ok) := by
  rw [frameAutoRelease, hr, hf]

/-- The operand of `FAUTO_RELEASE` is a Boolean, any other value of it is reserved (R93). -/
theorem formatBool_eq (imm : Nat) : formatBool imm = if imm = 0 then .ok (.fautoRelease false)
    else if imm = 1 then .ok (.fautoRelease true) else .error .operandNotBoolean := by
  match imm with
  | 0 => rfl
  | 1 => rfl
  | n + 2 => rfl

/-- Settles O32: the operand's encoding, then no grant, or the choice stored. -/
theorem fautoReleaseStoresChoice : Obligations.FautoReleaseStoresChoice := by
  refine ⟨fun w hw => ?_, fun s b h => ⟨fun hr => ?_, fun f hr hf => ?_⟩⟩
  · rw [decode, hw]
    exact formatBool_eq _
  · exact h.exec_fautoRelease (frameAutoRelease_of_not_rip hr b)
  · exact h.exec_fautoRelease (frameAutoRelease_of_grant hr hf b)

theorem frameDropR_of_not_rip {r : Ring} (hr : r.rip = false) : frameDropR r = (r, bare .badState) := by
  rw [frameDropR, hr]

theorem frameDropR_of_autoRelease {r : Ring} {f : FrameR} (hr : r.rip = true) (hf : r.fr = some f)
    (ha : f.autoRelease = true) : frameDropR r = frameRelease r := by
  simp only [frameDropR, hr, hf, ha, if_true]

/-- Without automatic release the cursor does not move (R166). -/
theorem frameDropR_of_keep {r : Ring} {g : Grant} {f : FrameR} (hr : r.rip = true) (hg : r.rg = some g)
    (hf : r.fr = some f) (ha : f.autoRelease = false) :
    frameDropR r = (clearReadGrant { r with fr := none }, bare .ok) := by
  simp [frameDropR, hr, hf, ha, ringRelease, hg]

/-- Settles O33: no grant, the release of the frame, or the grant given up with the cursor where it was. -/
theorem fdropRKeepsOrReleases : Obligations.FdropRKeepsOrReleases := by
  refine ⟨fun w hw => by rw [decode, hw]; rfl,
    fun s h => ⟨fun hr => ?_, fun f hr hf ha => ?_, fun g f hr hg hf ha => ?_⟩⟩
  · exact h.exec_fdropR (frameDropR_of_not_rip hr)
  · rw [h.exec_fdropR (frameDropR_of_autoRelease hr hf ha), h.exec_frelease rfl]
  · exact h.exec_fdropR (frameDropR_of_keep hr hg hf ha)

end Sys2Proof.Machine
end

section
/-! PROOF. No step in a legal state meets a corrupt frame (R163): a step meets one only in a command or in an attempt of
`IDLE_STEP`, and both answer in a legal state. -/

namespace Sys2Proof.Machine

/-! ## Where a step can meet a corrupt frame (R163, R246) -/

/-- A delivered word faults only as the command that it names (R99). -/
theorem step_fault_of_deliver {s u : State} {w : Word} {f : Fault} (hf : fetch s = deliver w u)
    (e : step s = .fault f) : ∃ i, exec i u = .fault f := by
  rw [step, hf, deliver] at e
  cases hd : decode w with
  | ok i => rw [hd] at e; exact ⟨i, e⟩
  | error r => rw [hd] at e; cases e

/-- A resumed `IDLE_STEP` faults only as the attempt that it makes on the registers as they are (R223). -/
theorem resumeIdle_fault {s : State} {run : IdleRun} {rest : List Action} {f : Fault}
    (e : resumeIdle run rest s = .fault f) : ∃ u, SameRegisters s u ∧ idleAttempt run.todo run.count u = .error f := by
  refine ⟨{ startStep s rest with cur := .dp }, ⟨rfl, rfl, rfl, rfl⟩, ?_⟩
  rw [resumeIdle] at e
  cases ha : idleAttempt run.todo run.count { startStep s rest with cur := .dp } with
  | ok v => rw [ha] at e; cases e
  | error g => rw [ha] at e; cases e; rfl

/-- A step on a command word meets a corrupt frame in the command, or in the attempt that it waits for (R90, log 6). -/
theorem step_command_corruptFrame {s : State} {p : Port} {w : Word} {rest : List Action}
    (hs : s.inputs = .cmd p w :: rest) (he : actionEnabled s (.cmd p w) = true) (e : step s = .fault .corruptFrame) :
    (∃ i u, SameRegisters s u ∧ exec i u = .fault .corruptFrame) ∨
    (∃ run u, s.idle = some run ∧ SameRegisters s u ∧ idleAttempt run.todo run.count u = .error .corruptFrame) := by
  have hfetch := fetch_command hs he
  rcases fetchCommand_cases p w rest s with ⟨-, hno⟩ | ⟨run, -, -, hrun, hwait⟩ | ⟨-, -, haccept⟩
  · rw [step_of_done (hfetch.trans hno)] at e
    cases e
  · rw [step_of_done (hfetch.trans hwait)] at e
    obtain ⟨u, hu, ha⟩ := resumeIdle_fault e
    exact .inr ⟨run, u, hrun, hu, ha⟩
  · rw [haccept] at hfetch
    rcases acceptWord_cases p w (startStep s rest) with ⟨c, -, -, ha⟩ | ⟨c, -, -, ha⟩ | ⟨c, -, -, ha⟩ | ⟨c, -, -, ha⟩ |
        ⟨-, ha⟩
    · rw [step_of_done (hfetch.trans ha)] at e
      cases e
    · rw [step_of_done (hfetch.trans ha)] at e
      cases e
    all_goals
      obtain ⟨i, hi⟩ := step_fault_of_deliver (hfetch.trans ha) e
      exact .inl ⟨i, _, by constructor <;> rfl, hi⟩

/-- A step meets a corrupt frame only in a command or in an attempt of `IDLE_STEP`; a byte access outside its grant is
another fault. -/
theorem step_corruptFrame {s : State} (e : step s = .fault .corruptFrame) :
    (∃ i u, SameRegisters s u ∧ exec i u = .fault .corruptFrame) ∨
    (∃ run u, s.idle = some run ∧ SameRegisters s u ∧ idleAttempt run.todo run.count u = .error .corruptFrame) := by
  cases hs : s.inputs with
  | nil =>
    rw [step_of_done (o := .next s) (by simp [fetch, hs])] at e
    cases e
  | cons a rest =>
    cases he : actionEnabled s a with
    | false => rw [step_disabled hs he] at e; cases e
    | true =>
      cases a with
      | cmd p w => exact step_command_corruptFrame hs he e
      | bufWrite a off v =>
        rw [step_of_done (o := bufWrite a off v (startStep s rest)) (by simp [fetch, hs, he])] at e
        rcases bufWrite_cases a off v (startStep s rest) with ⟨-, h⟩ | ⟨-, h⟩ <;> (rw [h] at e; cases e)
      | bufRead a off =>
        rw [step_of_done (o := bufRead a off (startStep s rest)) (by simp [fetch, hs, he])] at e
        rcases bufRead_cases a off (startStep s rest) with ⟨k, v, -, h⟩ | ⟨-, h⟩ <;> (rw [h] at e; cases e)
      | resume =>
        cases hrun : s.idle with
        | none => simp [actionEnabled, hrun] at he
        | some run =>
          rw [step_resume hs hrun he] at e
          obtain ⟨u, hu, ha⟩ := resumeIdle_fault e
          exact .inr ⟨run, u, rfl, hu, ha⟩
      | handlerStart | handlerEnd | takeEvent =>
        rw [step_of_done (o := .next _) (by simp only [fetch, hs, he]; rfl)] at e
        cases e

/-! ## Attempts answer (R223) -/

/-- In a legal state an attempt of `IDLE_STEP` meets no fault. -/
theorem StateInv.idleAttempt_answers {s : State} (h : StateInv s) (hl : levelHasPipes s.cfg.level = true) (k : Attempt)
    (count : Nat) : ∃ t, Machine.idleAttempt k count s = .ok t := by
  cases k with
  | p0w | p1w => exact ⟨_, rfl⟩
  | p0r =>
    obtain ⟨x, hx⟩ := h.stageROn_answers hl .p0
    exact ⟨_, by rw [Machine.idleAttempt, hx]⟩
  | p1r =>
    obtain ⟨x, hx⟩ := h.stageROn_answers hl .p1
    exact ⟨_, by rw [Machine.idleAttempt, hx]⟩

/-- Settles O60: in a legal state every command and every attempt answers. -/
theorem noStepMeetsCorruptFrame : Obligations.NoStepMeetsCorruptFrame := by
  intro s h e
  rcases step_corruptFrame e with ⟨i, u, hu, hi⟩ | ⟨run, u, hrun, hu, ha⟩
  · obtain ⟨t, ht⟩ := everyCommandAnswers u i (h.of_same hu)
    rw [ht] at hi
    cases hi
  · have hl : levelHasPipes u.cfg.level = true := by rw [hu.cfg, h.idle_run (by simp [hrun])]; rfl
    obtain ⟨t, ht⟩ := (h.of_same hu).idleAttempt_answers hl run.todo run.count
    rw [ht] at ha
    cases ha

end Sys2Proof.Machine
end

section
/-! PROOF. One frame through an empty framed ring (R170): what `FGRANT` and `FCOMMIT` put there is what `FREAD` finds,
and `FRELEASE` leaves the ring empty again. -/

namespace Sys2Proof.Machine

/-! ## The ring after a frame has been published (R126, R155) -/

section
variable {cfg : Config} {start sz h p : Nat} {r : Ring}

@[simp] theorem framePublished_write (g : Grant) (hpos : 1 ≤ h) :
    (framePublished cfg g h p r).write = g.start + (h + p) := by
  rw [framePublished_eq cfg g p r hpos]
  rfl

@[simp] theorem framePublished_read (g : Grant) (hpos : 1 ≤ h) : (framePublished cfg g h p r).read = r.read := by
  rw [framePublished_eq cfg g p r hpos]
  rfl

theorem framePublished_last (g : Grant) (hpos : 1 ≤ h) :
    (framePublished cfg g h p r).last = lastAfter cfg.n (g.start + (h + p)) r := by
  rw [framePublished_eq cfg g p r hpos]
  rfl

@[simp] theorem framePublished_rip (g : Grant) (hpos : 1 ≤ h) : (framePublished cfg g h p r).rip = r.rip := by
  rw [framePublished_eq cfg g p r hpos]
  rfl

@[simp] theorem framePublished_wip (g : Grant) : (framePublished cfg g h p r).wip = false := rfl

@[simp] theorem framePublished_buf (g : Grant) (hpos : 1 ≤ h) :
    (framePublished cfg g h p r).buf = memSetBytes r.buf g.start (hdrEnc cfg.hdrMode h p) := by
  rw [framePublished_eq cfg g p r hpos]
  rfl

/-! ## The frame in an empty ring (R170) -/

/-- In an empty ring a grant is placed at the cursors, or below them at offset 0 (R122). -/
theorem Placed.of_empty {cap : Nat} (hp : Placed cap sz r start) (hempty : r.read = r.write) :
    (start = r.write ∧ start + sz ≤ cap) ∨ (start = 0 ∧ sz < r.write) := by
  rcases hp with ⟨hlt, -, -⟩ | ⟨-, hfits, rfl⟩ | ⟨-, -, hlow, rfl⟩
  · omega
  · exact .inl ⟨rfl, hfits⟩
  · exact .inr ⟨rfl, by omega⟩

/-- The only frame of a ring is where a `READ` starts: a frame at the lower end is found by the wrap step (R131). -/
theorem readFrom_framePublished (hp : Placed cfg.n sz r start) (hempty : r.read = r.write) (hpos : 1 ≤ h)
    (hsum : h + p ≤ sz) : readFrom (framePublished cfg ⟨start, sz⟩ h p r) = start := by
  rw [readFrom, framePublished_write _ hpos, framePublished_read _ hpos, framePublished_last _ hpos, lastAfter]
  simp only
  rcases hp.of_empty hempty with ⟨hstart, -⟩ | ⟨hstart, hlow⟩
  · rw [if_neg (by omega), hempty, hstart]
  · have hwrapped : start + (h + p) < r.write := by omega
    rw [if_pos hwrapped, if_pos ⟨hempty, by omega⟩, hstart]

/-- The only frame of a ring is all that a `READ` finds (R131). -/
theorem readLen_framePublished (hp : Placed cfg.n sz r start) (hempty : r.read = r.write) (hpos : 1 ≤ h)
    (hsum : h + p ≤ sz) : readLen (framePublished cfg ⟨start, sz⟩ h p r) = h + p := by
  rw [readLen, readFrom_framePublished hp hempty hpos hsum, framePublished_write _ hpos]
  simp only
  rw [if_neg (by omega), Nat.add_sub_cancel_left]

/-- `FREAD` finds the only frame of a ring (R160, R170). -/
theorem frameRead_framePublished (hp : Placed cfg.n sz r start) (hempty : r.read = r.write) (hr : r.rip = false)
    (hsum : h + p ≤ sz) (hend : start + sz ≤ cfg.n) (hc : HeaderCarries cfg.hdrMode h p) (free : Nat → Byte) :
    frameRead cfg free (framePublished cfg ⟨start, sz⟩ h p r) =
      .ok (frameFound start h p (framePublished cfg ⟨start, sz⟩ h p r), ⟨.ok, start + h, p⟩) := by
  have hpos := hc.size.1
  have hfrom := readFrom_framePublished (p := p) hp hempty hpos hsum
  have hlen := readLen_framePublished hp hempty hpos hsum
  have hheader : headerAt cfg.hdrMode (framePublished cfg ⟨start, sz⟩ h p r).buf
      (readFrom (framePublished cfg ⟨start, sz⟩ h p r)) = some (h, p) := by
    rw [hfrom, framePublished_buf _ hpos, headerAt_setBytes _ _ hc]
  rw [frameRead_of_header (by rw [framePublished_rip _ hpos, hr]) hheader (by omega) (by omega),
    if_neg (by omega), hfrom]

end

/-- An `FCOMMIT` of at most the granted payload publishes a frame of just that length (R155, R157). -/
theorem frameCommit_frameGranted {cfg : Config} {m l start : Nat} {r : Ring} (hlm : l ≤ m)
    (hend : start + (m + hdrSize cfg.hdrMode m) ≤ cfg.n)
    (hc : HeaderCarries cfg.hdrMode (hdrSize cfg.hdrMode m) l) :
    frameCommit cfg l (frameGranted cfg m start r) =
      .ok (framePublished cfg ⟨start, m + hdrSize cfg.hdrMode m⟩ (hdrSize cfg.hdrMode m) l
        (frameGranted cfg m start r), bare .ok) := by
  have hmin : min l (m + hdrSize cfg.hdrMode m - hdrSize cfg.hdrMode m) = l := by omega
  have e := frameCommit_of_grant (cfg := cfg) (used := l) (r := frameGranted cfg m start r) rfl rfl rfl
    (Nat.le_add_left ..) hend (by rwa [hmin])
  simpa only [hmin] using e

/-! ## Runs of framed commands (R12, R90) -/

/-- A framed grant and its commit leave the ring that the two operations leave. -/
theorem runAt_fgrant_fcommit {s : State} {r₁ r₂ : Ring} {a₁ a₂ : Resp} {m used : Nat} (hl : s.cfg.level = .framed)
    (c : Ctx) (hgrant : frameGrant s.cfg m s.p0.ring = (r₁, a₁)) (hcommit : frameCommit s.cfg used r₁ = .ok (r₂, a₂)) :
    ∃ t, runAt [(.producer c, .fgrant m), (.producer c, .fcommit used)] s = some t ∧ t.cfg = s.cfg ∧
      t.p0.ring = r₂ := by
  have hfirst : AtProducer .framed { s with cur := .producer c } := ⟨hl, c, rfl⟩
  have hsecond : AtProducer .framed (ringNext { s with cur := .producer c } r₁ a₁) := ⟨hl, c, rfl⟩
  exact ⟨_, (runAt_cons (hfirst.exec_fgrant hgrant)).trans (runAt_cons (hsecond.exec_fcommit hcommit)), rfl, rfl⟩

theorem runAt_fread {s : State} {r : Ring} {a : Resp} (hl : s.cfg.level = .framed) (d : Ctx)
    (e : frameRead s.cfg (Config.freeByte .p0) s.p0.ring = .ok (r, a)) :
    ∃ t, runAt [(.consumer d, .fread)] s = some t ∧ t.cfg = s.cfg ∧ t.p0.ring = r ∧
      t.resp = some (.consumer d, respWord a) := by
  have hport : AtConsumer .framed { s with cur := .consumer d } := ⟨hl, d, rfl⟩
  exact ⟨_, runAt_cons (hport.exec_fread e), rfl, rfl, rfl⟩

theorem runAt_frelease {s : State} {r : Ring} {a : Resp} (hl : s.cfg.level = .framed) (d : Ctx)
    (e : frameRelease s.p0.ring = (r, a)) :
    ∃ t, runAt [(.consumer d, .frelease)] s = some t ∧ t.p0.ring = r := by
  have hport : AtConsumer .framed { s with cur := .consumer d } := ⟨hl, d, rfl⟩
  exact ⟨_, runAt_cons (hport.exec_frelease e), rfl⟩

/-- Settles O34: the four operations one after the other, each on the ring that the one before leaves. -/
theorem frameRoundTrip : Obligations.FrameRoundTrip := by
  intro s c d m l start hs hl hw hr hempty hmode hlm h hp
  have hrange := hdrInRange_iff.2 hmode
  have hend : start + (m + h) ≤ s.cfg.n := by
    have := hs.ring0.cursors_le
    rcases hp.of_empty hempty with ⟨-, hfits⟩ | ⟨hstart, hlow⟩ <;> omega
  have hcarries : HeaderCarries s.cfg.hdrMode h l := by
    have hsize := hs.config_wf.2.1
    exact (hdrSize_carries hrange (by omega)).mono hlm
  have hpos := hcarries.size.1
  obtain ⟨t, hrun₁, hcfg₁, hring₁⟩ := runAt_fgrant_fcommit hl c (frameGrant_of_placed hrange hw hp)
    (frameCommit_frameGranted hlm hend hcarries)
  have hfound := frameRead_framePublished (r := frameGranted s.cfg m start s.p0.ring) (p := l) hp hempty hr (by omega)
    hend hcarries (Config.freeByte .p0)
  rw [← hring₁] at hfound
  obtain ⟨u, hrun₂, hcfg₂, hring₂, hresp⟩ := runAt_fread (by rw [hcfg₁, hl]) d (by rw [hcfg₁]; exact hfound)
  have hreleased := frameRelease_of_grant (r := u.p0.ring) (g := ⟨start, h + l⟩) (by rw [hring₂]; rfl)
    (by rw [hring₂]; rfl)
  obtain ⟨v, hrun₃, hring₃⟩ := runAt_frelease (by rw [hcfg₂, hcfg₁, hl]) d hreleased
  have hwrite : t.p0.ring.write = start + (h + l) := by rw [hring₁, framePublished_write _ hpos]
  have hreadv : v.p0.ring.read = start + (h + l) := by rw [hring₃, hring₂]; rfl
  have hwritev : v.p0.ring.write = start + (h + l) := by rw [hring₃, hring₂]; exact hwrite
  refine ⟨t, u, v, hrun₁, hwrite, ?_, hrun₂, hresp, hrun₃, ?_, ?_, ?_, hreadv, hwritev⟩
  · rw [hring₁, framePublished_buf _ hpos, headerAt_setBytes _ _ hcarries]
  · rw [avail, hreadv, hwritev, if_neg (by omega), Nat.sub_self]
  · rw [hring₃, hring₂]
    show t.p0.ring.wip = false
    rw [hring₁, framePublished_wip]
  · rw [hring₃]
    rfl

end Sys2Proof.Machine
end

section
/-! PROOF. The frames of a framed ring and of a Pipe are a queue (R168): what each command does to the sequence of
unread frames (R24, R102). -/

namespace Sys2Proof.Machine

/-! ## Operations that keep the sequence of frames (R152, R158 to R160, R165, R166) -/

/-- Whatever frames are unread in a ring are unread in the next one. -/
def KeepsFrames (r r' : Ring) : Prop := ∀ mode fs, UnreadFrames mode r fs → UnreadFrames mode r' fs

theorem KeepsFrames.refl (r : Ring) : KeepsFrames r r := fun _ _ h => h

theorem KeepsFrames.trans {r₁ r₂ r₃ : Ring} (h : KeepsFrames r₁ r₂) (h' : KeepsFrames r₂ r₃) : KeepsFrames r₁ r₃ :=
  fun mode fs hfs => h' mode fs (h mode fs hfs)

/-- The frames depend on the cursors and the storage only. -/
theorem KeepsFrames.of_same {r r' : Ring} (hwrite : r'.write = r.write) (hread : r'.read = r.read)
    (hlast : r'.last = r.last) (hbuf : r'.buf = r.buf) : KeepsFrames r r' :=
  fun _ _ hfs => hfs.congr hwrite hread hlast fun _ _ => by rw [hbuf]

theorem frameGrant_keepsFrames (cfg : Config) (maxSz : Nat) (r : Ring) : KeepsFrames r (frameGrant cfg maxSz r).1 := by
  rcases frameGrant_cases cfg maxSz r with ⟨st, -, -, e⟩ | ⟨st, -, -, -, e⟩ <;> rw [e]
  · exact .refl r
  · exact .of_same rfl rfl rfl rfl

theorem frameToCommit_keepsFrames (amt : Nat) (r : Ring) : KeepsFrames r (frameToCommit amt r).1 := by
  rcases frameToCommit_cases amt r with ⟨-, e⟩ | ⟨f, -, -, e⟩ <;> rw [e]
  · exact .refl r
  · exact .of_same rfl rfl rfl rfl

/-- A commit of nothing moves no cursor (R128). -/
theorem ringCommit_zero_keepsFrames (cap : Nat) (r : Ring) : KeepsFrames r (ringCommit cap 0 r).1 := by
  rcases ringCommit_cases cap 0 r with ⟨g, -, -, e⟩ | ⟨-, e⟩ <;> rw [e]
  · rw [Nat.zero_min, advanceWrite_zero]
    exact .of_same rfl rfl rfl rfl
  · exact .refl r

/-- An `FDROP_W` with nothing to commit publishes no frame (R159). -/
theorem frameDropW_keepsFrames {cfg : Config} {r r' : Ring} {a : Resp} (e : frameDropW cfg r = .ok (r', a))
    (h0 : ∀ f, r.wip = true → r.fw = some f → f.toCommit = 0) : KeepsFrames r r' := by
  rcases frameDropW_cases cfg r with ⟨-, h⟩ | ⟨f, -, -, -, h⟩ | ⟨f, hw, hf, hne, -⟩
  · rw [h] at e
    cases e
    exact .refl r
  · rw [h] at e
    have hkeeps : KeepsFrames r { r with fw := none } := .of_same rfl rfl rfl rfl
    exact fst_of_ok e ▸ hkeeps.trans (ringCommit_zero_keepsFrames cfg.n _)
  · exact absurd (h0 f hw hf) hne

/-- After `FTO_COMMIT 0` there is nothing to commit (R158, R204). -/
theorem frameToCommit_zero {r : Ring} {f : FrameW} (hw : (frameToCommit 0 r).1.wip = true)
    (hf : (frameToCommit 0 r).1.fw = some f) : f.toCommit = 0 := by
  rcases frameToCommit_cases 0 r with ⟨hno, e⟩ | ⟨f', -, -, e⟩ <;> rw [e] at hw hf
  · simp only at hw hf
    simp [hw, hf] at hno
  · cases hf
    rfl

/-- `FREAD` at most takes the wrap step (R132, R160). -/
theorem frameRead_keepsFrames {cfg : Config} {free : Nat → Byte} {r r' : Ring} {a : Resp}
    (e : frameRead cfg free r = .ok (r', a)) : KeepsFrames r r' := by
  have hwrap : KeepsFrames r (wrapRead r) := fun _ _ hfs => hfs.wrap
  rcases frameRead_cases cfg free r with ⟨-, h⟩ | ⟨-, -, h⟩ | ⟨-, -, h⟩ <;> rw [h] at e
  · cases e
    exact .refl r
  · cases e
    exact hwrap
  · obtain ⟨hl, p, k, -, -, -, rfl⟩ := narrowToFrame_ok e
    exact hwrap.trans (.of_same rfl rfl rfl rfl)

theorem frameAutoRelease_keepsFrames (b : Bool) (r : Ring) : KeepsFrames r (frameAutoRelease b r).1 := by
  rcases frameAutoRelease_cases b r with ⟨-, e⟩ | ⟨f, -, -, e⟩ <;> rw [e]
  · exact .refl r
  · exact .of_same rfl rfl rfl rfl

/-- A release of nothing moves no cursor (R137). -/
theorem ringRelease_zero_keepsFrames (r : Ring) : KeepsFrames r (ringRelease 0 r).1 := by
  rcases ringRelease_cases 0 r with ⟨g, -, -, e⟩ | ⟨-, e⟩ <;> rw [e]
  · exact .of_same rfl (by simp) rfl rfl
  · exact .refl r

/-- An `FDROP_R` without automatic release leaves the frame unread (R166). -/
theorem frameDropR_keepsFrames {r : Ring} (ha : ∀ f, r.rip = true → r.fr = some f → f.autoRelease = false) :
    KeepsFrames r (frameDropR r).1 := by
  rcases frameDropR_cases r with ⟨-, e⟩ | ⟨f, hr, hf, hauto, -⟩ | ⟨f, -, -, -, e⟩
  · rw [e]
    exact .refl r
  · simp [ha f hr hf] at hauto
  · rw [e]
    have hkeeps : KeepsFrames r { r with fr := none } := .of_same rfl rfl rfl rfl
    exact hkeeps.trans (ringRelease_zero_keepsFrames _)

/-- After `FAUTO_RELEASE 0` the frame is not released automatically (R165, R204). -/
theorem frameAutoRelease_false {r : Ring} {f : FrameR} (hr : (frameAutoRelease false r).1.rip = true)
    (hf : (frameAutoRelease false r).1.fr = some f) : f.autoRelease = false := by
  rcases frameAutoRelease_cases false r with ⟨hno, e⟩ | ⟨f', -, -, e⟩ <;> rw [e] at hr hf
  · simp only at hr hf
    simp [hr, hf] at hno
  · cases hf
    rfl

/-! ## The same for the operations of a Pipe (R184, R187, R189, R190, R196, R197) -/

theorem pipeStageW_keepsFrames (cfg : Config) (m : Nat) (p : Pipe) :
    KeepsFrames p.ring (pipeStageW cfg m p).1.ring := by
  rcases pipeStageW_cases cfg m p with ⟨-, e⟩ | ⟨-, -, e⟩ | ⟨st, -, -, -, -, e⟩ | ⟨r, a, -, -, hgrant, -, e⟩ <;> rw [e]
  · exact .refl _
  · exact .refl _
  · exact .refl _
  · have hkeeps := frameGrant_keepsFrames cfg m p.ring
    rwa [hgrant] at hkeeps

theorem pipeStageR_keepsFrames {cfg : Config} {free : Nat → Byte} {p q : Pipe} {a : Resp}
    (e : pipeStageR cfg free p = .ok (q, a)) : KeepsFrames p.ring q.ring := by
  rcases pipeStageR_cases cfg free p with ⟨-, h⟩ | ⟨-, -, h⟩ | ⟨f, -, -, -, h⟩ | ⟨r, b, -, -, hread, -, h⟩ |
      ⟨r, b, -, -, hread, -, h⟩ <;> (rw [h] at e; cases e)
  · exact .refl _
  · exact .refl _
  · exact frameRead_keepsFrames hread
  · exact frameRead_keepsFrames hread

theorem pipeClaimW_keepsFrames (c : Ctx) (p : Pipe) : KeepsFrames p.ring (pipeClaimW c p).1.ring := by
  rcases pipeClaimW_cases c p with ⟨-, e⟩ | ⟨-, -, e⟩ | ⟨-, -, e⟩ <;> rw [e] <;> exact .refl _

theorem pipeClaimR_keepsFrames (c : Ctx) (p : Pipe) : KeepsFrames p.ring (pipeClaimR c p).1.ring := by
  rcases pipeClaimR_cases c p with ⟨-, e⟩ | ⟨-, -, e⟩ | ⟨-, -, e⟩ <;> rw [e] <;> exact .refl _

theorem pipeAbortW_keepsFrames {cfg : Config} {p q : Pipe} {a : Resp} (e : pipeAbortW cfg p = .ok (q, a)) :
    KeepsFrames p.ring q.ring := by
  rcases pipeAbortW_cases cfg p with ⟨-, h⟩ | ⟨-, -, h⟩ | ⟨f, -, -, -, h⟩ | ⟨r, b, -, -, hdrop, h⟩ <;>
    (rw [h] at e; cases e)
  · exact .refl _
  · exact .refl _
  · exact (frameToCommit_keepsFrames 0 p.ring).trans
      (frameDropW_keepsFrames hdrop fun _ hw hf => frameToCommit_zero hw hf)

theorem pipeAbortR_keepsFrames (p : Pipe) : KeepsFrames p.ring (pipeAbortR p).1.ring := by
  rcases pipeAbortR_cases p with ⟨-, e⟩ | ⟨-, -, e⟩ | ⟨-, -, e⟩ <;> rw [e]
  · exact .refl _
  · exact .refl _
  · exact (frameAutoRelease_keepsFrames false p.ring).trans
      (frameDropR_keepsFrames fun _ hr hf => frameAutoRelease_false hr hf)

theorem stageWOn_keepsFrames {id : PipeId} {m : Nat} {s t : State} {a : Resp} (e : stageWOn id m s = (t, a)) :
    RingsRelated KeepsFrames s t := by
  have hset := RingsRelated.setPipe .refl (pipeStageW_keepsFrames s.cfg m (getPipe s id))
  rcases stageWOn_cases id m s with ⟨-, h⟩ | ⟨-, h⟩ <;> (rw [h] at e; cases e)
  · exact hset.emit _
  · exact hset

theorem stageROn_keepsFrames {id : PipeId} {s t : State} {a : Resp} (e : stageROn id s = .ok (t, a)) :
    RingsRelated KeepsFrames s t := by
  rcases stageROn_cases id s with ⟨f, -, h⟩ | ⟨p, b, hp, -, h⟩ | ⟨p, b, hp, -, h⟩ <;> (rw [h] at e; cases e)
  · exact (RingsRelated.setPipe .refl (pipeStageR_keepsFrames hp)).emit _
  · exact .setPipe .refl (pipeStageR_keepsFrames hp)

/-! ## Commands that keep the sequence of frames -/

/-- The framed and Pipe commands that neither commit nor release a frame in this state. -/
def MovesNoFrame (s : State) : Instr → Prop
  | .fgrant _ | .ftoCommit _ | .fread | .fautoRelease _ => True
  | .fdropW => ∀ f, s.p0.ring.fw = some f → f.toCommit = 0
  | .fdropR => ∀ f, s.p0.ring.fr = some f → f.autoRelease = false
  | .stageW _ | .stageR | .claimW | .claimR | .abortW | .abortR | .queryW | .queryR => True
  | _ => False

/-- A command that moves no frame keeps the frames of both rings, in any state. -/
theorem exec_keepsFrames {i : Instr} {s t : State} (hi : MovesNoFrame s i) (e : exec i s = .next t) :
    RingsRelated KeepsFrames s t := by
  cases i with (rw [exec] at e)
  | fgrant m => exact onRing_rings .refl e fun r a _ x => fst_of_ok x ▸ frameGrant_keepsFrames s.cfg m _
  | ftoCommit amt => exact onRing_rings .refl e fun r a _ x => fst_of_ok x ▸ frameToCommit_keepsFrames amt _
  | fdropW => exact onRing_rings .refl e fun r a _ x => frameDropW_keepsFrames x fun f _ => hi f
  | fread => exact onRing_rings .refl e fun r a _ x => frameRead_keepsFrames x
  | fautoRelease b => exact onRing_rings .refl e fun r a _ x => fst_of_ok x ▸ frameAutoRelease_keepsFrames b _
  | fdropR => exact onRing_rings .refl e fun r a _ x => fst_of_ok x ▸ frameDropR_keepsFrames fun f _ => hi f
  | stageW m => exact onPipe_rings .refl e fun id c u a _ x => stageWOn_keepsFrames (Except.ok.inj x)
  | stageR => exact onPipe_rings .refl e fun id c u a _ x => stageROn_keepsFrames x
  | claimW => exact onPipe_rings .refl e fun id c u a _ x => fst_of_ok x ▸ .setPipe .refl (pipeClaimW_keepsFrames c _)
  | claimR => exact onPipe_rings .refl e fun id c u a _ x => fst_of_ok x ▸ .setPipe .refl (pipeClaimR_keepsFrames c _)
  | abortW => exact onPipe_pipe_rings .refl e fun id c q a _ x => pipeAbortW_keepsFrames x
  | abortR => exact onPipe_rings .refl e fun id c u a _ x => fst_of_ok x ▸ .setPipe .refl (pipeAbortR_keepsFrames _)
  | queryW | queryR => exact onPipe_rings .refl e fun id c u a _ x => fst_of_ok x ▸ .refl .refl s
  | grantW | commit | read | release | fcommit | frelease | init | finalizeW | finalizeR | dpInit | idleStep =>
    exact hi.elim

/-! ## A commit appends a frame (R155, R168) -/

/-- `FCOMMIT` puts one frame with the committed bytes behind the unread ones. -/
theorem LegalFramed.commit_appends {cfg : Config} {r : Ring} {g : Grant} {f : FrameW} {fs : List (List (Option Byte))}
    (h : LegalFramed cfg r) (hw : r.wip = true) (hg : r.wg = some g) (hf : r.fw = some f)
    (hfs : UnreadFrames cfg.hdrMode r fs) (used : Nat) :
    ∃ r', frameCommit cfg used r = .ok (r', bare .ok) ∧ UnreadFrames cfg.hdrMode r' (fs ++
      [bytesAt r.buf (List.range' (g.start + f.hdrLen) (min used (g.len - f.hdrLen)))]) := by
  obtain ⟨g', f', p, hg', hf', rfl, hsum, hend, hc, e⟩ := h.frameCommit_eq used hw
  obtain rfl : g = g' := by simpa [hg] using hg'
  obtain rfl : f = f' := by simpa [hf] using hf'
  have hpos := hc.size.1
  have hlen := hdrEnc_length hc
  refine ⟨_, e, hfs.publish h.ring hw hg (by omega) hsum ?_ (fun k hk => ?_) (framePublished_write g hpos)
    (framePublished_read g hpos) (framePublished_last g hpos)⟩
  · -- the header that was stored is followed by the bytes that were there
    rw [framePublished_buf g hpos, ← bytesAt_congr fun k hk => memGet?_setBytes_outside r.buf g.start k
      (hdrEnc cfg.hdrMode f.hdrLen (min used (g.len - f.hdrLen))) (by rw [List.mem_range'_1] at hk; omega)]
    exact .frame (headerAt_setBytes r.buf g.start hc) (by omega) (by rw [Nat.add_assoc]; exact .done _)
  · -- the header lies in the write grant, so outside the unread data
    rw [framePublished_buf g hpos]
    refine memGet?_setBytes_outside _ _ _ _ ?_
    by_contra hin
    exact h.ring.grant_not_unread hw hg ⟨by omega, by omega⟩ hk

/-! ## A read answers the oldest frame (R160, R168) -/

/-- A ring with an unread frame is not empty. -/
theorem UnreadFrames.avail_pos {mode : HdrMode} {n : Nat} {r : Ring} {first : List (Option Byte)}
    {more : List (List (Option Byte))} (h : UnreadFrames mode r (first :: more)) (hi : RingInv n r) : 0 < avail r := by
  by_contra hzero
  have hmeet := hi.read_eq_write_of_empty (by omega)
  rw [UnreadFrames, if_neg (by omega), hmeet] at h
  cases h.empty

/-- What a `READ` finds lies in the storage (R63). -/
theorem RingInv.readFrom_add_readLen_le {n : Nat} {r : Ring} (h : RingInv n r) : readFrom r + readLen r ≤ n := by
  have hcursors := h.cursors_le
  have hinverted := h.inverted_ok
  unfold readLen readFrom
  split <;> split <;> omega

/-- `FREAD` answers the place and the length of the oldest frame. -/
theorem LegalFramed.read_oldest {cfg : Config} {r : Ring} {first : List (Option Byte)}
    {more : List (List (Option Byte))} (h : LegalFramed cfg r) (hr : r.rip = false)
    (hfs : UnreadFrames cfg.hdrMode r (first :: more)) (free : Nat → Byte) :
    ∃ r' ptr, frameRead cfg free r = .ok (r', ⟨.ok, ptr, first.length⟩) ∧
      bytesAt r'.buf (List.range' ptr first.length) = first := by
  have hfound := hfs.first h.ring (readExtent_pos h.ring (hfs.avail_pos h.ring))
  rw [readExtent_wrapRead, wrapRead_eq] at hfound
  obtain ⟨hl, p, more', hd, hle, heq⟩ := hfound
  obtain ⟨rfl, -⟩ := List.cons.inj heq
  have e := frameRead_of_header (free := free) hr hd (by omega) h.ring.readFrom_add_readLen_le
  rw [if_neg (by omega)] at e
  have hlen : (bytesAt r.buf (List.range' (readFrom r + hl) p)).length = p := by simp [bytesAt]
  exact ⟨_, readFrom r + hl, by rw [hlen]; exact e, by rw [hlen]; rfl⟩

/-! ## A release removes the oldest frame (R164, R168) -/

/-- The read grant is the oldest frame, and releasing it leaves the others. -/
theorem LegalFramed.release_removes {cfg : Config} {r : Ring} {g : Grant} {f : FrameR}
    {fs : List (List (Option Byte))} (h : LegalFramed cfg r) (hr : r.rip = true) (hg : r.rg = some g)
    (hf : r.fr = some f) (hfs : UnreadFrames cfg.hdrMode r fs) :
    ∃ more, fs = bytesAt r.buf (List.range' (g.start + f.hdrLen) (g.len - f.hdrLen)) :: more ∧
      UnreadFrames cfg.hdrMode (frameRelease r).1 more := by
  obtain ⟨g', f', hg', hf', hle, hd⟩ := h.framed.frame_read hr
  obtain rfl : g = g' := by simpa [hg] using hg'
  obtain rfl : f = f' := by simpa [hf] using hf'
  obtain ⟨first, more, rfl, hmore⟩ := hfs.release h.ring hr hg hle hd (r' := (frameRelease r).1)
    (by rw [frameRelease_of_grant hr hg]; rfl) (frameRelease_keepsBytes r)
    (by rw [frameRelease_of_grant hr hg]; rfl) (by rw [frameRelease_of_grant hr hg]; rfl)
  obtain ⟨g', hg', hstart, hpos, hup, -⟩ := h.ring.read_grant hr
  obtain rfl : g = g' := by simpa [hg] using hg'
  have hfrom : (wrapRead r).read = g.start := by
    rcases wrapRead_cases r with ⟨hread, hlt, -⟩ | ⟨-, e⟩
    · have := hup hlt
      omega
    · rw [e, hstart]
  obtain ⟨hl, p, more', hd', -, heq⟩ := hfs.first h.ring (readExtent_pos h.ring (hfs.avail_pos h.ring))
  rw [hfrom] at hd' heq
  obtain ⟨rfl, rfl⟩ : _ ∧ _ := by simpa [hd] using hd'
  obtain ⟨rfl, -⟩ := List.cons.inj heq
  exact ⟨more, rfl, hmore⟩

/-! ## Commands at the port of a Pipe (R90) -/

theorem AtPipe.levelHasPipes {id : PipeId} {c : Ctx} {s : State} (h : AtPipe id c s) :
    levelHasPipes s.cfg.level = true := by
  rcases h.2 with hl | ⟨hl, -⟩ <;> rw [hl] <;> rfl

theorem AtPipe.exec_finalizeW {id : PipeId} {c : Ctx} {s : State} {n : Nat} {q : Pipe} {a : Resp} (h : AtPipe id c s)
    (e : pipeFinalizeW s.cfg n (getPipe s id) = .ok (q, a)) :
    exec (.finalizeW n) s = .next (answer (setPipe s id q) a) := by
  rw [exec]
  exact (onPipe_next_iff h).2 ⟨_, a, by rw [e]; rfl, rfl⟩

theorem AtPipe.exec_stageR {id : PipeId} {c : Ctx} {s : State} {q : Pipe} {a : Resp} (h : AtPipe id c s)
    (e : pipeStageR s.cfg (Config.freeByte id) (getPipe s id) = .ok (q, a)) (ha : a.status = .ok) :
    exec .stageR s = .next (answer (emit (setPipe s id q) ⟨id, .r, a.ptr, a.len⟩) a) := by
  rw [exec]
  exact (onPipe_next_iff h).2 ⟨_, a, by simp only [stageROn, e, if_pos ha], rfl⟩

theorem AtPipe.exec_finalizeR {id : PipeId} {c : Ctx} {s : State} {q : Pipe} {a : Resp} (h : AtPipe id c s)
    (e : pipeFinalizeR (getPipe s id) = (q, a)) : exec .finalizeR s = .next (answer (setPipe s id q) a) := by
  rw [exec]
  exact (onPipe_next_iff h).2 ⟨_, a, by rw [e]; rfl, rfl⟩

/-- `INIT` leaves an initialised Pipe as it is (R183). -/
theorem AtPipe.init_of_inited {id : PipeId} {c : Ctx} {s t : State} (h : AtPipe id c s)
    (hi : (getPipe s id).inited = true) (e : exec .init s = .next t) : getPipe t id = getPipe s id := by
  rw [exec] at e
  obtain ⟨u, a, hu, rfl⟩ := (onPipe_next_iff h).1 e
  rcases pipeInit_cases s.cfg (getPipe s id) with ⟨-, hp⟩ | ⟨hno, -⟩
  · rw [hp] at hu
    cases hu
    simp
  · simp [hi] at hno

/-! ## The operations of a Pipe that move a frame (R187, R192, R194) -/

/-- `FINALIZE_W` appends one frame with the first bytes of the region that the Pipe exposes. -/
theorem LegalPipe.finalizeW_appends {cfg : Config} {p : Pipe} {fs : List (List (Option Byte))} (h : LegalPipe cfg p)
    (hi : p.inited = true) (hbusy : p.wrState = .grantBusy) (hfs : UnreadFrames cfg.hdrMode p.ring fs) (n : Nat) :
    ∃ q, pipeFinalizeW cfg n p = .ok (q, bare .ok) ∧ UnreadFrames cfg.hdrMode q.ring (fs ++
      [bytesAt p.ring.buf (List.range' p.wrPtr (min n p.wrLen))]) := by
  have hstaged : p.wrState ≠ .idle := by simp [hbusy]
  have hw : p.ring.wip = true := by simpa [h.write.flag] using hstaged
  obtain ⟨g, f, hg, hf, hptr, hlen⟩ := h.write.region hstaged
  obtain ⟨r, e, happ⟩ := h.ring.commit_appends hw hg hf hfs n
  rw [hptr, hlen]
  exact ⟨_, by simp only [pipeFinalizeW, hi, hbusy, e]; rfl, happ⟩

/-- `STAGE_R` exposes the oldest frame. -/
theorem LegalPipe.stageR_oldest {cfg : Config} {p : Pipe} {first : List (Option Byte)}
    {more : List (List (Option Byte))} (h : LegalPipe cfg p) (hi : p.inited = true) (hidle : p.rdState = .idle)
    (hfs : UnreadFrames cfg.hdrMode p.ring (first :: more)) (free : Nat → Byte) :
    ∃ q ptr, pipeStageR cfg free p = .ok (q, ⟨.ok, ptr, first.length⟩) ∧ q.rdState = .grantReady ∧ q.rdPtr = ptr ∧
      q.rdLen = first.length ∧ bytesAt q.ring.buf (List.range' ptr first.length) = first := by
  have hr : p.ring.rip = false := h.read.flag.1 hidle
  obtain ⟨r, ptr, e, hbytes⟩ := h.ring.read_oldest hr hfs free
  exact ⟨_, ptr, by simp only [pipeStageR, hi, hidle, e]; rfl, rfl, rfl, rfl, hbytes⟩

/-- `FINALIZE_R` removes the frame that the Pipe exposes, which is the oldest. -/
theorem LegalPipe.finalizeR_removes {cfg : Config} {p : Pipe} {fs : List (List (Option Byte))} (h : LegalPipe cfg p)
    (hi : p.inited = true) (hbusy : p.rdState = .grantBusy) (hfs : UnreadFrames cfg.hdrMode p.ring fs) :
    ∃ q more, pipeFinalizeR p = (q, bare .ok) ∧ fs = bytesAt p.ring.buf (List.range' p.rdPtr p.rdLen) :: more ∧
      UnreadFrames cfg.hdrMode q.ring more := by
  have hstaged : p.rdState ≠ .idle := by simp [hbusy]
  have hr : p.ring.rip = true := by simpa [h.read.flag] using hstaged
  obtain ⟨g, f, hg, hf, hptr, hlen⟩ := h.read.region hstaged
  obtain ⟨more, heq, hmore⟩ := h.ring.release_removes hr hg hf hfs
  rw [hptr, hlen]
  exact ⟨_, more, by simp only [pipeFinalizeR, hi, hbusy]; rfl, heq, hmore⟩

/-- The Pipe commands that move a frame are the two that finalize, and `INIT` where it is not refused. -/
theorem movesNoFrame_of_isPipeCommand {i : Instr} (s : State) (hpipe : isPipeCommand i = true)
    (hw : ∀ n, i ≠ .finalizeW n) (hr : i ≠ .finalizeR) : i = .init ∨ MovesNoFrame s i := by
  cases i with
  | init => exact .inl rfl
  | stageW | stageR | claimW | claimR | abortW | abortR | queryW | queryR => exact .inr trivial
  | finalizeW n => exact absurd rfl (hw n)
  | finalizeR => exact absurd rfl hr
  | grantW | commit | read | release | fgrant | fcommit | ftoCommit | fdropW | fread | frelease | fautoRelease
  | fdropR | dpInit | idleStep => cases hpipe

/-- Settles O35: a finishing commit appends, a read answers the oldest frame, a release removes it, and the other
commands move no frame. -/
theorem framesAreAQueue : Obligations.FramesAreAQueue := by
  refine ⟨fun s fs h hl hfs => ?_, fun s id c fs h hport hi hfs => ?_⟩
  · have hlegal : LegalFramed s.cfg s.p0.ring := ⟨h.ring0, h.framed0 (by simp [hl])⟩
    refine ⟨fun c g f i used hc hw hg hf hcommits => ?_, fun c first more hc hr hfirst => ?_,
      fun c i hc hr hreleases => ?_, fun i t hkeeps e => ?_⟩
    · have hport : AtProducer .framed s := ⟨hl, c, hc⟩
      obtain ⟨r, e, happ⟩ := hlegal.commit_appends hw hg hf hfs used
      refine ⟨ringNext s r (bare .ok), ?_, happ⟩
      rcases hcommits with rfl | ⟨rfl, rfl, hne⟩
      · exact hport.exec_fcommit e
      · exact hport.exec_fdropW ((frameDropW_of_ne_zero hw hf hne s.cfg).trans e)
    · subst hfirst
      have hport : AtConsumer .framed s := ⟨hl, c, hc⟩
      obtain ⟨r, ptr, e, hbytes⟩ := hlegal.read_oldest hr hfs (Config.freeByte .p0)
      exact ⟨_, ptr, hport.exec_fread e, rfl, hbytes, frameRead_keepsFrames e _ _ hfs⟩
    · have hport : AtConsumer .framed s := ⟨hl, c, hc⟩
      obtain ⟨g, f, hg, hf, -⟩ := hlegal.framed.frame_read hr
      obtain ⟨more, heq, hmore⟩ := hlegal.release_removes hr hg hf hfs
      refine ⟨ringNext s (frameRelease s.p0.ring).1 (frameRelease s.p0.ring).2, _, more, heq, ?_, hmore⟩
      rcases hreleases with rfl | ⟨rfl, f', hf', ha⟩
      · exact hport.exec_frelease rfl
      · exact hport.exec_fdropR (frameDropR_of_autoRelease hr hf' ha)
    · have hmoves : MovesNoFrame s i := by
        rcases hkeeps with ⟨n, rfl⟩ | ⟨n, rfl⟩ | ⟨b, rfl⟩ | ⟨rfl, h0⟩ | ⟨rfl, ha⟩
        · trivial
        · trivial
        · trivial
        · exact h0
        · exact ha
      exact exec_keepsFrames hmoves e .p0 _ _ hfs
  · have hlegal : LegalPipe s.cfg (getPipe s id) := h.legalPipe id hport.levelHasPipes
    refine ⟨fun n hbusy => ?_, fun first more hidle hfirst => ?_, fun hbusy => ?_, fun i t hpipe hw hr e => ?_⟩
    · obtain ⟨q, e, happ⟩ := hlegal.finalizeW_appends hi hbusy hfs n
      exact ⟨_, hport.exec_finalizeW e, by simpa using happ⟩
    · subst hfirst
      obtain ⟨q, ptr, e, hready, hptr, hlen, hbytes⟩ := hlegal.stageR_oldest hi hidle hfs (Config.freeByte id)
      exact ⟨_, ptr, hport.exec_stageR e rfl, by simp, by simpa using hready, by simpa using hptr, by simpa using hlen,
        by simpa using hbytes⟩
    · obtain ⟨q, more, e, heq, hmore⟩ := hlegal.finalizeR_removes hi hbusy hfs
      exact ⟨_, _, more, heq, rfl, hport.exec_finalizeR e, by simpa using hmore⟩
    · rcases movesNoFrame_of_isPipeCommand s hpipe hw hr with rfl | hmoves
      · rw [hport.init_of_inited hi e]
        exact hfs
      · exact exec_keepsFrames hmoves e id _ _ hfs

end Sys2Proof.Machine
end

section
/-! PROOF. Commands at the port of a Pipe (R90, R181, R224): each is one operation on that Pipe, its answer, and the
event of a successful staging; nothing else of the state changes. -/

namespace Sys2Proof.Machine

/-! ## The command as an operation on the Pipe -/

/-- What a command at a port of Pipe `id` does to the Pipe `p` that stands there: a Pipe command is its operation, and
any other is answered `ILLEGAL_CMD` (R90, R99). -/
def pipeOp (cfg : Config) (id : PipeId) (c : Ctx) (p : Pipe) : Instr → Except Fault (Pipe × Resp)
  | .init => .ok (pipeInit cfg p)
  | .stageW m => .ok (pipeStageW cfg m p)
  | .stageR => pipeStageR cfg (Config.freeByte id) p
  | .claimW => .ok (pipeClaimW c p)
  | .claimR => .ok (pipeClaimR c p)
  | .finalizeW n => pipeFinalizeW cfg n p
  | .finalizeR => .ok (pipeFinalizeR p)
  | .abortW => pipeAbortW cfg p
  | .abortR => .ok (pipeAbortR p)
  | .queryW => .ok (p, pipeQueryW p)
  | .queryR => .ok (p, pipeQueryR p)
  | _ => .ok (p, bare .illegalCmd)

/-- The event of a command at Pipe `id` that answers `a` (R224). -/
def stagedBy (id : PipeId) (i : Instr) (a : Resp) : Option Staged :=
  match i with
  | .stageW _ => if a.status = .ok then some ⟨id, .w, a.ptr, a.len⟩ else none
  | .stageR => if a.status = .ok then some ⟨id, .r, a.ptr, a.len⟩ else none
  | _ => none

/-- The state after the command `i` has made Pipe `id` into `q` and answered `a`. -/
def pipeDone (s : State) (id : PipeId) (i : Instr) (q : Pipe) (a : Resp) : State :=
  match stagedBy id i a with
  | none => answer (setPipe s id q) a
  | some e => answer (emit (setPipe s id q) e) a

/-- The outcome of the command `i` whose operation on Pipe `id` returns this. -/
def pipeOutcome (s : State) (id : PipeId) (i : Instr) :
    Except Fault (Pipe × Resp) → Host.Outcome State Fault Refusal
  | .ok x => .next (pipeDone s id i x.1 x.2)
  | .error e => .fault e

theorem stagedBy_of_not_ok {a : Resp} (ha : a.status ≠ .ok) (id : PipeId) (i : Instr) : stagedBy id i a = none := by
  cases i with
  | stageW m => exact if_neg ha
  | stageR => exact if_neg ha
  | _ => rfl

theorem stagedBy_stageW {a : Resp} (ha : a.status = .ok) (id : PipeId) (m : Nat) :
    stagedBy id (.stageW m) a = some ⟨id, .w, a.ptr, a.len⟩ :=
  if_pos ha

theorem stagedBy_stageR {a : Resp} (ha : a.status = .ok) (id : PipeId) :
    stagedBy id .stageR a = some ⟨id, .r, a.ptr, a.len⟩ :=
  if_pos ha

/-- A command without an event changes its Pipe and the response. -/
theorem pipeDone_of_none {id : PipeId} {i : Instr} {a : Resp} (h : stagedBy id i a = none) (s : State) (q : Pipe) :
    pipeDone s id i q a = answer (setPipe s id q) a := by
  rw [pipeDone, h]

/-- A staging command changes its Pipe, the response and the pending events. -/
theorem pipeDone_of_some {id : PipeId} {i : Instr} {a : Resp} {e : Staged} (h : stagedBy id i a = some e) (s : State)
    (q : Pipe) : pipeDone s id i q a = answer (emit (setPipe s id q) e) a := by
  rw [pipeDone, h]

/-- With or without its event, a command changes its Pipe and the response. -/
theorem pipeDone_cases (s : State) (id : PipeId) (i : Instr) (q : Pipe) (a : Resp) :
    pipeDone s id i q a = answer (setPipe s id q) a ∨
      ∃ e, pipeDone s id i q a = answer (emit (setPipe s id q) e) a := by
  cases h : stagedBy id i a with
  | none => exact .inl (pipeDone_of_none h s q)
  | some e => exact .inr ⟨e, pipeDone_of_some h s q⟩

@[simp] theorem pipeDone_cfg (s : State) (id : PipeId) (i : Instr) (q : Pipe) (a : Resp) :
    (pipeDone s id i q a).cfg = s.cfg := by
  rcases pipeDone_cases s id i q a with h | ⟨e, h⟩ <;> simp [h]

@[simp] theorem pipeDone_resp (s : State) (id : PipeId) (i : Instr) (q : Pipe) (a : Resp) :
    (pipeDone s id i q a).resp = some (s.cur, respWord a) := by
  rcases pipeDone_cases s id i q a with h | ⟨e, h⟩ <;> simp [h]

@[simp] theorem getPipe_pipeDone_same (s : State) (id : PipeId) (i : Instr) (q : Pipe) (a : Resp) :
    getPipe (pipeDone s id i q a) id = q := by
  rcases pipeDone_cases s id i q a with h | ⟨e, h⟩ <;> simp [h]

theorem getPipe_pipeDone_other {s : State} {id k : PipeId} (hk : k ≠ id) (i : Instr) (q : Pipe) (a : Resp) :
    getPipe (pipeDone s id i q a) k = getPipe s k := by
  rcases pipeDone_cases s id i q a with h | ⟨e, h⟩ <;> simp [h, getPipe_setPipe_other hk]

/-! ## Every command at a port of a Pipe (R90) -/

theorem AtPipe.hasPort_cur {id : PipeId} {c : Ctx} {s : State} (h : AtPipe id c s) :
    hasPort s.cfg.level s.cur = true := by
  obtain ⟨hcur, hl | ⟨hl, rfl⟩⟩ := h <;> rw [hcur, hl] <;> rfl

section
variable {id : PipeId} {c : Ctx} {s t : State} {i : Instr} {q : Pipe} {a : Resp}

theorem AtPipe.onPipe_ok {op : PipeId → Ctx → Except Fault (State × Resp)} (h : AtPipe id c s)
    (hop : op id c = .ok (t, a)) : onPipe s op = .next (answer t a) :=
  (onPipe_next_iff h).2 ⟨t, a, hop, rfl⟩

theorem AtPipe.onPipe_fault {op : PipeId → Ctx → Except Fault (State × Resp)} {e : Fault} (h : AtPipe id c s)
    (hop : op id c = .error e) : onPipe s op = .fault e := by
  have hport := h.hasPort_cur
  rw [h.1] at hport
  simp only [onPipe, h.1, hport, if_true, hop]

/-- A command that acts on the Pipe of its port alone and stages nothing. -/
theorem AtPipe.onPipe_thisPipe {op : PipeId → Ctx → Except Fault (State × Resp)} {x : Except Fault (Pipe × Resp)}
    (h : AtPipe id c s) (hop : op id c = onThisPipe? s id x) (hno : ∀ a, stagedBy id i a = none) :
    onPipe s op = pipeOutcome s id i x := by
  cases x with
  | error e => exact h.onPipe_fault hop
  | ok y => exact (h.onPipe_ok hop).trans (congrArg Host.Outcome.next (pipeDone_of_none (hno y.2) s y.1).symm)

theorem AtPipe.exec_stageW_eq (h : AtPipe id c s) (m : Nat) :
    exec (.stageW m) s = pipeOutcome s id (.stageW m) (.ok (pipeStageW s.cfg m (getPipe s id))) := by
  rw [exec]
  rcases stageWOn_cases id m s with ⟨ha, e⟩ | ⟨ha, e⟩
  · exact (h.onPipe_ok (congrArg Except.ok e)).trans
      (congrArg Host.Outcome.next (pipeDone_of_some (stagedBy_stageW ha id m) s _).symm)
  · exact (h.onPipe_ok (congrArg Except.ok e)).trans
      (congrArg Host.Outcome.next (pipeDone_of_none (stagedBy_of_not_ok ha id (.stageW m)) s _).symm)

theorem AtPipe.exec_stageR_eq (h : AtPipe id c s) :
    exec .stageR s = pipeOutcome s id .stageR (pipeStageR s.cfg (Config.freeByte id) (getPipe s id)) := by
  rw [exec]
  rcases stageROn_cases id s with ⟨f, hp, e⟩ | ⟨q, a, hp, ha, e⟩ | ⟨q, a, hp, ha, e⟩ <;> rw [hp]
  · exact h.onPipe_fault e
  · exact (h.onPipe_ok e).trans (congrArg Host.Outcome.next (pipeDone_of_some (stagedBy_stageR ha id) s q).symm)
  · exact (h.onPipe_ok e).trans
      (congrArg Host.Outcome.next (pipeDone_of_none (stagedBy_of_not_ok ha id .stageR) s q).symm)

/-- A command that is no Pipe command is not in the row of the port (R90). -/
theorem AtPipe.foreign_onlyAnswers (h : AtPipe id c s) (hi : isPipeCommand i = false) :
    onlyAnswers i s ⟨.illegalCmd, 0, 0⟩ :=
  wrongPortAnswersIllegal i s (by rw [h.1, acceptedAt_pipePort, hi, Bool.and_false])

/-- At a port of a Pipe every command is its operation on that Pipe (R90, R224). -/
theorem AtPipe.exec_eq (h : AtPipe id c s) (i : Instr) :
    exec i s = pipeOutcome s id i (pipeOp s.cfg id c (getPipe s id) i) := by
  cases i with
  | init | claimW | claimR | finalizeW n | finalizeR | abortW | abortR =>
    rw [exec]
    exact h.onPipe_thisPipe rfl fun _ => rfl
  | queryW | queryR =>
    rw [exec]
    exact h.onPipe_thisPipe (by rw [pipeOp, onThisPipe?, onThisPipe, setPipe_getPipe]) fun _ => rfl
  | stageW m => exact h.exec_stageW_eq m
  | stageR => exact h.exec_stageR_eq
  | grantW | commit | read | release | fgrant | fcommit | ftoCommit | fdropW | fread | frelease | fautoRelease | fdropR
  | dpInit | idleStep =>
    refine (h.foreign_onlyAnswers rfl).trans (congrArg Host.Outcome.next ?_)
    rw [pipeDone_of_none rfl, setPipe_getPipe]
    rfl

/-! ## What the command does, by what its operation returns -/

theorem AtPipe.exec_of_error {e : Fault} (h : AtPipe id c s)
    (hop : pipeOp s.cfg id c (getPipe s id) i = .error e) : exec i s = .fault e := by
  rw [h.exec_eq, hop]
  rfl

theorem AtPipe.exec_of_ok (h : AtPipe id c s) (hop : pipeOp s.cfg id c (getPipe s id) i = .ok (q, a)) :
    exec i s = .next (pipeDone s id i q a) := by
  rw [h.exec_eq, hop]
  rfl

/-- Without an event the next state differs in the Pipe and the response. -/
theorem AtPipe.exec_silent (h : AtPipe id c s) (hop : pipeOp s.cfg id c (getPipe s id) i = .ok (q, a))
    (hno : stagedBy id i a = none) : exec i s = .next (pipeNext s id q a) := by
  rw [h.exec_of_ok hop, pipeDone_of_none hno]
  cases id <;> rfl

/-- A staging command emits its event as well (R224). -/
theorem AtPipe.exec_staging {e : Staged} (h : AtPipe id c s)
    (hop : pipeOp s.cfg id c (getPipe s id) i = .ok (q, a)) (hst : stagedBy id i a = some e) :
    exec i s = .next { pipeNext s id q a with events := s.events ++ [e] } := by
  rw [h.exec_of_ok hop, pipeDone_of_some hst]
  cases id <;> rfl

/-- A command whose operation leaves the Pipe as it is only answers. -/
theorem AtPipe.exec_unchanged (h : AtPipe id c s)
    (hop : pipeOp s.cfg id c (getPipe s id) i = .ok (getPipe s id, a)) (hno : stagedBy id i a = none) :
    onlyAnswers i s a := by
  rw [onlyAnswers, h.exec_of_ok hop, pipeDone_of_none hno, setPipe_getPipe]
  rfl

/-- A command that answers does so as its operation says. -/
theorem AtPipe.exec_next (h : AtPipe id c s) (e : exec i s = .next t) :
    ∃ q a, pipeOp s.cfg id c (getPipe s id) i = .ok (q, a) ∧ t = pipeDone s id i q a := by
  cases hop : pipeOp s.cfg id c (getPipe s id) i with
  | error f => rw [h.exec_of_error hop] at e; cases e
  | ok x => rw [h.exec_of_ok hop] at e; cases e; exact ⟨x.1, x.2, rfl, rfl⟩

end

end Sys2Proof.Machine
end

section
/-! PROOF. The Pipe commands (R182 to R199): each operation of a Pipe, one case after the other, and the statements
about the commands, which are these operations at their port. -/

namespace Sys2Proof.Machine

section
variable {p : Pipe}

/-! ## `INIT` (R182, R183) -/

theorem pipeInit_of_inited (hi : p.inited = true) (cfg : Config) : pipeInit cfg p = (p, bare .notInit) := by
  rw [pipeInit, if_pos hi]

theorem pipeInit_of_not_inited (hi : p.inited = false) (cfg : Config) :
    pipeInit cfg p = ({ Pipe.reset cfg.n with
      inited := true
      ring := { Ring.reset cfg.n with buf := p.ring.buf, drawn := p.ring.drawn } }, bare .ok) := by
  rw [pipeInit, if_neg (by simp [hi])]

/-- Before `INIT` the operation of every other Pipe command stops at its first test (R183). -/
theorem pipeOp_of_not_inited {i : Instr} (hi : p.inited = false) (hpipe : isPipeCommand i = true) (hne : i ≠ .init)
    (cfg : Config) (id : PipeId) (c : Ctx) : pipeOp cfg id c p i = .ok (p, bare .notInit) := by
  cases i with
  | init => exact absurd rfl hne
  | stageW m => rw [pipeOp, pipeStageW, hi]; rfl
  | stageR => rw [pipeOp, pipeStageR, hi]; rfl
  | claimW => rw [pipeOp, pipeClaimW, hi]; rfl
  | claimR => rw [pipeOp, pipeClaimR, hi]; rfl
  | finalizeW n => rw [pipeOp, pipeFinalizeW, hi]; rfl
  | finalizeR => rw [pipeOp, pipeFinalizeR, hi]; rfl
  | abortW => rw [pipeOp, pipeAbortW, hi]; rfl
  | abortR => rw [pipeOp, pipeAbortR, hi]; rfl
  | queryW => rw [pipeOp, pipeQueryW, hi]; rfl
  | queryR => rw [pipeOp, pipeQueryR, hi]; rfl
  | grantW | commit | read | release | fgrant | fcommit | ftoCommit | fdropW | fread | frelease | fautoRelease | fdropR
  | dpInit | idleStep => cases hpipe

end

/-- Settles O37: both refusals leave the Pipe as it is, and `NOT_INIT` stages nothing. -/
theorem notInitBeforeInit : Obligations.NotInitBeforeInit := by
  intro s id c i h hpipe
  refine ⟨fun hi hne => ?_, fun hi heq => ?_⟩
  · exact h.exec_unchanged (pipeOp_of_not_inited hi hpipe hne s.cfg id c)
      (stagedBy_of_not_ok (a := bare .notInit) nofun id i)
  · subst heq
    exact h.exec_unchanged (congrArg Except.ok (pipeInit_of_inited hi s.cfg)) rfl

theorem AtPipe.exec_notInit {id : PipeId} {c : Ctx} {s : State} {i : Instr} (h : AtPipe id c s)
    (hi : (getPipe s id).inited = false) (hpipe : isPipeCommand i = true) (hne : i ≠ .init) :
    onlyAnswers i s ⟨.notInit, 0, 0⟩ :=
  (notInitBeforeInit s id c i h hpipe).1 hi hne

/-- Settles O36: the operation tests whether the Pipe is initialised. -/
theorem initMakesPipeReady : Obligations.InitMakesPipeReady := by
  refine ⟨fun w hw => by rw [decode, hw]; rfl, fun s id c h => ⟨fun hi => ?_, fun hi => ?_⟩⟩
  · exact (notInitBeforeInit s id c .init h rfl).2 hi rfl
  · exact h.exec_silent (congrArg Except.ok (pipeInit_of_not_inited hi s.cfg)) rfl

section
variable {cfg : Config} {p : Pipe} {r : Ring} {a : Resp}

/-! ## `STAGE_W` (R184, R186) -/

theorem pipeStageW_of_staged (hi : p.inited = true) (hs : p.wrState ≠ .idle) (cfg : Config) (m : Nat) :
    pipeStageW cfg m p = (p, bare .noopStaged) := by
  simp [pipeStageW, hi, hs]

theorem pipeStageW_of_refused {m : Nat} (hi : p.inited = true) (hs : p.wrState = .idle)
    (hg : frameGrant cfg m p.ring = (p.ring, a)) (ha : a.status ≠ .ok) : pipeStageW cfg m p = (p, a) := by
  rw [pipeStageW, if_neg (by simp [hi]), if_neg (by simp [hs]), hg]
  exact if_neg ha

theorem pipeStageW_of_granted {m ptr len : Nat} (hi : p.inited = true) (hs : p.wrState = .idle)
    (hg : frameGrant cfg m p.ring = (r, ⟨.ok, ptr, len⟩)) :
    pipeStageW cfg m p = ({ p with ring := r, wrSlot := true, wrPtr := ptr, wrLen := len, wrState := .grantReady },
      ⟨.ok, ptr, len⟩) := by
  simp [pipeStageW, hi, hs, hg]

/-- Without an outstanding grant a frame that is out of range or has no place is refused for its size (R152, R153). -/
theorem frameGrant_of_no_room {m : Nat} (hw : r.wip = false)
    (hno : (cfg.hdrMode = .fixed2 ∧ 65535 < m) ∨ ¬ ∃ start, Placed cfg.n (m + hdrSize cfg.hdrMode m) r start) :
    frameGrant cfg m r = (r, bare .insufficientSize) := by
  cases hr : hdrInRange cfg.hdrMode m with
  | false => exact frameGrant_of_not_inRange hr r
  | true =>
    refine frameGrant_of_not_placed hr hw (hno.resolve_left ?_)
    rintro ⟨hmode, hbig⟩
    rcases hdrInRange_iff.1 hr with hv | hsmall
    · simp [hmode] at hv
    · omega

/-- `GRANT_IN_PROGRESS` is the answer to an outstanding grant only (R125). -/
theorem frameGrant_status_ne_grantInProgress (hw : r.wip = false) (cfg : Config) (m : Nat) :
    (frameGrant cfg m r).2.status ≠ .grantInProgress := by
  cases hr : hdrInRange cfg.hdrMode m with
  | false =>
    rw [frameGrant_of_not_inRange hr]
    nofun
  | true =>
    by_cases hplace : ∃ start, Placed cfg.n (m + hdrSize cfg.hdrMode m) r start
    · obtain ⟨start, hp⟩ := hplace
      rw [frameGrant_of_placed hr hw hp]
      nofun
    · rw [frameGrant_of_not_placed hr hw hplace]
      nofun

/-- On a legal Pipe an idle direction has no grant in progress (R33, R184). -/
theorem LegalPipe.stageW_ne_grantInProgress (h : LegalPipe cfg p) (m : Nat) :
    (pipeStageW cfg m p).2.status ≠ .grantInProgress := by
  rcases pipeStageW_cases cfg m p with ⟨-, e⟩ | ⟨-, -, e⟩ | ⟨st, -, hs, -, hg, e⟩ | ⟨r, a, -, -, -, -, e⟩ <;> rw [e]
  · nofun
  · nofun
  · have hne := frameGrant_status_ne_grantInProgress (h.write.flag.1 hs) cfg m
    rwa [hg] at hne
  · nofun

/-! ## `STAGE_R` (R186, R187) -/

theorem pipeStageR_of_staged (hi : p.inited = true) (hs : p.rdState ≠ .idle) (cfg : Config) (free : Nat → Byte) :
    pipeStageR cfg free p = .ok (p, bare .noopStaged) := by
  simp [pipeStageR, hi, hs]

theorem pipeStageR_of_fault {free : Nat → Byte} {e : Fault} (hi : p.inited = true) (hs : p.rdState = .idle)
    (hf : frameRead cfg free p.ring = .error e) : pipeStageR cfg free p = .error e := by
  simp [pipeStageR, hi, hs, hf]

theorem pipeStageR_of_refused {free : Nat → Byte} (hi : p.inited = true) (hs : p.rdState = .idle)
    (hf : frameRead cfg free p.ring = .ok (r, a)) (ha : a.status ≠ .ok) :
    pipeStageR cfg free p = .ok ({ p with ring := r }, a) := by
  simp [pipeStageR, hi, hs, hf, ha]

theorem pipeStageR_of_found {free : Nat → Byte} {ptr len : Nat} (hi : p.inited = true) (hs : p.rdState = .idle)
    (hf : frameRead cfg free p.ring = .ok (r, ⟨.ok, ptr, len⟩)) :
    pipeStageR cfg free p =
      .ok ({ p with ring := r, rdSlot := true, rdPtr := ptr, rdLen := len, rdState := .grantReady },
        ⟨.ok, ptr, len⟩) := by
  simp [pipeStageR, hi, hs, hf]

/-- `GRANT_IN_PROGRESS` is the answer to an outstanding grant only (R133). -/
theorem frameRead_status_ne_grantInProgress {free : Nat → Byte} {r' : Ring} (hr : r.rip = false)
    (e : frameRead cfg free r = .ok (r', a)) : a.status ≠ .grantInProgress := by
  rcases frameRead_cases cfg free r with ⟨hrip, -⟩ | ⟨-, -, h⟩ | ⟨-, -, h⟩
  · simp [hr] at hrip
  · rw [h] at e
    cases e
    nofun
  · obtain ⟨hl, n, k, -, -, rfl, -⟩ := narrowToFrame_ok (h ▸ e)
    nofun

/-- On a legal Pipe an idle direction has no grant in progress (R33, R187). -/
theorem LegalPipe.stageR_ne_grantInProgress {free : Nat → Byte} {q : Pipe} (h : LegalPipe cfg p)
    (e : pipeStageR cfg free p = .ok (q, a)) : a.status ≠ .grantInProgress := by
  rcases pipeStageR_cases cfg free p with ⟨-, h'⟩ | ⟨-, -, h'⟩ | ⟨f, -, -, -, h'⟩ | ⟨r, b, -, hs, hf, -, h'⟩ |
      ⟨r, b, -, -, -, -, h'⟩ <;> (rw [h'] at e; cases e)
  · nofun
  · nofun
  · exact frameRead_status_ne_grantInProgress (h.read.flag.1 hs) hf
  · nofun

/-! ## `CLAIM_W` and `CLAIM_R` (R189, R190) -/

theorem pipeClaimW_of_ready (hi : p.inited = true) (hs : p.wrState = .grantReady) (c : Ctx) :
    pipeClaimW c p = ({ p with wrState := .grantBusy, wrClaim := some c }, ⟨.ok, p.wrPtr, p.wrLen⟩) := by
  simp [pipeClaimW, hi, hs]

theorem pipeClaimW_of_not_ready (hi : p.inited = true) (hs : p.wrState ≠ .grantReady) (c : Ctx) :
    pipeClaimW c p = (p, bare .notReady) := by
  simp [pipeClaimW, hi, hs]

theorem pipeClaimR_of_ready (hi : p.inited = true) (hs : p.rdState = .grantReady) (c : Ctx) :
    pipeClaimR c p = ({ p with rdState := .grantBusy, rdClaim := some c }, ⟨.ok, p.rdPtr, p.rdLen⟩) := by
  simp [pipeClaimR, hi, hs]

theorem pipeClaimR_of_not_ready (hi : p.inited = true) (hs : p.rdState ≠ .grantReady) (c : Ctx) :
    pipeClaimR c p = (p, bare .notReady) := by
  simp [pipeClaimR, hi, hs]

/-! ## `FINALIZE_W` and `FINALIZE_R` (R192, R194) -/

theorem pipeFinalizeW_of_busy {n : Nat} (hi : p.inited = true) (hs : p.wrState = .grantBusy)
    (hc : frameCommit cfg n p.ring = .ok (r, a)) : pipeFinalizeW cfg n p =
      .ok ({ p with ring := r, wrSlot := false, wrState := .idle, wrClaim := none }, bare .ok) := by
  simp [pipeFinalizeW, hi, hs, hc]

theorem pipeFinalizeW_of_not_busy (hi : p.inited = true) (hs : p.wrState ≠ .grantBusy) (cfg : Config) (n : Nat) :
    pipeFinalizeW cfg n p = .ok (p, bare .badState) := by
  simp [pipeFinalizeW, hi, hs]

theorem pipeFinalizeR_of_busy (hi : p.inited = true) (hs : p.rdState = .grantBusy)
    (hrel : frameRelease p.ring = (r, a)) : pipeFinalizeR p =
      ({ p with ring := r, rdSlot := false, rdState := .idle, rdClaim := none }, bare .ok) := by
  simp [pipeFinalizeR, hi, hs, hrel]

theorem pipeFinalizeR_of_not_busy (hi : p.inited = true) (hs : p.rdState ≠ .grantBusy) :
    pipeFinalizeR p = (p, bare .badState) := by
  simp [pipeFinalizeR, hi, hs]

/-! ## `ABORT_W` and `ABORT_R` (R196, R197) -/

theorem pipeAbortW_of_ready (hi : p.inited = true) (hs : p.wrState = .grantReady)
    (hd : frameDropW cfg (frameToCommit 0 p.ring).1 = .ok (r, a)) :
    pipeAbortW cfg p = .ok ({ p with ring := r, wrSlot := false, wrState := .idle }, bare .ok) := by
  simp [pipeAbortW, hi, hs, hd]

theorem pipeAbortW_of_not_ready (hi : p.inited = true) (hs : p.wrState ≠ .grantReady) (cfg : Config) :
    pipeAbortW cfg p = .ok (p, bare .badState) := by
  simp [pipeAbortW, hi, hs]

/-- The drop of an abort gives the framed write grant up and moves no cursor (R196, R198). -/
theorem frameDropW_toCommit_zero {g : Grant} {f : FrameW} (hw : r.wip = true) (hg : r.wg = some g)
    (hf : r.fw = some f) (cfg : Config) : frameDropW cfg (frameToCommit 0 r).1 =
      .ok (clearWriteGrant { r with fw := none, reserve := r.write }, bare .ok) := by
  rw [frameToCommit_of_grant hw hf]
  exact frameDropW_of_zero (r := { r with fw := some ⟨f.hdrLen, 0⟩ }) hw hg rfl rfl cfg

theorem pipeAbortR_of_ready (hi : p.inited = true) (hs : p.rdState = .grantReady)
    (hd : frameDropR (frameAutoRelease false p.ring).1 = (r, a)) :
    pipeAbortR p = ({ p with ring := r, rdSlot := false, rdState := .idle }, bare .ok) := by
  simp [pipeAbortR, hi, hs, hd]

theorem pipeAbortR_of_not_ready (hi : p.inited = true) (hs : p.rdState ≠ .grantReady) :
    pipeAbortR p = (p, bare .badState) := by
  simp [pipeAbortR, hi, hs]

/-- The drop of an abort gives the framed read grant up and moves no cursor (R197, R198). -/
theorem frameDropR_autoRelease_false {g : Grant} {f : FrameR} (hr : r.rip = true) (hg : r.rg = some g)
    (hf : r.fr = some f) :
    frameDropR (frameAutoRelease false r).1 = (clearReadGrant { r with fr := none }, bare .ok) := by
  rw [frameAutoRelease_of_grant hr hf]
  exact frameDropR_of_keep (r := { r with fr := some ⟨f.hdrLen, false⟩ }) hr hg rfl rfl

/-! ## `QUERY_W` and `QUERY_R` (R199) -/

theorem pipeQueryW_of_idle (hi : p.inited = true) (hs : p.wrState = .idle) : pipeQueryW p = bare .notReady := by
  simp [pipeQueryW, hi, hs]

theorem pipeQueryW_of_staged (hi : p.inited = true) (hs : p.wrState ≠ .idle) :
    pipeQueryW p = ⟨.ok, p.wrPtr, p.wrLen⟩ := by
  simp [pipeQueryW, hi, hs]

theorem pipeQueryR_of_idle (hi : p.inited = true) (hs : p.rdState = .idle) : pipeQueryR p = bare .notReady := by
  simp [pipeQueryR, hi, hs]

theorem pipeQueryR_of_staged (hi : p.inited = true) (hs : p.rdState ≠ .idle) :
    pipeQueryR p = ⟨.ok, p.rdPtr, p.rdLen⟩ := by
  simp [pipeQueryR, hi, hs]

end

/-! ## The status in the response (R97) -/

/-- The status field tells the status: the nine codes differ (R97). -/
theorem ofNat_statusCode_inj {st st' : Status} :
    BitVec.ofNat 8 (statusCode st) = BitVec.ofNat 8 (statusCode st') ↔ st = st' := by
  cases st <;> cases st' <;> decide

theorem respStatus_respWord (a : Resp) : respStatus (respWord a) = BitVec.ofNat 8 (statusCode a.status) :=
  (responseWordLayout.2 a).2.1

theorem respStatus_eq_zero_iff (a : Resp) : respStatus (respWord a) = 0 ↔ a.status = .ok := by
  rw [respStatus_respWord]
  exact ofNat_statusCode_inj (st' := .ok)

theorem status_eq_of_respWord_eq {a b : Resp} (h : respWord a = respWord b) : a.status = b.status := by
  rw [← ofNat_statusCode_inj, ← respStatus_respWord, ← respStatus_respWord, h]

/-- A command whose operation does not return a status does not answer it. -/
theorem AtPipe.resp_ne_of_status {id : PipeId} {c : Ctx} {s t : State} {i : Instr} {st : Status} (h : AtPipe id c s)
    (hop : ∀ q a, pipeOp s.cfg id c (getPipe s id) i = .ok (q, a) → a.status ≠ st) (e : exec i s = .next t) :
    t.resp ≠ some (s.cur, respWord ⟨st, 0, 0⟩) := by
  obtain ⟨q, a, hq, rfl⟩ := h.exec_next e
  intro hresp
  rw [pipeDone_resp] at hresp
  exact hop q a hq (status_eq_of_respWord_eq (Prod.mk.inj (Option.some.inj hresp)).2)

/-! ## The statements -/

/-- Settles O38: each status is that of the `FGRANT` inside, unless a grant is staged already. -/
theorem stageWStagesGrant : Obligations.StageWStagesGrant := by
  refine ⟨fun w hw => by rw [decode, hw]; rfl, fun s id c m h =>
    ⟨fun hi => h.exec_notInit hi rfl nofun, fun hi => ⟨fun hs => ?_, fun hs hw hno => ?_, fun start hs hw hr hp => ?_⟩,
      fun hlegal t => h.resp_ne_of_status fun q a e => ?_⟩⟩
  · exact h.exec_unchanged (congrArg Except.ok (pipeStageW_of_staged hi hs s.cfg m)) rfl
  · exact h.exec_unchanged (congrArg Except.ok (pipeStageW_of_refused hi hs (frameGrant_of_no_room hw hno) nofun)) rfl
  · have hgrant := frameGrant_of_placed (hdrInRange_iff.2 hr) hw hp
    exact h.exec_staging (congrArg Except.ok (pipeStageW_of_granted hi hs hgrant)) rfl
  · have hne := (hlegal.legalPipe id h.levelHasPipes).stageW_ne_grantInProgress m
    rwa [Except.ok.inj e] at hne

/-- Settles O39: each status, and the fault, is that of the `FREAD` inside, unless a frame is staged already. -/
theorem stageRStagesFrame : Obligations.StageRStagesFrame := by
  refine ⟨fun w hw => by rw [decode, hw]; rfl, fun s id c h =>
    ⟨fun hi => h.exec_notInit hi rfl nofun, fun hi => ⟨fun hs => ?_, fun hs hr h0 => ?_,
      fun hl n hs hr hd hfits hend => ?_, fun b hs hr hpos hend hb hbad => ?_,
      fun hl n hs hr hend hd hle hlarge => ?_⟩,
      fun hlegal t => h.resp_ne_of_status fun q a e => ?_⟩⟩
  · exact h.exec_unchanged (pipeStageR_of_staged hi hs s.cfg _) rfl
  · exact h.exec_silent (pipeStageR_of_refused hi hs (frameRead_of_empty hr h0 _ _) nofun) rfl
  · have hfound := frameRead_of_header (free := Config.freeByte id) hr hd (by omega) hend
    rw [if_neg (by omega)] at hfound
    exact h.exec_staging (pipeStageR_of_found hi hs hfound) rfl
  · exact h.exec_of_error (pipeStageR_of_fault hi hs (frameRead_of_bad_size hr hpos hend hb hbad))
  · have hfault := frameRead_of_header (free := Config.freeByte id) hr hd hle hend
    rw [if_pos hlarge] at hfault
    exact h.exec_of_error (pipeStageR_of_fault hi hs hfault)
  · exact (hlegal.legalPipe id h.levelHasPipes).stageR_ne_grantInProgress e

/-- Settles O40: each claim tests the tag of its direction. -/
theorem claimsTakeStagedGrants : Obligations.ClaimsTakeStagedGrants := by
  refine ⟨fun w hw => by rw [decode, hw]; rfl, fun w hw => by rw [decode, hw]; rfl, fun s id c h =>
    ⟨fun hi => ⟨h.exec_notInit hi rfl nofun, h.exec_notInit hi rfl nofun⟩,
      fun hi => ⟨fun hs => ?_, fun hs => ?_, fun hs => ?_, fun hs => ?_⟩⟩⟩
  · exact h.exec_unchanged (congrArg Except.ok (pipeClaimW_of_not_ready hi hs c)) rfl
  · exact h.exec_silent (congrArg Except.ok (pipeClaimW_of_ready hi hs c)) rfl
  · exact h.exec_unchanged (congrArg Except.ok (pipeClaimR_of_not_ready hi hs c)) rfl
  · exact h.exec_silent (congrArg Except.ok (pipeClaimR_of_ready hi hs c)) rfl

/-- Settles O41: the claimed grant is finished by the `FCOMMIT` inside. -/
theorem finalizeWCommitsFrame : Obligations.FinalizeWCommitsFrame := by
  refine ⟨fun w hw => by rw [decode, hw]; rfl, fun s id c n h =>
    ⟨fun hi => h.exec_notInit hi rfl nofun, fun hi => ⟨fun hs => ?_, fun g f hs hw hg hf hle hend hc => ?_⟩⟩⟩
  · exact h.exec_unchanged (pipeFinalizeW_of_not_busy hi hs s.cfg n) rfl
  · have hcommit := frameCommit_of_grant hw hg hf hle hend hc
    rw [framePublished_eq _ _ _ _ hc.size.1] at hcommit
    exact ⟨_, headerStored_setBytes _ g.start hc, h.exec_silent (pipeFinalizeW_of_busy hi hs hcommit) rfl⟩

/-- Settles O42: the claimed frame is finished by the `FRELEASE` inside. -/
theorem finalizeRReleasesFrame : Obligations.FinalizeRReleasesFrame := by
  refine ⟨fun w hw => by rw [decode, hw]; rfl, fun s id c h =>
    ⟨fun hi => h.exec_notInit hi rfl nofun, fun hi => ⟨fun hs => ?_, fun g hs hr hg => ?_⟩⟩⟩
  · exact h.exec_unchanged (congrArg Except.ok (pipeFinalizeR_of_not_busy hi hs)) rfl
  · exact h.exec_silent (congrArg Except.ok (pipeFinalizeR_of_busy hi hs (frameRelease_of_grant hr hg))) rfl

/-- Settles O43: the staged grant is finished by an `FDROP_W` that commits nothing. -/
theorem abortWDiscardsGrant : Obligations.AbortWDiscardsGrant := by
  refine ⟨fun w hw => by rw [decode, hw]; rfl, fun s id c h =>
    ⟨fun hi => h.exec_notInit hi rfl nofun, fun hi => ⟨fun hs => ?_, fun g f hs hw hg hf => ?_⟩⟩⟩
  · exact h.exec_unchanged (pipeAbortW_of_not_ready hi hs s.cfg) rfl
  · exact h.exec_silent (pipeAbortW_of_ready hi hs (frameDropW_toCommit_zero hw hg hf s.cfg)) rfl

/-- Settles O44: the staged frame is finished by an `FDROP_R` that releases nothing. -/
theorem abortRKeepsFrame : Obligations.AbortRKeepsFrame := by
  refine ⟨fun w hw => by rw [decode, hw]; rfl, fun s id c h =>
    ⟨fun hi => h.exec_notInit hi rfl nofun, fun hi => ⟨fun hs => ?_, fun g f hs hr hg hf => ?_⟩⟩⟩
  · exact h.exec_unchanged (congrArg Except.ok (pipeAbortR_of_not_ready hi hs)) rfl
  · exact h.exec_silent (congrArg Except.ok (pipeAbortR_of_ready hi hs (frameDropR_autoRelease_false hr hg hf))) rfl

/-- Settles O45: each query tests the tag of its direction. -/
theorem queriesAnswer : Obligations.QueriesAnswer := by
  refine ⟨fun w hw => by rw [decode, hw]; rfl, fun w hw => by rw [decode, hw]; rfl, fun s id c h =>
    ⟨fun hi => ⟨h.exec_notInit hi rfl nofun, h.exec_notInit hi rfl nofun⟩,
      fun hi => ⟨fun hs => ?_, fun hs => ?_, fun hs => ?_, fun hs => ?_⟩⟩⟩
  · exact h.exec_unchanged (by rw [pipeOp, pipeQueryW_of_idle hi hs]; rfl) rfl
  · exact h.exec_unchanged (by rw [pipeOp, pipeQueryW_of_staged hi hs]) rfl
  · exact h.exec_unchanged (by rw [pipeOp, pipeQueryR_of_idle hi hs]; rfl) rfl
  · exact h.exec_unchanged (by rw [pipeOp, pipeQueryR_of_staged hi hs]) rfl

end Sys2Proof.Machine
end

section
/-! PROOF. The transition function of the two state tags of a Pipe (R200): a command of one direction moves the tag of
that direction as the table says, and leaves the tag of the other one alone (R32). -/

namespace Sys2Proof.Machine

/-- The tag of the writing direction after a command, which has answered `OK` or not (R200). -/
def wrTagAfter (i : Instr) (ok : Prop) [Decidable ok] (tag : Tag) : Tag :=
  match i, tag with
  | .stageW _, .idle => if ok then .grantReady else .idle
  | .claimW, .grantReady => .grantBusy
  | .finalizeW _, .grantBusy => .idle
  | .abortW, .grantReady => .idle
  | _, tag => tag

/-- The tag of the reading direction after a command, which has answered `OK` or not (R200). -/
def rdTagAfter (i : Instr) (ok : Prop) [Decidable ok] (tag : Tag) : Tag :=
  match i, tag with
  | .stageR, .idle => if ok then .grantReady else .idle
  | .claimR, .grantReady => .grantBusy
  | .finalizeR, .grantBusy => .idle
  | .abortR, .grantReady => .idle
  | _, tag => tag

section
variable {cfg : Config} {id : PipeId} {c : Ctx} {p q : Pipe} {a : Resp}

/-! ## The other direction (R32) -/

/-- An operation that ignores `d` leaves alone what `d` pins down. -/
theorem Ignores.fixed {d : Pipe → Pipe} {op : Pipe → Except Fault (Pipe × Resp)} (h : Ignores d op) (hd : d p = p)
    (e : op p = .ok (q, a)) : d q = q := by
  have hsame := h p q a e
  rw [hd, e] at hsame
  exact (Prod.mk.inj (Except.ok.inj hsame)).1.symm

theorem Ignores.wrState {op : Pipe → Except Fault (Pipe × Resp)} (h : Ignores (withWriter p.wrState p.wrSlot) op)
    (e : op p = .ok (q, a)) : q.wrState = p.wrState :=
  (congrArg Pipe.wrState (h.fixed rfl e)).symm

theorem Ignores.rdState {op : Pipe → Except Fault (Pipe × Resp)} (h : Ignores (withReader p.rdState p.rdSlot) op)
    (e : op p = .ok (q, a)) : q.rdState = p.rdState :=
  (congrArg Pipe.rdState (h.fixed rfl e)).symm

/-! ## The writing direction (R184, R189, R192, R196) -/

theorem pipeStageW_wrState {m : Nat} (hi : p.inited = true) (e : pipeStageW cfg m p = (q, a)) :
    q.wrState = wrTagAfter (.stageW m) (a.status = .ok) p.wrState := by
  rcases pipeStageW_cases cfg m p with ⟨hno, -⟩ | ⟨-, hs, h⟩ | ⟨st, -, hs, hst, -, h⟩ | ⟨r, b, -, hs, -, -, h⟩
  · simp [hi] at hno
  · rw [h] at e
    cases e
    cases htag : p.wrState with
    | idle => exact absurd htag hs
    | grantReady | grantBusy => rfl
  · have hne : st ≠ .ok := by rintro rfl; simp at hst
    rw [h] at e
    cases e
    rw [hs]
    exact (if_neg hne).symm
  · rw [h] at e
    cases e
    rw [hs]
    rfl

theorem pipeClaimW_wrState (hi : p.inited = true) (e : pipeClaimW c p = (q, a)) (ok : Prop) [Decidable ok] :
    q.wrState = wrTagAfter .claimW ok p.wrState := by
  cases hs : p.wrState with
  | grantReady =>
    rw [pipeClaimW_of_ready hi hs] at e
    cases e
    rfl
  | idle | grantBusy =>
    rw [pipeClaimW_of_not_ready hi (by simp [hs])] at e
    cases e
    exact hs

theorem pipeFinalizeW_wrState {n : Nat} (hi : p.inited = true) (e : pipeFinalizeW cfg n p = .ok (q, a)) (ok : Prop)
    [Decidable ok] : q.wrState = wrTagAfter (.finalizeW n) ok p.wrState := by
  cases hs : p.wrState with
  | grantBusy =>
    rcases pipeFinalizeW_cases cfg n p with ⟨hno, -⟩ | ⟨-, hno, -⟩ | ⟨f, -, -, -, h⟩ | ⟨r, b, -, -, -, h⟩
    · simp [hi] at hno
    · exact absurd hs hno
    · rw [h] at e; cases e
    · rw [h] at e; cases e; rfl
  | idle | grantReady =>
    rw [pipeFinalizeW_of_not_busy hi (by simp [hs])] at e
    cases e
    exact hs

theorem pipeAbortW_wrState (hi : p.inited = true) (e : pipeAbortW cfg p = .ok (q, a)) (ok : Prop) [Decidable ok] :
    q.wrState = wrTagAfter .abortW ok p.wrState := by
  cases hs : p.wrState with
  | grantReady =>
    rcases pipeAbortW_cases cfg p with ⟨hno, -⟩ | ⟨-, hno, -⟩ | ⟨f, -, -, -, h⟩ | ⟨r, b, -, -, -, h⟩
    · simp [hi] at hno
    · exact absurd hs hno
    · rw [h] at e; cases e
    · rw [h] at e; cases e; rfl
  | idle | grantBusy =>
    rw [pipeAbortW_of_not_ready hi (by simp [hs])] at e
    cases e
    exact hs

/-! ## The reading direction (R187, R190, R194, R197) -/

theorem pipeStageR_rdState {free : Nat → Byte} (hi : p.inited = true) (e : pipeStageR cfg free p = .ok (q, a)) :
    q.rdState = rdTagAfter .stageR (a.status = .ok) p.rdState := by
  rcases pipeStageR_cases cfg free p with ⟨hno, -⟩ | ⟨-, hs, h⟩ | ⟨f, -, -, -, h⟩ | ⟨r, b, -, hs, -, hb, h⟩ |
      ⟨r, b, -, hs, -, -, h⟩
  · simp [hi] at hno
  · rw [h] at e
    cases e
    cases htag : p.rdState with
    | idle => exact absurd htag hs
    | grantReady | grantBusy => rfl
  · rw [h] at e
    cases e
  · rw [h] at e
    cases e
    rw [hs]
    exact (if_neg hb).symm
  · rw [h] at e
    cases e
    rw [hs]
    rfl

theorem pipeClaimR_rdState (hi : p.inited = true) (e : pipeClaimR c p = (q, a)) (ok : Prop) [Decidable ok] :
    q.rdState = rdTagAfter .claimR ok p.rdState := by
  cases hs : p.rdState with
  | grantReady =>
    rw [pipeClaimR_of_ready hi hs] at e
    cases e
    rfl
  | idle | grantBusy =>
    rw [pipeClaimR_of_not_ready hi (by simp [hs])] at e
    cases e
    exact hs

theorem pipeFinalizeR_rdState (hi : p.inited = true) (e : pipeFinalizeR p = (q, a)) (ok : Prop) [Decidable ok] :
    q.rdState = rdTagAfter .finalizeR ok p.rdState := by
  cases hs : p.rdState with
  | grantBusy =>
    rw [pipeFinalizeR_of_busy hi hs rfl] at e
    cases e
    rfl
  | idle | grantReady =>
    rw [pipeFinalizeR_of_not_busy hi (by simp [hs])] at e
    cases e
    exact hs

theorem pipeAbortR_rdState (hi : p.inited = true) (e : pipeAbortR p = (q, a)) (ok : Prop) [Decidable ok] :
    q.rdState = rdTagAfter .abortR ok p.rdState := by
  cases hs : p.rdState with
  | grantReady =>
    rw [pipeAbortR_of_ready hi hs rfl] at e
    cases e
    rfl
  | idle | grantBusy =>
    rw [pipeAbortR_of_not_ready hi (by simp [hs])] at e
    cases e
    exact hs

/-! ## Every command (R200) -/

theorem pipeOp_wrState {i : Instr} (hi : p.inited = true) (e : pipeOp cfg id c p i = .ok (q, a)) :
    q.wrState = wrTagAfter i (a.status = .ok) p.wrState := by
  cases i with
  | stageW m => exact pipeStageW_wrState hi (Except.ok.inj e)
  | claimW => exact pipeClaimW_wrState hi (Except.ok.inj e) _
  | finalizeW n => exact pipeFinalizeW_wrState hi e _
  | abortW => exact pipeAbortW_wrState hi e _
  | stageR => exact (pipeStageR_withWriter cfg _ _ _).wrState e
  | claimR => exact (pipeClaimR_withWriter c _ _).wrState e
  | finalizeR => exact (pipeFinalizeR_withWriter _ _).wrState e
  | abortR => exact (pipeAbortR_withWriter _ _).wrState e
  | init => rw [pipeOp, pipeInit_of_inited hi] at e; cases e; rfl
  | queryW | queryR | grantW | commit | read | release | fgrant | fcommit | ftoCommit | fdropW | fread | frelease
  | fautoRelease | fdropR | dpInit | idleStep => cases e; rfl

theorem pipeOp_rdState {i : Instr} (hi : p.inited = true) (e : pipeOp cfg id c p i = .ok (q, a)) :
    q.rdState = rdTagAfter i (a.status = .ok) p.rdState := by
  cases i with
  | stageR => exact pipeStageR_rdState hi e
  | claimR => exact pipeClaimR_rdState hi (Except.ok.inj e) _
  | finalizeR => exact pipeFinalizeR_rdState hi (Except.ok.inj e) _
  | abortR => exact pipeAbortR_rdState hi (Except.ok.inj e) _
  | stageW m => exact (pipeStageW_withReader cfg m _ _).rdState e
  | claimW => exact (pipeClaimW_withReader c _ _).rdState e
  | finalizeW n => exact (pipeFinalizeW_withReader cfg n _ _).rdState e
  | abortW => exact (pipeAbortW_withReader cfg _ _).rdState e
  | init => rw [pipeOp, pipeInit_of_inited hi] at e; cases e; rfl
  | queryW | queryR | grantW | commit | read | release | fgrant | fcommit | ftoCommit | fdropW | fread | frelease
  | fautoRelease | fdropR | dpInit | idleStep => cases e; rfl

end

/-- Settles O46: the tags after the operation of the command, whose status the response tells. -/
theorem pipeTransitionFunction : Obligations.PipeTransitionFunction := by
  intro s t id c i w h hi e hresp
  obtain ⟨q, a, hq, rfl⟩ := h.exec_next e
  rw [pipeDone_resp] at hresp
  obtain rfl : respWord a = w := (Prod.mk.inj (Option.some.inj hresp)).2
  have hwr := pipeOp_wrState hi hq
  have hrd := pipeOp_rdState hi hq
  simp only [← respStatus_eq_zero_iff] at hwr hrd
  rw [getPipe_pipeDone_same]
  exact ⟨hwr, hrd, fun k hk => getPipe_pipeDone_other hk i q a⟩

end Sys2Proof.Machine
end

section
/-! PROOF. A frame through an empty Pipe (R203): staged, claimed and finalized on the writing side, it is what the next
`STAGE_R` finds. -/

namespace Sys2Proof.Machine

/-- A run of one command at a port of a Pipe leaves the Pipe that its operation leaves, and answers its response. -/
theorem runAt_pipe {cfg : Config} {id : PipeId} {s : State} {i : Instr} {p q : Pipe} {a : Resp} (hcfg : s.cfg = cfg)
    (hpipe : getPipe s id = p) (hp : HasPipe cfg.level id) (c : Ctx) (hop : pipeOp cfg id c p i = .ok (q, a)) :
    ∃ t, runAt [(.pipe id c, i)] s = some t ∧ t.cfg = cfg ∧ getPipe t id = q ∧
      t.resp = some (.pipe id c, respWord a) := by
  subst hcfg hpipe
  have hport : AtPipe id c { s with cur := .pipe id c } := ⟨rfl, hp⟩
  have hsame : getPipe { s with cur := .pipe id c } id = getPipe s id := by cases id <;> rfl
  exact ⟨_, runAt_cons (hport.exec_of_ok (hsame ▸ hop)), pipeDone_cfg .., getPipe_pipeDone_same .., pipeDone_resp ..⟩

/-- Settles O48: the four operations one after the other, each on the Pipe that the one before leaves. -/
theorem pipeEndToEnd : Obligations.PipeEndToEnd := by
  intro s id c d m n start hs hp hi hwr hrd hempty hmode hnm h hplaced
  have hlegal : LegalPipe s.cfg (getPipe s id) :=
    hs.legalPipe id (AtPipe.levelHasPipes (c := c) (s := { s with cur := .pipe id c }) ⟨rfl, hp⟩)
  have hrange := hdrInRange_iff.2 hmode
  have hend : start + (m + h) ≤ s.cfg.n := by
    have := hlegal.ring.ring.cursors_le
    rcases hplaced.of_empty hempty with ⟨-, hfits⟩ | ⟨hstart, hlow⟩ <;> omega
  have hcarries : HeaderCarries s.cfg.hdrMode h n := by
    have hsize := hs.config_wf.2.1
    exact (hdrSize_carries hrange (by omega)).mono hnm
  have hgrant := frameGrant_of_placed hrange (hlegal.write.flag.1 hwr) hplaced
  have hcommit := frameCommit_frameGranted (r := (getPipe s id).ring) hnm hend hcarries
  have hfound := frameRead_framePublished (r := frameGranted s.cfg m start (getPipe s id).ring) (p := n) hplaced hempty
    (hlegal.read.flag.1 hrd) (by omega) hend hcarries (Config.freeByte id)
  obtain ⟨t, hrun₁, hcfg₁, hpipe₁, hresp₁⟩ := runAt_pipe (i := .stageW m) rfl rfl hp c
    (congrArg Except.ok (pipeStageW_of_granted hi hwr hgrant))
  obtain ⟨u, hrun₂, hcfg₂, hpipe₂, hresp₂⟩ := runAt_pipe (i := .claimW) hcfg₁ hpipe₁ hp d
    (congrArg Except.ok (pipeClaimW_of_ready (by exact hi) rfl d))
  obtain ⟨v, hrun₃, hcfg₃, hpipe₃, -⟩ := runAt_pipe (i := .finalizeW n) hcfg₂ hpipe₂ hp d
    (pipeFinalizeW_of_busy (by exact hi) rfl hcommit)
  obtain ⟨x, hrun₄, -, hpipe₄, hresp₄⟩ := runAt_pipe (i := .stageR) hcfg₃ hpipe₃ hp c
    (pipeStageR_of_found (by exact hi) (by exact hrd) hfound)
  have hwrite : (getPipe v id).ring.write = start + (h + n) := by
    rw [hpipe₃]
    exact framePublished_write _ hcarries.size.1
  exact ⟨t, u, v, x, hrun₁, by rw [hpipe₁], hresp₁, hrun₂, by rw [hpipe₂], hresp₂, hrun₃, by rw [hpipe₃], hwrite,
    hrun₄, by rw [hpipe₄], hresp₄⟩

end Sys2Proof.Machine
end

section
/-! PROOF. The DataPipes commands at the `DP` port (R221, R223, R70): each attempt of an `IDLE_STEP` is the staging that
the command of its turn makes at its Pipe, and four of them in a row end the `IDLE_STEP`. -/

namespace Sys2Proof.Machine

/-! ## Commands at the `DP` port (R221, R223) -/

/-- At the `DP` port a DataPipes command does what its operation does (R90). -/
theorem AtDp.onDp_eq {s : State} (h : AtDp s) (op : Except Fault State) : onDp s op = idleOutcome op :=
  if_pos h

/-- With both Pipes initialised `IDLE_STEP` makes its first attempt (R223). -/
theorem AtDp.exec_idleStep {s : State} (h : AtDp s) (h0 : s.p0.inited = true) (h1 : s.p1.inited = true) :
    exec .idleStep s = idleOutcome (idleAttempt .p0w 0 s) := by
  rw [exec, execIdleStep, h.onDp_eq, if_pos ⟨h0, h1⟩]

/-! ## The staging of an attempt (R223) -/

/-- What the command of an attempt does to its Pipe, to the pending events, and what it returns. -/
def stageOfAttempt (s : State) : Attempt → Except Fault (State × Resp)
  | .p0w => .ok (stageWOn .p0 s.cfg.stageMax s)
  | .p0r => stageROn .p0 s
  | .p1w => .ok (stageWOn .p1 s.cfg.stageMax s)
  | .p1r => stageROn .p1 s

section
variable {s t : State} {k : Attempt} {a : Resp}

/-- A staging has come out: one Pipe is replaced, and one event is emitted exactly if the response is `OK` (R224). -/
def StagesOnce (s t : State) (a : Resp) : Prop :=
  ∃ id q, (a.status = .ok ∧ ∃ e, t = emit (setPipe s id q) e) ∨ (a.status ≠ .ok ∧ t = setPipe s id q)

theorem stageWOn_stagesOnce {id : PipeId} {m : Nat} (h : stageWOn id m s = (t, a)) : StagesOnce s t a := by
  rcases stageWOn_cases id m s with ⟨hok, e⟩ | ⟨hno, e⟩ <;> (rw [e] at h; cases h)
  · exact ⟨id, _, .inl ⟨hok, _, rfl⟩⟩
  · exact ⟨id, _, .inr ⟨hno, rfl⟩⟩

theorem stageROn_stagesOnce {id : PipeId} (h : stageROn id s = .ok (t, a)) : StagesOnce s t a := by
  rcases stageROn_cases id s with ⟨f, -, e⟩ | ⟨q, b, -, hok, e⟩ | ⟨q, b, -, hno, e⟩ <;> (rw [e] at h; cases h)
  · exact ⟨id, _, .inl ⟨hok, _, rfl⟩⟩
  · exact ⟨id, _, .inr ⟨hno, rfl⟩⟩

theorem stageOfAttempt_stagesOnce (h : stageOfAttempt s k = .ok (t, a)) : StagesOnce s t a := by
  cases k with
  | p0w | p1w => exact stageWOn_stagesOnce (Except.ok.inj h)
  | p0r | p1r => exact stageROn_stagesOnce h

/-- A staging reads no port. -/
theorem stageOfAttempt_port (h : stageOfAttempt s k = .ok (t, a)) (p : Port) :
    stageOfAttempt { s with cur := p } k = .ok ({ t with cur := p }, a) := by
  cases k with
  | p0w | p1w =>
    have hstage := Except.ok.inj h
    exact congrArg Except.ok ((stageWOn_port _ _ s p).1.trans (by rw [hstage]))
  | p0r | p1r =>
    refine (stageROn_port _ s p).trans ?_
    rw [stageOfAttempt] at h
    rw [h]

theorem stageOfAttempt_port_fault {f : Fault} (h : stageOfAttempt s k = .error f) (p : Port) :
    stageOfAttempt { s with cur := p } k = .error f := by
  cases k with
  | p0w | p1w => cases h
  | p0r | p1r =>
    refine (stageROn_port _ s p).trans ?_
    rw [stageOfAttempt] at h
    rw [h]

/-- The command of an attempt, at the port of its Pipe, is the staging and its answer. -/
theorem exec_attemptCommand (hl : s.cfg.level = .datapipes) (h : stageOfAttempt s k = .ok (t, a)) :
    let turn := attemptCommand s.cfg.stageMax k
    exec turn.2 { s with cur := .pipe turn.1 .lp } = .next (answer { t with cur := .pipe turn.1 .lp } a) := by
  have hport (id : PipeId) : AtPipe id .lp { s with cur := .pipe id .lp } := ⟨rfl, .inl hl⟩
  have hstage := stageOfAttempt_port h (.pipe (attemptCommand s.cfg.stageMax k).1 .lp)
  cases k with
  | p0w | p0r | p1w | p1r =>
    simp only [attemptCommand, exec]
    exact (hport _).onPipe_ok hstage

theorem exec_attemptCommand_fault {f : Fault} (hl : s.cfg.level = .datapipes) (h : stageOfAttempt s k = .error f) :
    let turn := attemptCommand s.cfg.stageMax k
    exec turn.2 { s with cur := .pipe turn.1 .lp } = .fault f := by
  have hport (id : PipeId) : AtPipe id .lp { s with cur := .pipe id .lp } := ⟨rfl, .inl hl⟩
  have hstage := stageOfAttempt_port_fault h (.pipe (attemptCommand s.cfg.stageMax k).1 .lp)
  cases k with
  | p0w | p0r | p1w | p1r =>
    simp only [attemptCommand, exec]
    exact (hport _).onPipe_fault hstage

/-- An attempt is its staging, and a success is counted (R223). -/
theorem idleAttempt_of_staged (hcur : s.cur = .dp) (hresp : s.resp = none) (h : stageOfAttempt s k = .ok (t, a))
    (count : Nat) : idleAttempt k count s = .ok (attemptDone k (countOk count a) t) := by
  obtain ⟨hcur', hresp'⟩ : t.cur = .dp ∧ t.resp = none := by
    obtain ⟨id, q, ⟨-, e, rfl⟩ | ⟨-, rfl⟩⟩ := stageOfAttempt_stagesOnce h <;> simp [hcur, hresp]
  cases k with
  | p0w | p1w =>
    have hstage := Except.ok.inj h
    simp only [idleAttempt, hstage, attemptDone, nextAttempt, ← hcur', ← hresp']
  | p0r | p1r =>
    rw [stageOfAttempt] at h
    simp only [idleAttempt, h, attemptDone, nextAttempt, answer, ← hcur', ← hresp']

theorem idleAttempt_of_fault {f : Fault} (h : stageOfAttempt s k = .error f) (count : Nat) :
    idleAttempt k count s = .error f := by
  cases k with
  | p0w | p1w => cases h
  | p0r | p1r =>
    rw [stageOfAttempt] at h
    rw [idleAttempt, h]

/-- The port and the answer of the command of an attempt do not stay: the `DP` port is the loop's, and `IDLE_STEP`
answers for itself. -/
theorem attemptDone_answer (k : Attempt) (count : Nat) (t : State) (p : Port) (a : Resp) :
    attemptDone k count (answer { t with cur := p } a) = attemptDone k count t := by
  cases k <;> rfl

/-- The response tells whether the attempt is counted (R97, R223). -/
theorem countOk_eq (count : Nat) (a : Resp) :
    countOk count a = if respStatus (respWord a) = 0 then count + 1 else count := by
  simp only [countOk, respStatus_eq_zero_iff]

end

/-! ## The next step of the loop (R242, log 6) -/

/-- With no handler to hold it back the loop may go on with its `IDLE_STEP` (R241, R242). -/
theorem ctxMayStep_of_continuesLoop {s : State} {x : Action} (h : s.cfg.sched = .any ∨ s.handlers = 0)
    (hx : continuesLoop x = true) : ctxMayStep s x .lp = true :=
  (ctxMayStep_iff s x .lp).2 (h.imp_right fun h0 => .inl ⟨rfl, h0, .inr hx⟩)

theorem actionEnabled_resume {s : State} {run : IdleRun} (h : s.cfg.sched = .any ∨ s.handlers = 0)
    (hi : s.idle = some run) : actionEnabled s .resume = true := by
  simp [actionEnabled, actionCtx?, ctxMayStep_of_continuesLoop (x := .resume) h rfl, hi]

theorem actionEnabled_dp {s : State} (h : s.cfg.sched = .any ∨ s.handlers = 0) (w : Word) :
    actionEnabled s (.cmd .dp w) = true := by
  simp [actionEnabled, actionCtx?, portCtx, ctxMayStep_of_continuesLoop (x := .cmd .dp w) h rfl]

/-- A running `IDLE_STEP` makes its next attempt by `resume`, or before a command that waits at the `DP` port. -/
theorem step_idleRun {s : State} {run : IdleRun} {rest : List Action} (hl : s.cfg.level = .datapipes)
    (hi : s.idle = some run) (h : s.cfg.sched = .any ∨ s.handlers = 0)
    (hin : s.inputs = .resume :: rest ∨ (∃ w more, s.inputs = .cmd .dp w :: more ∧ rest = s.inputs)) :
    step s = resumeIdle run rest s := by
  rcases hin with hres | ⟨w, more, hcmd, rfl⟩
  · exact step_resume hres hi (actionEnabled_resume h hi)
  · refine step_of_done ((fetch_command hcmd (actionEnabled_dp h w)).trans ?_)
    simp [fetchCommand, hl, hasPort, hi]

/-! ## Four attempts in a row (R223) -/

/-- A state of the loop in its `IDLE_STEP`: `count` attempts have returned `OK` since the events were `before`, with one
event each, and none has answered; `rest` is still scheduled. -/
structure Attempting (before : List Staged) (count : Nat) (rest : List Action) (s : State) : Prop where
  legal : StateInv s
  level : s.cfg.level = .datapipes
  admitted : s.cfg.sched = .any ∨ s.handlers = 0
  inputs : s.inputs = rest
  cur : s.cur = .dp
  resp : s.resp = none
  counted : ∃ evs, s.events = before ++ evs ∧ evs.length = count

section
variable {before : List Staged} {count : Nat} {rest : List Action} {s : State} {k k' : Attempt}

/-- In a legal state an attempt comes out, and has added as many events as successes. -/
theorem Attempting.staged (h : Attempting before count rest s) (k : Attempt) :
    ∃ t evs, idleAttempt k count s = .ok (attemptDone k evs.length t) ∧ evs.length ≤ count + 1 ∧
      t.events = before ++ evs ∧ t.cfg = s.cfg ∧ t.handlers = s.handlers ∧ t.inputs = s.inputs := by
  have hpipes : levelHasPipes s.cfg.level = true := by rw [h.level]; rfl
  obtain ⟨⟨t, a⟩, ht⟩ : ∃ x, stageOfAttempt s k = .ok x := by
    cases k with
    | p0w | p1w => exact ⟨_, rfl⟩
    | p0r | p1r => exact h.legal.stageROn_answers hpipes _
  have hattempt := idleAttempt_of_staged h.cur h.resp ht count
  obtain ⟨evs, hevs, rfl⟩ := h.counted
  obtain ⟨id, q, ⟨hok, e, rfl⟩ | ⟨hno, rfl⟩⟩ := stageOfAttempt_stagesOnce ht
  · exact ⟨_, evs ++ [e], by rw [hattempt, countOk, if_pos hok, List.length_append]; rfl, by simp,
      by simp [hevs], by simp, by simp, by simp⟩
  · exact ⟨_, evs, by rw [hattempt, countOk, if_neg hno], by omega, by simp [hevs], by simp, by simp, by simp⟩

/-- After any attempt but the last the loop is still in its `IDLE_STEP`. -/
theorem Attempting.attempt (h : Attempting before count rest s) (hk : nextAttempt k = some k') :
    ∃ t count', idleAttempt k count s = .ok t ∧ count' ≤ count + 1 ∧ Attempting before count' rest t ∧
      t.idle = some ⟨k', count'⟩ := by
  obtain ⟨t, evs, ht, hle, hevs, hcfg, hhand, hin⟩ := h.staged k
  have hlegal := h.legal.idleAttempt h.level ht
  simp only [attemptDone, hk] at ht hlegal
  exact ⟨_, evs.length, ht, hle,
    { legal := hlegal
      level := by rw [← h.level, ← hcfg]
      admitted := by simpa only [hcfg, hhand] using h.admitted
      inputs := hin.trans h.inputs
      cur := rfl
      resp := rfl
      counted := ⟨evs, hevs, rfl⟩ }, rfl⟩

/-- The last attempt answers with the number of successes. -/
theorem Attempting.last (h : Attempting before count rest s) :
    ∃ t evs, idleAttempt .p1r count s = .ok t ∧ t.idle = none ∧ t.inputs = rest ∧ t.events = before ++ evs ∧
      evs.length ≤ count + 1 ∧ t.resp = some (.dp, respWord ⟨.ok, 0, evs.length⟩) := by
  obtain ⟨t, evs, ht, hle, hevs, -, -, hin⟩ := h.staged .p1r
  exact ⟨_, evs, ht, rfl, hin.trans h.inputs, hevs, hle, rfl⟩

/-- The action `resume` makes the next attempt. -/
theorem Attempting.resume (h : Attempting before count (.resume :: rest) s) (hi : s.idle = some ⟨k, count⟩) :
    ∃ x, step s = idleOutcome (idleAttempt k count x) ∧ Attempting before count rest x :=
  ⟨{ startStep s rest with cur := .dp }, step_idleRun h.level hi h.admitted (.inl h.inputs),
    { legal := h.legal.of_same ⟨rfl, rfl, rfl, rfl⟩
      level := h.level
      admitted := h.admitted
      inputs := rfl
      cur := rfl
      resp := rfl
      counted := h.counted }⟩

theorem Attempting.step_next (h : Attempting before count (.resume :: rest) s) (hi : s.idle = some ⟨k, count⟩)
    (hk : nextAttempt k = some k') :
    ∃ t count', step s = .next t ∧ count' ≤ count + 1 ∧ Attempting before count' rest t ∧
      t.idle = some ⟨k', count'⟩ := by
  obtain ⟨x, hstep, hx⟩ := h.resume hi
  obtain ⟨t, count', ht, hle, hat, hidle⟩ := hx.attempt hk
  exact ⟨t, count', by rw [hstep, ht]; rfl, hle, hat, hidle⟩

/-- The command that starts an `IDLE_STEP` makes the first attempt (R223). -/
theorem step_idleStep (h : StateInv s) (hl : s.cfg.level = .datapipes) (hi : s.idle = none)
    (hsched : s.cfg.sched = .any ∨ s.handlers = 0) (h0 : s.p0.inited = true) (h1 : s.p1.inited = true)
    (hin : s.inputs = .cmd .dp 0x41000000 :: rest) :
    ∃ t count, step s = .next t ∧ count ≤ 1 ∧ Attempting s.events count rest t ∧ t.idle = some ⟨.p0r, count⟩ := by
  have harrive : canArrive .dp 0x41000000 s :=
    ⟨by rw [hl]; rfl, actionEnabled_dp hsched _, fun _ => hi, nofun, nofun⟩
  have hstep := stepRunsDecodedCommand s .dp 0x41000000 rest .idleStep hin harrive rfl
  have hat : AtDp (arrived .dp rest s) := ⟨hl, rfl⟩
  rw [hat.exec_idleStep h0 h1] at hstep
  have hready : Attempting s.events 0 rest (arrived .dp rest s) :=
    { legal := h.of_same ⟨rfl, rfl, rfl, rfl⟩
      level := hl
      admitted := hsched
      inputs := rfl
      cur := rfl
      resp := rfl
      counted := ⟨[], (List.append_nil _).symm, rfl⟩ }
  obtain ⟨t, count, ht, hle, hnext, hidle⟩ := hready.attempt (k := .p0w) rfl
  exact ⟨t, count, by rw [hstep, ht]; rfl, hle, hnext, hidle⟩

end

/-- A run of steps continues from the next state. -/
theorem runSteps_succ {s t : State} (n : Nat) (h : step s = .next t) : runSteps (n + 1) s = runSteps n t := by
  rw [runSteps, h]

/-! ## The statement -/

/-- The first attempt is the command `STAGE_W(STAGE_MAX)` on `P0` (R223). -/
theorem idleStep_first_attempt {s : State} (h : AtDp s) (h0 : s.p0.inited = true) (h1 : s.p1.inited = true) :
    ∃ u w, exec (.stageW s.cfg.stageMax) { s with cur := .pipe .p0 .lp } = .next u ∧
      u.resp = some (.pipe .p0 .lp, w) ∧ exec .idleStep s =
        .next { u with cur := .dp, resp := s.resp, idle := some ⟨.p0r, if respStatus w = 0 then 1 else 0⟩ } := by
  obtain ⟨-, hcur, hresp⟩ := stageWOn_port .p0 s.cfg.stageMax s .dp
  refine ⟨_, _, exec_attemptCommand (k := .p0w) h.1 rfl, rfl, ?_⟩
  rw [h.exec_idleStep h0 h1, ← countOk_eq 0, ← hresp, ← h.2, ← hcur]
  rfl

/-- Each later attempt is the command of its turn (R223). -/
theorem step_of_attempt {s : State} {k : Attempt} {count : Nat} {rest : List Action} (hl : s.cfg.level = .datapipes)
    (hi : s.idle = some ⟨k, count⟩) (h : s.cfg.sched = .any ∨ s.handlers = 0)
    (hin : s.inputs = .resume :: rest ∨ (∃ w more, s.inputs = .cmd .dp w :: more ∧ rest = s.inputs)) :
    let turn := attemptCommand s.cfg.stageMax k
    let o := exec turn.2 { startStep s rest with cur := .pipe turn.1 .lp }
    (∀ u w, o = .next u → u.resp = some (.pipe turn.1 .lp, w) →
      step s = .next (attemptDone k (if respStatus w = 0 then count + 1 else count) u)) ∧
    (∀ f, o = .fault f → step s = .fault f) := by
  intro turn o
  have hstep : step s = idleOutcome (idleAttempt k count { startStep s rest with cur := .dp }) :=
    step_idleRun hl hi h hin
  cases hx : stageOfAttempt { startStep s rest with cur := .dp } k with
  | error f =>
    have ho : o = .fault f := exec_attemptCommand_fault (s := { startStep s rest with cur := .dp }) hl hx
    rw [idleAttempt_of_fault hx] at hstep
    clear_value o
    subst ho
    refine ⟨fun u w hu => (by cases hu), fun g hg => ?_⟩
    cases hg
    exact hstep
  | ok x =>
    obtain ⟨t, a⟩ := x
    have ho : o = .next (answer { t with cur := .pipe turn.1 .lp } a) :=
      exec_attemptCommand (s := { startStep s rest with cur := .dp }) hl hx
    rw [idleAttempt_of_staged rfl rfl hx, countOk_eq] at hstep
    clear_value o
    subst ho
    refine ⟨fun u w hu hw => ?_, fun f hf => by cases hf⟩
    obtain rfl := Host.Outcome.next.inj hu
    obtain rfl : respWord a = w := (Prod.mk.inj (Option.some.inj hw)).2
    rw [hstep, attemptDone_answer]
    rfl

/-- Settles O51: an attempt is the staging that its command makes, and the four follow one another. -/
theorem idleStepTakesFourSteps : Obligations.IdleStepTakesFourSteps := by
  refine ⟨fun s h h0 h1 => idleStep_first_attempt h h0 h1,
    fun s k count rest hl hi hsched hin => step_of_attempt hl hi hsched hin,
    fun s rest h hl hi hsched h0 h1 hin => ?_⟩
  obtain ⟨t₁, c₁, e₁, hle₁, hat₁, hi₁⟩ := step_idleStep h hl hi hsched h0 h1 hin
  obtain ⟨t₂, c₂, e₂, hle₂, hat₂, hi₂⟩ := hat₁.step_next hi₁ rfl
  obtain ⟨t₃, c₃, e₃, hle₃, hat₃, hi₃⟩ := hat₂.step_next hi₂ rfl
  obtain ⟨x, e₄, hx⟩ := hat₃.resume hi₃
  obtain ⟨t₄, evs, ht₄, hidle, hinputs, hevs, hle₄, hresp⟩ := hx.last
  rw [ht₄] at e₄
  have hrun (n : Nat) : runSteps (n + 3) s = runSteps n t₃ := by
    rw [runSteps_succ _ e₁, runSteps_succ _ e₂, runSteps_succ _ e₃]
  exact ⟨⟨t₃, hrun 0, hat₃.resp, by rw [hi₃]; rfl⟩, t₄, evs, by rw [hrun 1, runSteps_succ 0 e₄]; rfl, hidle, hinputs,
    hevs, by omega, hresp⟩

end Sys2Proof.Machine
end

section
/-! PROOF. `DP_INIT` and the first step of `IDLE_STEP` (R221, R223): what each does to the two Pipes. -/

namespace Sys2Proof.Machine

/-! ## `DP_INIT` (R221) -/

/-- The Pipe that `INIT` leaves: a fresh one over the old storage, or the old one if it was initialised (R182, R183). -/
def readyPipe (n : Nat) (p : Pipe) : Pipe :=
  if p.inited then p
  else { Pipe.reset n with
    inited := true
    ring := { Ring.reset n with buf := p.ring.buf, drawn := p.ring.drawn } }

theorem pipeInit_fst (cfg : Config) (p : Pipe) : (pipeInit cfg p).1 = readyPipe cfg.n p := by
  rcases pipeInit_cases cfg p with ⟨hi, e⟩ | ⟨hi, e⟩ <;> simp only [e, readyPipe, hi] <;> rfl

theorem pipeInit_status_eq_ok_iff (cfg : Config) (p : Pipe) : (pipeInit cfg p).2.status = .ok ↔ p.inited = false := by
  rcases pipeInit_cases cfg p with ⟨hi, e⟩ | ⟨hi, e⟩ <;> simp [e, hi]

/-- At the `DP` port `DP_INIT` is `INIT` on each Pipe, and it answers whether both were `OK` (R221). -/
theorem AtDp.exec_dpInit {s : State} (h : AtDp s) :
    exec .dpInit s = .next (answer { s with p0 := readyPipe s.cfg.n s.p0, p1 := readyPipe s.cfg.n s.p1 }
      ⟨if s.p0.inited = false ∧ s.p1.inited = false then .ok else .notInit, 0, 0⟩) := by
  rw [exec, execDpInit, h.onDp_eq]
  simp only [pipeInit_fst, pipeInit_status_eq_ok_iff]
  split <;> rfl

/-- Settles O49: `INIT` on each of the two Pipes, initialised before or not. -/
theorem dpInitInitialisesBoth : Obligations.DpInitInitialisesBoth := by
  refine ⟨fun w hw => by rw [decode, hw]; rfl, fun s h => ?_⟩
  rw [h.exec_dpInit, answer, h.2]
  rfl

/-! ## The first step of `IDLE_STEP` (R223) -/

section
variable {s : State} {id : PipeId} {m : Nat} {q : Pipe} {a : Resp}

theorem stageWOn_of_ok (e : pipeStageW s.cfg m (getPipe s id) = (q, a)) (ha : a.status = .ok) :
    stageWOn id m s = (emit (setPipe s id q) ⟨id, .w, a.ptr, a.len⟩, a) := by
  rw [stageWOn, e]
  exact if_pos ha

theorem stageWOn_of_not_ok (e : pipeStageW s.cfg m (getPipe s id) = (q, a)) (ha : a.status ≠ .ok) :
    stageWOn id m s = (setPipe s id q, a) := by
  rw [stageWOn, e]
  exact if_neg ha

/-- A first attempt that comes to nothing leaves three attempts to make, and no success (R223). -/
theorem AtDp.exec_idleStep_failed (h : AtDp s) (h0 : s.p0.inited = true) (h1 : s.p1.inited = true)
    (e : pipeStageW s.cfg s.cfg.stageMax s.p0 = (s.p0, a)) (ha : a.status ≠ .ok) :
    exec .idleStep s = .next { s with idle := some ⟨.p0r, 0⟩ } := by
  rw [h.exec_idleStep h0 h1, idleAttempt, stageWOn_of_not_ok (id := .p0) e ha]
  simp only [countOk, if_neg ha]
  rfl

/-- A first attempt that succeeds leaves three attempts to make, and one success (R223). -/
theorem AtDp.exec_idleStep_staged (h : AtDp s) (h0 : s.p0.inited = true) (h1 : s.p1.inited = true)
    (e : pipeStageW s.cfg s.cfg.stageMax s.p0 = (q, a)) (ha : a.status = .ok) :
    exec .idleStep s = .next { s with
      p0 := q
      events := s.events ++ [⟨.p0, .w, a.ptr, a.len⟩]
      idle := some ⟨.p0r, 1⟩ } := by
  rw [h.exec_idleStep h0 h1, idleAttempt, stageWOn_of_ok (id := .p0) e ha]
  simp only [countOk, if_pos ha]
  rfl

end

/-- Unless both Pipes are initialised `IDLE_STEP` makes no attempt (R223). -/
theorem AtDp.idleStep_notInit {s : State} (h : AtDp s) (hno : s.p0.inited = false ∨ s.p1.inited = false) :
    onlyAnswers .idleStep s ⟨.notInit, 0, 0⟩ := by
  have hboth : ¬ (s.p0.inited = true ∧ s.p1.inited = true) := by
    rintro ⟨h0, h1⟩
    simp [h0, h1] at hno
  rw [onlyAnswers, exec, execIdleStep, h.onDp_eq, if_neg hboth]
  rfl

/-- Settles O50: the first attempt has the outcomes of `STAGE_W` on an initialised Pipe. -/
theorem idleStepStarts : Obligations.IdleStepStarts := by
  refine ⟨fun w hw => by rw [decode, hw]; rfl, fun s h =>
    ⟨h.idleStep_notInit, fun h0 h1 hs => ?_, fun h0 h1 hs hw hno => ?_, fun start h0 h1 hs hw hr hp => ?_⟩⟩
  · exact h.exec_idleStep_failed h0 h1 (pipeStageW_of_staged h0 hs s.cfg _) nofun
  · exact h.exec_idleStep_failed h0 h1 (pipeStageW_of_refused h0 hs (frameGrant_of_no_room hw hno) nofun) nofun
  · have hgrant := frameGrant_of_placed (hdrInRange_iff.2 hr) hw hp
    exact h.exec_idleStep_staged h0 h1 (pipeStageW_of_granted h0 hs hgrant) rfl

end Sys2Proof.Machine
end

section
/-! PROOF. The output events (R224): a staging emits one exactly if it answers `OK`, no other command but `IDLE_STEP`
emits any, and the glue takes the oldest. -/

namespace Sys2Proof.Machine

/-! ## The glue (R224, log 18) -/

theorem step_takeEvent {s : State} {rest : List Action} {e : Staged} {more : List Staged}
    (hs : s.inputs = .takeEvent :: rest) (he : s.events = e :: more) :
    step s = .next { startStep s rest with events := more } := by
  have hen : actionEnabled s .takeEvent = true := by simp [actionEnabled, actionCtx?, he]
  refine step_of_done ?_
  simp only [fetch, hs, hen, if_true, he, List.tail_cons]

theorem step_takeEvent_of_nil {s : State} {rest : List Action} (hs : s.inputs = .takeEvent :: rest)
    (he : s.events = []) : step s = .refused .stepNotEnabled :=
  step_disabled hs (by simp [actionEnabled, he])

/-! ## Commands without an event -/

theorem onRing_events {l : Level} {k : PortKind} {s t : State} {op : Ring → Except Fault (Ring × Resp)}
    (e : onRing l k s op = .next t) : t.events = s.events := by
  rcases onRing_cases l k s op with ⟨-, h⟩ | ⟨-, -, ⟨r, a, -, h⟩ | ⟨f, -, h⟩⟩ <;> (rw [h] at e; cases e)
  · rfl
  · rfl

theorem onPipe_events {s t : State} {op : PipeId → Ctx → Except Fault (State × Resp)}
    (hop : ∀ id c u a, op id c = .ok (u, a) → u.events = s.events) (e : onPipe s op = .next t) :
    t.events = s.events := by
  rcases onPipe_cases s op with ⟨-, h⟩ | ⟨id, c, -, -, ⟨u, a, hu, h⟩ | ⟨f, -, h⟩⟩ <;> (rw [h] at e; cases e)
  · rfl
  · exact hop id c u a hu

theorem onDp_events {s t : State} {op : Except Fault State} (hop : ∀ u, op = .ok u → u.events = s.events)
    (e : onDp s op = .next t) : t.events = s.events := by
  rcases onDp_cases s op with ⟨-, h⟩ | ⟨-, -, ⟨u, hu, h⟩ | ⟨f, -, h⟩⟩ <;> (rw [h] at e; cases e)
  · rfl
  · exact hop _ hu

/-- Only the staging commands and `IDLE_STEP` change the pending events (R224). -/
theorem exec_events {i : Instr} {s t : State} (hidle : i ≠ .idleStep) (hw : ∀ m, i ≠ .stageW m) (hr : i ≠ .stageR)
    (e : exec i s = .next t) : t.events = s.events := by
  cases i with (rw [exec] at e)
  | grantW | commit | read | release | fgrant | fcommit | ftoCommit | fdropW | fread | frelease | fautoRelease
  | fdropR => exact onRing_events e
  | init | claimW | claimR | finalizeR | abortR =>
    exact onPipe_events (fun id c u a h => by cases h; exact setPipe_events ..) e
  | finalizeW | abortW =>
    exact onPipe_events (fun id c u a h => by obtain ⟨q, -, rfl⟩ := onThisPipe?_ok h; exact setPipe_events ..) e
  | queryW | queryR => exact onPipe_events (fun id c u a h => by cases h; rfl) e
  | dpInit => exact onDp_events (fun u h => by cases h; rfl) e
  | stageW m => exact absurd rfl (hw m)
  | stageR => exact absurd rfl hr
  | idleStep => exact absurd rfl hidle

/-! ## Staging (R184, R187) -/

/-- A `STAGE_W` that fails returns its status alone (R184). -/
theorem pipeStageW_failed {cfg : Config} {m : Nat} {p q : Pipe} {a : Resp} (e : pipeStageW cfg m p = (q, a))
    (ha : a.status ≠ .ok) : a = bare a.status := by
  rcases pipeStageW_cases cfg m p with ⟨-, h⟩ | ⟨-, -, h⟩ | ⟨st, -, -, -, -, h⟩ | ⟨r, b, -, -, -, -, h⟩ <;>
    (rw [h] at e; cases e)
  case inr.inr.inr => exact absurd rfl ha
  all_goals rfl

/-- An `FREAD` that fails returns its status alone (R160). -/
theorem frameRead_failed {cfg : Config} {free : Nat → Byte} {r r' : Ring} {a : Resp}
    (e : frameRead cfg free r = .ok (r', a)) (ha : a.status ≠ .ok) : a = bare a.status := by
  rcases frameRead_cases cfg free r with ⟨-, h⟩ | ⟨-, -, h⟩ | ⟨-, -, h⟩ <;> rw [h] at e
  · cases e; rfl
  · cases e; rfl
  · obtain ⟨hl, p, k, -, -, rfl, -⟩ := narrowToFrame_ok e
    exact absurd rfl ha

/-- A `STAGE_R` that fails returns its status alone (R187). -/
theorem pipeStageR_failed {cfg : Config} {free : Nat → Byte} {p q : Pipe} {a : Resp}
    (e : pipeStageR cfg free p = .ok (q, a)) (ha : a.status ≠ .ok) : a = bare a.status := by
  rcases pipeStageR_cases cfg free p with ⟨-, h⟩ | ⟨-, -, h⟩ | ⟨f, -, -, -, h⟩ | ⟨r, b, -, -, hread, hb, h⟩ |
      ⟨r, b, -, -, -, -, h⟩ <;> (rw [h] at e; cases e)
  · rfl
  · rfl
  · exact frameRead_failed hread hb
  · exact absurd rfl ha

/-- A port of a Pipe that the level has is the port of that Pipe (R90). -/
theorem atPipe_of_hasPort {s : State} {id : PipeId} {c : Ctx} (hcur : s.cur = .pipe id c)
    (hport : hasPort s.cfg.level (.pipe id c) = true) : AtPipe id c s := by
  refine ⟨hcur, ?_⟩
  cases hl : s.cfg.level <;> cases id <;> simp [hl, hasPort] at hport ⊢

/-- A staging command of direction `d` at a port of a Pipe fails with its status alone and emits nothing, or answers
`OK` and emits the one event for what it answers (R224). -/
theorem exec_staging_events {s t : State} {id : PipeId} {c : Ctx} {d : Dir} {i : Instr} (hcur : s.cur = .pipe id c)
    (hfailed : ∀ q a, pipeOp s.cfg id c (getPipe s id) i = .ok (q, a) → a.status ≠ .ok → a = bare a.status)
    (hstaged : ∀ a : Resp, a.status = .ok → stagedBy id i a = some ⟨id, d, a.ptr, a.len⟩)
    (e : exec i s = .next t) :
    (∃ st, st ≠ Status.ok ∧ t.resp = some (s.cur, respWord ⟨st, 0, 0⟩) ∧ t.events = s.events) ∨
    (∃ ptr len, t.resp = some (s.cur, respWord ⟨.ok, ptr, len⟩) ∧ t.events = s.events ++ [⟨id, d, ptr, len⟩]) := by
  cases hport : hasPort s.cfg.level (.pipe id c) with
  | false =>
    have hillegal := wrongPortAnswersIllegal i s (by rw [hcur, acceptedAt_pipePort, hport, Bool.false_and])
    obtain rfl := Host.Outcome.next.inj (hillegal.symm.trans e)
    exact .inl ⟨.illegalCmd, nofun, rfl, rfl⟩
  | true =>
    obtain ⟨q, a, hop, rfl⟩ := (atPipe_of_hasPort hcur hport).exec_next e
    by_cases ha : a.status = .ok
    · refine .inr ⟨a.ptr, a.len, by rw [pipeDone_resp, ← ha], ?_⟩
      rw [pipeDone_of_some (hstaged a ha), answer_events, emit_events, setPipe_events]
    · refine .inl ⟨a.status, ha, (pipeDone_resp ..).trans (by rw [hfailed q a hop ha]; rfl), ?_⟩
      rw [pipeDone_of_none (stagedBy_of_not_ok ha id i), answer_events, setPipe_events]

/-- Settles O52: the event of a command is that of its staging. -/
theorem eventsExactlyOnStaging : Obligations.EventsExactlyOnStaging := by
  refine ⟨fun s rest hs => ⟨fun e more he => step_takeEvent hs he, fun he => step_takeEvent_of_nil hs he⟩,
    fun i s t e => ⟨fun hidle hw hr => exec_events hidle hw hr e, fun id c m hcur hi => ?_, fun id c hcur hi => ?_⟩⟩
  · subst hi
    exact exec_staging_events (i := .stageW m) hcur (fun q a h => pipeStageW_failed (Except.ok.inj h))
      (fun a ha => stagedBy_stageW ha id m) e
  · subst hi
    exact exec_staging_events (i := .stageR) hcur (fun q a h => pipeStageR_failed h)
      (fun a ha => stagedBy_stageR ha id) e

end Sys2Proof.Machine
end

section
/-! PROOF. Who may step under each scheduling discipline, and how a handler starts and ends (R240 to R242). -/

namespace Sys2Proof.Machine

/-! ## Steps of a context (R13, R242) -/

/-- Under `SINGLE_CORE_PRIORITY` the low-priority context steps while no handler is active, and inside an `IDLE_STEP`
only to go on with it (R241, R242; log 10). -/
theorem ctxMayStep_lp_iff {s : State} (h : s.cfg.sched = .singleCorePriority) (a : Action) :
    ctxMayStep s a .lp = true ↔ s.handlers = 0 ∧ (s.idle = none ∨ continuesLoop a = true) := by
  simp [ctxMayStep_iff, h]

/-- Under `SINGLE_CORE_PRIORITY` an interrupt context steps exactly while a handler is active (R242; log 10). -/
theorem ctxMayStep_hp_iff {s : State} (h : s.cfg.sched = .singleCorePriority) (a : Action) :
    ctxMayStep s a .hp = true ↔ s.handlers ≠ 0 := by
  simp [ctxMayStep_iff, h]

/-- The loop goes on by its next attempt or by a command for the `DP` port (log 6). -/
theorem continuesLoop_iff (a : Action) : continuesLoop a = true ↔ a = .resume ∨ ∃ w, a = .cmd .dp w := by
  cases a with
  | cmd p w => cases p <;> simp [continuesLoop]
  | bufWrite | bufRead | resume | handlerStart | handlerEnd | takeEvent => simp [continuesLoop]

theorem TakenBy.actionCtx?_eq {c : Ctx} {a : Action} (h : TakenBy c a) : actionCtx? a = some c := by
  rcases h with ⟨rfl, rfl⟩ | ⟨p, w, rfl, rfl⟩ | ⟨p, off, v, rfl, rfl⟩ | ⟨p, off, rfl, rfl⟩ <;> rfl

/-- A command or a byte access of a context is admitted exactly if the context may step (R242). -/
theorem TakenBy.actionEnabled_eq {c : Ctx} {a : Action} (h : TakenBy c a) (hne : a ≠ .resume) (s : State) :
    actionEnabled s a = ctxMayStep s a c := by
  rcases h with ⟨rfl, -⟩ | ⟨p, w, rfl, rfl⟩ | ⟨p, off, v, rfl, rfl⟩ | ⟨p, off, rfl, rfl⟩
  · exact absurd rfl hne
  · exact Bool.and_true _
  · exact Bool.and_true _
  · exact Bool.and_true _

/-- A step that is admitted is one of a context that may step (R242). -/
theorem TakenBy.ctxMayStep_of_enabled {c : Ctx} {a : Action} {s : State} (h : TakenBy c a)
    (he : actionEnabled s a = true) : ctxMayStep s a c = true := by
  by_cases hres : a = .resume
  · subst hres
    obtain rfl := Option.some.inj h.actionCtx?_eq
    exact (Bool.and_eq_true_iff.1 he).1
  · rwa [← h.actionEnabled_eq hres]

/-- A step of a context that may not step is refused (R242; log 10). -/
theorem TakenBy.step_refused {c : Ctx} {a : Action} {s : State} {rest : List Action} (h : TakenBy c a)
    (hs : s.inputs = a :: rest) (hno : ¬ ctxMayStep s a c = true) : step s = .refused .stepNotEnabled :=
  step_disabled hs (Bool.eq_false_iff.2 fun he => hno (h.ctxMayStep_of_enabled he))

/-! ## Handlers (R241, log 10) -/

theorem step_handlerStart {s : State} {rest : List Action} (hs : s.inputs = .handlerStart :: rest) :
    step s = .next { startStep s rest with handlers := s.handlers + 1 } :=
  step_of_done (by rw [fetch, hs]; rfl)

theorem step_handlerEnd {s : State} {rest : List Action} {k : Nat} (hs : s.inputs = .handlerEnd :: rest)
    (hk : s.handlers = k + 1) : step s = .next { startStep s rest with handlers := k } := by
  have henabled : actionEnabled s .handlerEnd = true := by simp [actionEnabled, actionCtx?, hk]
  refine step_of_done ?_
  simp only [fetch, hs, henabled, if_true, hk, Nat.add_sub_cancel]

theorem step_handlerEnd_of_none {s : State} {rest : List Action} (hs : s.inputs = .handlerEnd :: rest)
    (h0 : s.handlers = 0) : step s = .refused .stepNotEnabled :=
  step_disabled hs (by simp [actionEnabled, h0])

/-- Settles O10: a context's step is admitted as its context may step, and the other agents' steps are their own. -/
theorem handlersHoldBackTheLoop : Obligations.HandlersHoldBackTheLoop := by
  intro s a rest hs
  refine ⟨fun hany c ht hne => ?_, fun hprio => ⟨fun ht hactive => ?_, fun ht hidle hne hdp => ?_,
    fun ht h0 hidle hne => ?_, fun ha h0 hidle => ?_, fun ht h0 => ?_, fun ht hactive => ?_⟩,
    fun id d off v ha => ?_, fun id d off ha => ?_, fun ha => ?_, fun k ha hk => ?_, fun ha h0 => ?_⟩
  · rw [ht.actionEnabled_eq hne, ctxMayStep_iff]
    exact .inl hany
  · refine ht.step_refused hs ?_
    rw [ctxMayStep_lp_iff hprio]
    omega
  · refine ht.step_refused hs ?_
    rw [ctxMayStep_lp_iff hprio, continuesLoop_iff]
    rintro ⟨-, hnone | hres | ⟨w, hw⟩⟩
    · simp [hnone] at hidle
    · exact hne hres
    · exact hdp w hw
  · rw [ht.actionEnabled_eq hne, ctxMayStep_lp_iff hprio]
    exact ⟨h0, .inl hidle⟩
  · obtain ⟨run, hrun⟩ := Option.isSome_iff_exists.1 hidle
    rw [ha]
    exact actionEnabled_resume (.inr h0) hrun
  · refine ht.step_refused hs ?_
    rw [ctxMayStep_hp_iff hprio]
    exact fun hne => hne h0
  · have hne : a ≠ .resume := by
      rintro rfl
      cases ht.actionCtx?_eq
    rw [ht.actionEnabled_eq hne, ctxMayStep_hp_iff hprio]
    omega
  · exact step_bufWrite (ha ▸ hs) rfl
  · exact step_bufRead (ha ▸ hs) rfl
  · exact step_handlerStart (ha ▸ hs)
  · exact step_handlerEnd (ha ▸ hs) hk
  · exact step_handlerEnd_of_none (ha ▸ hs) h0

end Sys2Proof.Machine
end

section
/-! PROOF. A command that fails leaves the block as it was (R232): no operation changes anything before it answers a
status other than `OK`. For `EMPTY` this rests on R132: a `READ` that takes the wrap step finds bytes. -/

namespace Sys2Proof.Machine

/-! ## Operations that fail (R232) -/

/-- An operation that answers a status other than `OK` returns what it was given. -/
def UnchangedOnFailure {α : Type} (x : Except Fault (α × Resp)) (before : α) : Prop :=
  ∀ after a, x = .ok (after, a) → a.status ≠ .ok → after = before

theorem UnchangedOnFailure.same {α : Type} {before : α} {a : Resp} : UnchangedOnFailure (.ok (before, a)) before := by
  intro after b e _
  cases e
  rfl

theorem UnchangedOnFailure.of_ok {α : Type} {before after : α} {a : Resp} (ha : a.status = .ok) :
    UnchangedOnFailure (.ok (after, a)) before := by
  intro after' b e hb
  cases e
  exact absurd ha hb

theorem UnchangedOnFailure.of_error {α : Type} {f : Fault} {before : α} : UnchangedOnFailure (.error f) before :=
  nofun

/-! ## The ring (R122 to R134) -/

theorem ringGrantW_unchangedOnFailure (cap sz : Nat) (r : Ring) : UnchangedOnFailure (.ok (ringGrantW cap sz r)) r := by
  rcases ringGrantW_cases cap sz r with ⟨-, e⟩ | ⟨-, -, e⟩ | ⟨st, -, -, e⟩ <;> rw [e]
  · exact .same
  · exact .same
  · exact .of_ok rfl

theorem ringCommit_unchangedOnFailure (cap used : Nat) (r : Ring) :
    UnchangedOnFailure (.ok (ringCommit cap used r)) r := by
  rcases ringCommit_cases cap used r with ⟨g, -, -, e⟩ | ⟨-, e⟩ <;> rw [e]
  · exact .of_ok rfl
  · exact .same

/-- A `READ` that takes the wrap step finds the bytes of the lower region, so one that finds none has not taken it
(R132). -/
theorem RingInv.wrapRead_of_empty {n : Nat} {r : Ring} (h : RingInv n r) (h0 : readExtent (wrapRead r) = 0) :
    wrapRead r = r := by
  rcases wrapRead_cases r with ⟨-, hlt, e⟩ | ⟨-, e⟩
  · obtain ⟨-, hlower⟩ := h.inverted_ok hlt
    rw [e] at h0
    simp only [readExtent, Nat.not_lt_zero, if_false] at h0
    omega
  · exact e

theorem RingInv.read_unchangedOnFailure {n : Nat} {r : Ring} (h : RingInv n r) :
    UnchangedOnFailure (.ok (ringRead r)) r := by
  rcases ringRead_cases r with ⟨-, e⟩ | ⟨-, h0, e⟩ | ⟨-, -, e⟩ <;> rw [e]
  · exact .same
  · rw [h.wrapRead_of_empty h0]
    exact .same
  · exact .of_ok rfl

theorem ringRelease_unchangedOnFailure (used : Nat) (r : Ring) : UnchangedOnFailure (.ok (ringRelease used r)) r := by
  rcases ringRelease_cases used r with ⟨g, -, -, e⟩ | ⟨-, e⟩ <;> rw [e]
  · exact .of_ok rfl
  · exact .same

/-! ## The framed ring (R152 to R166) -/

theorem frameGrant_unchangedOnFailure (cfg : Config) (maxSz : Nat) (r : Ring) :
    UnchangedOnFailure (.ok (frameGrant cfg maxSz r)) r := by
  rcases frameGrant_cases cfg maxSz r with ⟨st, -, -, e⟩ | ⟨st, -, -, -, e⟩ <;> rw [e]
  · exact .same
  · exact .of_ok rfl

theorem LegalFramed.commit_unchangedOnFailure {cfg : Config} {r : Ring} (h : LegalFramed cfg r) (used : Nat) :
    UnchangedOnFailure (frameCommit cfg used r) r := by
  cases hw : r.wip with
  | false =>
    rw [frameCommit_of_not_wip hw]
    exact .same
  | true =>
    obtain ⟨g, f, p, -, -, -, -, -, -, e⟩ := h.frameCommit_eq used hw
    rw [e]
    exact .of_ok rfl

theorem frameToCommit_unchangedOnFailure (amt : Nat) (r : Ring) :
    UnchangedOnFailure (.ok (frameToCommit amt r)) r := by
  rcases frameToCommit_cases amt r with ⟨-, e⟩ | ⟨f, -, -, e⟩ <;> rw [e]
  · exact .same
  · exact .of_ok rfl

theorem LegalFramed.dropW_unchangedOnFailure {cfg : Config} {r : Ring} (h : LegalFramed cfg r) :
    UnchangedOnFailure (frameDropW cfg r) r := by
  rcases frameDropW_cases cfg r with ⟨-, e⟩ | ⟨f, hw, hf, h0, -⟩ | ⟨f, -, -, -, e⟩
  · rw [e]
    exact .same
  · obtain ⟨g, -, hg, -⟩ := h.framed.frame_write hw
    rw [frameDropW_of_zero hw hg hf h0]
    exact .of_ok rfl
  · rw [e]
    exact h.commit_unchangedOnFailure f.toCommit

theorem RingInv.frameRead_unchangedOnFailure {cfg : Config} {r : Ring} (h : RingInv cfg.n r) (free : Nat → Byte) :
    UnchangedOnFailure (frameRead cfg free r) r := by
  rcases frameRead_cases cfg free r with ⟨-, e⟩ | ⟨-, h0, e⟩ | ⟨-, -, e⟩ <;> rw [e]
  · exact .same
  · rw [h.wrapRead_of_empty h0]
    exact .same
  · intro r' a hnarrow ha
    obtain ⟨hl, p, k, -, -, rfl, -⟩ := narrowToFrame_ok hnarrow
    exact absurd rfl ha

theorem frameRelease_unchangedOnFailure (r : Ring) : UnchangedOnFailure (.ok (frameRelease r)) r := by
  rcases frameRelease_cases r with ⟨-, e⟩ | ⟨g, hr, hg, -⟩
  · rw [e]
    exact .same
  · rw [frameRelease_of_grant hr hg]
    exact .of_ok rfl

theorem frameAutoRelease_unchangedOnFailure (b : Bool) (r : Ring) :
    UnchangedOnFailure (.ok (frameAutoRelease b r)) r := by
  rcases frameAutoRelease_cases b r with ⟨-, e⟩ | ⟨f, -, -, e⟩ <;> rw [e]
  · exact .same
  · exact .of_ok rfl

theorem LegalFramed.dropR_unchangedOnFailure {cfg : Config} {r : Ring} (h : LegalFramed cfg r) :
    UnchangedOnFailure (.ok (frameDropR r)) r := by
  rcases frameDropR_cases r with ⟨-, e⟩ | ⟨f, -, -, -, e⟩ | ⟨f, hr, hf, ha, -⟩
  · rw [e]
    exact .same
  · rw [e]
    exact frameRelease_unchangedOnFailure r
  · obtain ⟨g, -, hg, -⟩ := h.framed.frame_read hr
    rw [frameDropR_of_keep hr hg hf ha]
    exact .of_ok rfl

/-! ## The Pipe (R182 to R199) -/

theorem pipeInit_unchangedOnFailure (cfg : Config) (p : Pipe) : UnchangedOnFailure (.ok (pipeInit cfg p)) p := by
  rcases pipeInit_cases cfg p with ⟨-, e⟩ | ⟨-, e⟩ <;> rw [e]
  · exact .same
  · exact .of_ok rfl

theorem pipeStageW_unchangedOnFailure (cfg : Config) (m : Nat) (p : Pipe) :
    UnchangedOnFailure (.ok (pipeStageW cfg m p)) p := by
  rcases pipeStageW_cases cfg m p with ⟨-, e⟩ | ⟨-, -, e⟩ | ⟨st, -, -, -, -, e⟩ | ⟨r, a, -, -, -, -, e⟩ <;> rw [e]
  · exact .same
  · exact .same
  · exact .same
  · exact .of_ok rfl

/-- A `STAGE_R` that fails hands on what `FREAD` left of the ring, which is the ring as it was (R187). -/
theorem LegalPipe.stageR_unchangedOnFailure {cfg : Config} {p : Pipe} (h : LegalPipe cfg p) (free : Nat → Byte) :
    UnchangedOnFailure (pipeStageR cfg free p) p := by
  rcases pipeStageR_cases cfg free p with ⟨-, e⟩ | ⟨-, -, e⟩ | ⟨f, -, -, -, e⟩ | ⟨r, a, -, -, hread, ha, e⟩ |
      ⟨r, a, -, -, -, -, e⟩ <;> rw [e]
  · exact .same
  · exact .same
  · exact .of_error
  · obtain rfl : r = p.ring := h.ring.ring.frameRead_unchangedOnFailure free r a hread ha
    exact .same
  · exact .of_ok rfl

theorem pipeClaimW_unchangedOnFailure (c : Ctx) (p : Pipe) : UnchangedOnFailure (.ok (pipeClaimW c p)) p := by
  rcases pipeClaimW_cases c p with ⟨-, e⟩ | ⟨-, -, e⟩ | ⟨-, -, e⟩ <;> rw [e]
  · exact .same
  · exact .same
  · exact .of_ok rfl

theorem pipeClaimR_unchangedOnFailure (c : Ctx) (p : Pipe) : UnchangedOnFailure (.ok (pipeClaimR c p)) p := by
  rcases pipeClaimR_cases c p with ⟨-, e⟩ | ⟨-, -, e⟩ | ⟨-, -, e⟩ <;> rw [e]
  · exact .same
  · exact .same
  · exact .of_ok rfl

theorem pipeFinalizeW_unchangedOnFailure (cfg : Config) (n : Nat) (p : Pipe) :
    UnchangedOnFailure (pipeFinalizeW cfg n p) p := by
  rcases pipeFinalizeW_cases cfg n p with ⟨-, e⟩ | ⟨-, -, e⟩ | ⟨f, -, -, -, e⟩ | ⟨r, a, -, -, -, e⟩ <;> rw [e]
  · exact .same
  · exact .same
  · exact .of_error
  · exact .of_ok rfl

theorem pipeFinalizeR_unchangedOnFailure (p : Pipe) : UnchangedOnFailure (.ok (pipeFinalizeR p)) p := by
  rcases pipeFinalizeR_cases p with ⟨-, e⟩ | ⟨-, -, e⟩ | ⟨-, -, e⟩ <;> rw [e]
  · exact .same
  · exact .same
  · exact .of_ok rfl

theorem pipeAbortW_unchangedOnFailure (cfg : Config) (p : Pipe) : UnchangedOnFailure (pipeAbortW cfg p) p := by
  rcases pipeAbortW_cases cfg p with ⟨-, e⟩ | ⟨-, -, e⟩ | ⟨f, -, -, -, e⟩ | ⟨r, a, -, -, -, e⟩ <;> rw [e]
  · exact .same
  · exact .same
  · exact .of_error
  · exact .of_ok rfl

theorem pipeAbortR_unchangedOnFailure (p : Pipe) : UnchangedOnFailure (.ok (pipeAbortR p)) p := by
  rcases pipeAbortR_cases p with ⟨-, e⟩ | ⟨-, -, e⟩ | ⟨-, -, e⟩ <;> rw [e]
  · exact .same
  · exact .same
  · exact .of_ok rfl

/-- On a legal Pipe no command changes the Pipe and fails. -/
theorem LegalPipe.pipeOp_unchangedOnFailure {cfg : Config} {p : Pipe} (h : LegalPipe cfg p) (id : PipeId) (c : Ctx)
    (i : Instr) : UnchangedOnFailure (pipeOp cfg id c p i) p := by
  cases i with
  | init => exact pipeInit_unchangedOnFailure cfg p
  | stageW m => exact pipeStageW_unchangedOnFailure cfg m p
  | stageR => exact h.stageR_unchangedOnFailure _
  | claimW => exact pipeClaimW_unchangedOnFailure c p
  | claimR => exact pipeClaimR_unchangedOnFailure c p
  | finalizeW n => exact pipeFinalizeW_unchangedOnFailure cfg n p
  | finalizeR => exact pipeFinalizeR_unchangedOnFailure p
  | abortW => exact pipeAbortW_unchangedOnFailure cfg p
  | abortR => exact pipeAbortR_unchangedOnFailure p
  | queryW | queryR | grantW | commit | read | release | fgrant | fcommit | ftoCommit | fdropW | fread | frelease
  | fautoRelease | fdropR | dpInit | idleStep => exact .same

/-! ## Commands at their ports (R90) -/

/-- From `s` to `t`: if what `t` answers is a status other than `OK`, the answer is all that is new. -/
def FailureOnlyAnswers (s t : State) : Prop :=
  ∀ w : RespWord, t.resp = some (s.cur, w) → respStatus w ≠ 0 → t = { s with resp := some (s.cur, w) }

theorem FailureOnlyAnswers.of_resp {s t : State} {p : Port} {a : Resp} (hresp : t.resp = some (p, respWord a))
    (ht : a.status ≠ .ok → t = Machine.answer s a) : FailureOnlyAnswers s t := by
  intro w hw hfail
  obtain rfl : respWord a = w := (Prod.mk.inj (Option.some.inj (hresp.symm.trans hw))).2
  exact ht ((respStatus_eq_zero_iff a).not.1 hfail)

theorem FailureOnlyAnswers.answer {s : State} {a : Resp} : FailureOnlyAnswers s (Machine.answer s a) :=
  .of_resp rfl fun _ => rfl

theorem FailureOnlyAnswers.of_resp_none {s t : State} (hresp : t.resp = none) : FailureOnlyAnswers s t := by
  intro w hw _
  rw [hresp] at hw
  cases hw

/-- A ring or framed command fails silently if its operation does at the level that runs it. -/
theorem onRing_failureOnlyAnswers {l : Level} {k : PortKind} {s t : State} {op : Ring → Except Fault (Ring × Resp)}
    (e : onRing l k s op = .next t) (hop : s.cfg.level = l → UnchangedOnFailure (op s.p0.ring) s.p0.ring) :
    FailureOnlyAnswers s t := by
  rcases onRing_cases l k s op with ⟨-, h⟩ | ⟨hl, -, ⟨r, a, hr, h⟩ | ⟨f, -, h⟩⟩ <;> (rw [h] at e; cases e)
  · exact .answer
  · refine .of_resp rfl fun ha => ?_
    rw [hop hl r a hr ha]

/-- At a port of a legal Pipe every command fails silently, and a staging that fails emits no event (R224). -/
theorem AtPipe.failureOnlyAnswers {id : PipeId} {c : Ctx} {i : Instr} {s t : State} (h : AtPipe id c s)
    (hlegal : LegalPipe s.cfg (getPipe s id)) (e : exec i s = .next t) : FailureOnlyAnswers s t := by
  obtain ⟨q, a, hop, rfl⟩ := h.exec_next e
  refine .of_resp (pipeDone_resp ..) fun ha => ?_
  rw [pipeDone_of_none (stagedBy_of_not_ok ha id i), hlegal.pipeOp_unchangedOnFailure id c i q a hop ha,
    setPipe_getPipe]

/-- Only the ports of Pipes list Pipe commands (R90). -/
theorem acceptedAt_elsewhere {i : Instr} {p : Port} (hpipe : isPipeCommand i = true) (hp : portKind p ≠ .pipe)
    (l : Level) : acceptedAt l p i = false := by
  cases p with
  | pipe id c => exact absurd rfl hp
  | producer c | consumer c | dp =>
    cases i with
    | init | stageW | stageR | claimW | claimR | finalizeW | finalizeR | abortW | abortR | queryW | queryR =>
      cases l <;> rfl
    | grantW | commit | read | release | fgrant | fcommit | ftoCommit | fdropW | fread | frelease | fautoRelease
    | fdropR | dpInit | idleStep => cases hpipe

/-- A port whose row lists a Pipe command is the port of a Pipe that the level has (R90). -/
theorem exists_atPipe_of_acceptedAt {i : Instr} {s : State} (hpipe : isPipeCommand i = true)
    (hacc : acceptedAt s.cfg.level s.cur i = true) : ∃ id c, AtPipe id c s := by
  cases hcur : s.cur with
  | pipe id c =>
    rw [hcur, acceptedAt_pipePort, hpipe, Bool.and_true] at hacc
    exact ⟨id, c, atPipe_of_hasPort hcur hacc⟩
  | producer c | consumer c | dp =>
    rw [acceptedAt_elsewhere hpipe (by rw [hcur]; nofun)] at hacc
    cases hacc

/-- A Pipe command fails silently at its port, and at any other it only answers `ILLEGAL_CMD` (R90, R167). -/
theorem StateInv.pipeCommand_failureOnlyAnswers {i : Instr} {s t : State} (h : StateInv s)
    (hpipe : isPipeCommand i = true) (e : Machine.exec i s = .next t) : FailureOnlyAnswers s t := by
  cases hacc : acceptedAt s.cfg.level s.cur i with
  | false =>
    obtain rfl := Host.Outcome.next.inj ((wrongPortAnswersIllegal i s hacc).symm.trans e)
    exact .answer
  | true =>
    obtain ⟨id, c, hat⟩ := exists_atPipe_of_acceptedAt hpipe hacc
    exact hat.failureOnlyAnswers (h.legalPipe id hat.levelHasPipes) e

/-- `IDLE_STEP` answers `NOT_INIT` and nothing else, or makes its first attempt, after which it has not answered yet
(R223). -/
theorem idleStep_failureOnlyAnswers {s t : State} (hresp : s.resp = none) (e : exec .idleStep s = .next t) :
    FailureOnlyAnswers s t := by
  rw [exec, execIdleStep] at e
  rcases onDp_cases s _ with ⟨-, h⟩ | ⟨-, -, ⟨u, hu, h⟩ | ⟨f, -, h⟩⟩ <;> (rw [h] at e; cases e)
  · exact .answer
  · split at hu
    · cases hu
      obtain ⟨-, -, hkeep⟩ := stageWOn_port .p0 s.cfg.stageMax s .dp
      exact .of_resp_none (hkeep.trans hresp)
    · cases hu
      exact .answer

/-- Settles O9: each command is one operation and its answer, and no operation changes anything and fails. -/
theorem failureChangesNothing : Obligations.FailureChangesNothing := by
  intro i s t w h hne e hw hresp hfail
  have hframed (hl : s.cfg.level = .framed) : LegalFramed s.cfg s.p0.ring := ⟨h.ring0, h.framed0 (by simp [hl])⟩
  suffices hsilent : FailureOnlyAnswers s t from hsilent w hw hfail
  by_cases hpipe : isPipeCommand i = true
  · exact h.pipeCommand_failureOnlyAnswers hpipe e
  cases i with (rw [exec] at e)
  | grantW sz => exact onRing_failureOnlyAnswers e fun _ => ringGrantW_unchangedOnFailure _ _ _
  | commit used => exact onRing_failureOnlyAnswers e fun _ => ringCommit_unchangedOnFailure _ _ _
  | read => exact onRing_failureOnlyAnswers e fun _ => h.ring0.read_unchangedOnFailure
  | release used => exact onRing_failureOnlyAnswers e fun _ => ringRelease_unchangedOnFailure _ _
  | fgrant m => exact onRing_failureOnlyAnswers e fun _ => frameGrant_unchangedOnFailure _ _ _
  | fcommit used => exact onRing_failureOnlyAnswers e fun hl => (hframed hl).commit_unchangedOnFailure used
  | ftoCommit amt => exact onRing_failureOnlyAnswers e fun _ => frameToCommit_unchangedOnFailure _ _
  | fdropW => exact onRing_failureOnlyAnswers e fun hl => (hframed hl).dropW_unchangedOnFailure
  | fread => exact onRing_failureOnlyAnswers e fun _ => h.ring0.frameRead_unchangedOnFailure _
  | frelease => exact onRing_failureOnlyAnswers e fun _ => frameRelease_unchangedOnFailure _
  | fautoRelease b => exact onRing_failureOnlyAnswers e fun _ => frameAutoRelease_unchangedOnFailure _ _
  | fdropR => exact onRing_failureOnlyAnswers e fun hl => (hframed hl).dropR_unchangedOnFailure
  | init | stageW m | stageR | claimW | claimR | finalizeW n | finalizeR | abortW | abortR | queryW | queryR =>
    exact absurd rfl hpipe
  | dpInit => exact absurd rfl hne
  | idleStep => exact idleStep_failureOnlyAnswers hresp e

end Sys2Proof.Machine
end

section
/-! PROOF. What reset leaves in every register (R260, R261): both Pipes are the Pipe of reset, over a storage that lists no
byte. -/

namespace Sys2Proof.Machine

/-- A storage with no listed byte holds no byte at any offset. -/
theorem memGet?_nil (off : Nat) : memGet? ⟨[]⟩ off = none := rfl

/-- After reset both Pipes are the Pipe of reset for the capacity of the instance. -/
theorem getPipe_resetOf (cfg : Config) (id : PipeId) : getPipe (State.resetOf cfg) id = Pipe.reset cfg.n := by
  cases id with
  | p0 => rfl
  | p1 => rfl

/-- Settles O13: each register of a Pipe is the one that the Pipe of reset states, and its storage lists no byte. -/
theorem resetRegisters : Obligations.ResetRegisters := by
  intro cfg id
  rw [getPipe_resetOf]
  simp [Pipe.reset, Ring.reset, State.resetOf, memGet?_nil]

end Sys2Proof.Machine
end
